-- ==== Sys2Proof/Word.lean ====
section
/-!
DEFINITION. The machine's words: bytes, 32-bit operands and registers, 64-bit command words, and the Color.
Everything is unsigned (00_scope.md section 8).
-/

namespace Sys2Proof

/-- One byte of the scratch buffer, or one colour channel. -/
abbrev Byte := BitVec 8

/-- An index, a count, a line id, a strip number or a period: W_IDX = W_T = 32 bits (92_eei_decisions.md D6). -/
abbrev Word32 := BitVec 32

/-- A command word (30_encoding.md R91). -/
abbrev CommandWord := BitVec 64

/-- A Color: three 8-bit unsigned channel intensities (00_scope.md section 8, 10_state.md R24). -/
structure Color where
  r : Byte
  g : Byte
  b : Byte
  deriving DecidableEq, Repr, Inhabited

/-- The default Color, all channels zero, "LED off" (70_reset_and_hazards.md R211). -/
def Color.black : Color := ⟨0#8, 0#8, 0#8⟩

end Sys2Proof
end

