-- ==== Sys2Proof/Syntax.lean ====
section
/-!
DEFINITION. The nine operations (30_encoding.md R92, R100), one constructor per row of spec/opcode_table.json.
Operand widths are in the types: every term of `Instr` fits the fields of a command word (30_encoding.md R91, R94, R95).
-/

namespace Sys2Proof

/-- The iteration direction of ENC over a strip's slice (30_encoding.md R95): 0 forward, 1 reverse. -/
inductive Direction where
  | forward
  | reverse
  deriving DecidableEq, Repr, Inhabited

/-- One operation of the engine with its operands (30_encoding.md R92). The set is closed at nine (R102). -/
inductive Instr where
  /-- (Re)arm the periodic timer with a period in time units (40_timer_pin_surface.md R121). -/
  | arm (period : Word32)
  /-- Wait for the next match and consume it (R122). -/
  | wait
  /-- Drive line `id` low (R123). -/
  | setl (id : Word32)
  /-- Drive line `id` high (R124). -/
  | seth (id : Word32)
  /-- Encode strip `strip`'s slice of the colour buffer into the scratch buffer (41_physical_strip.md R143). -/
  | enc (strip : Word32) (dir : Direction)
  /-- Transmit strip `strip` from the scratch buffer (R148). -/
  | tx (strip : Word32)
  /-- Write one Color at a global index (42_logical_strip.md R160). -/
  | setc (idx : Word32) (color : Color)
  /-- Write one Color everywhere (R161). -/
  | fill (color : Color)
  /-- Encode and transmit every strip in turn (R165). -/
  | txall
  deriving DecidableEq, Repr, Inhabited

end Sys2Proof
end

