-- ==== Sys2Proof/Decode.lean ====
section
/-!
DEFINITION. Command words (30_encoding.md R90 to R99, R108): the fields, the formats, the total decoder that rejects by
name, the encoder written from the same tables, and the rows of spec/opcode_table.json.
-/

namespace Sys2Proof

/-! ## Fields and formats -/

/-- OPC, bits 63:56 (30_encoding.md R91). -/
def opcField (w : CommandWord) : BitVec 8 := w.extractLsb' 56 8

/-- A, bits 55:24 (30_encoding.md R91). -/
def aField (w : CommandWord) : Word32 := w.extractLsb' 24 32

/-- B, bits 23:0 (30_encoding.md R91). -/
def bField (w : CommandWord) : BitVec 24 := w.extractLsb' 0 24

/-- A word put together from its three fields, `opc ++ a ++ b` (30_encoding.md R91). -/
def packWord (opc : BitVec 8) (a : Word32) (b : BitVec 24) : CommandWord :=
  opc.setWidth 64 <<< 56 ||| a.setWidth 64 <<< 24 ||| b.setWidth 64

/-- A Color as the 24-bit value `r ++ g ++ b` (20_memory.md R62). -/
def packColor (c : Color) : BitVec 24 :=
  c.r.setWidth 24 <<< 16 ||| c.g.setWidth 24 <<< 8 ||| c.b.setWidth 24

/-- The Color of a B field (30_encoding.md R95). -/
def unpackColor (b : BitVec 24) : Color := ⟨b.extractLsb' 16 8, b.extractLsb' 8 8, b.extractLsb' 0 8⟩

/-- The direction of a B field whose other bits are zero: bit 0, 0 forward and 1 reverse (30_encoding.md R95). -/
def unpackDir (b : BitVec 24) : Direction := if b.getLsbD 0 then .reverse else .forward

/-- The B field of a direction (30_encoding.md R95). -/
def packDir : Direction → BitVec 24
  | .forward => 0#24
  | .reverse => 1#24

/-- The operation codes (30_encoding.md R93). -/
inductive Opcode where
  | arm
  | wait
  | setl
  | seth
  | enc
  | tx
  | setc
  | fill
  | txall
  deriving DecidableEq, Repr, Inhabited

/-- The OPC value of an operation (30_encoding.md R92). -/
def Opcode.byte : Opcode → BitVec 8
  | .arm => 0x01#8
  | .wait => 0x02#8
  | .setl => 0x03#8
  | .seth => 0x04#8
  | .enc => 0x05#8
  | .tx => 0x06#8
  | .setc => 0x07#8
  | .fill => 0x08#8
  | .txall => 0x09#8

/-- The operation an OPC value selects; 0x00 and 0x0A to 0xFF select none (30_encoding.md R93, R97). -/
def Opcode.ofByte (opc : BitVec 8) : Option Opcode :=
  match opc.toNat with
  | 0x01 => some .arm
  | 0x02 => some .wait
  | 0x03 => some .setl
  | 0x04 => some .seth
  | 0x05 => some .enc
  | 0x06 => some .tx
  | 0x07 => some .setc
  | 0x08 => some .fill
  | 0x09 => some .txall
  | _ => none

/-- The five formats (30_encoding.md R91). -/
inductive Format where
  /-- OPC only. -/
  | z
  /-- OPC and A. -/
  | a
  /-- OPC, A and B[0]. -/
  | ad
  /-- OPC, A and B. -/
  | ac
  /-- OPC and B. -/
  | c
  deriving DecidableEq, Repr, Inhabited

/-- The format of an operation (30_encoding.md R91). -/
def Opcode.format : Opcode → Format
  | .arm => .a
  | .wait => .z
  | .setl => .a
  | .seth => .a
  | .enc => .ad
  | .tx => .a
  | .setc => .ac
  | .fill => .c
  | .txall => .z

/-- Every field the format does not use is zero (30_encoding.md R96). -/
def reservedZero (f : Format) (w : CommandWord) : Bool :=
  match f with
  | .z => aField w == 0#32 && bField w == 0#24
  | .a => bField w == 0#24
  | .ad => bField w >>> 1 == 0#24
  | .ac => true
  | .c => aField w == 0#32

/-! ## The decoder -/

/-- Why a word selects no operation (30_encoding.md R108); both are F_ILLEGAL (60_exceptions.md R183). -/
inductive Illegal where
  /-- OPC is not in 0x01 to 0x09 (R97). -/
  | unknownOpcode
  /-- A field the format does not use is not zero (R96). -/
  | reservedField
  deriving DecidableEq, Repr, Inhabited

/-- The operation of an OPC with the operands of rules R94 and R95 of 30_encoding.md. -/
def assemble (o : Opcode) (w : CommandWord) : Instr :=
  match o with
  | .arm => .arm (aField w)
  | .wait => .wait
  | .setl => .setl (aField w)
  | .seth => .seth (aField w)
  | .enc => .enc (aField w) (unpackDir (bField w))
  | .tx => .tx (aField w)
  | .setc => .setc (aField w) (unpackColor (bField w))
  | .fill => .fill (unpackColor (bField w))
  | .txall => .txall

/-- Decoding, total on 64-bit words, its checks in the order of rule R108 of 30_encoding.md. -/
def decode (w : CommandWord) : Except Illegal Instr :=
  match Opcode.ofByte (opcField w) with
  | none => .error .unknownOpcode
  | some o => if reservedZero o.format w then .ok (assemble o w) else .error .reservedField

/-- The decoder on a word numbered as spec/opcode_table.json numbers it: one 64-bit word, bit 0 its least significant
bit, bits from `nbits` on zero. -/
def decodeTableWord (nbits w : Nat) : Option Instr :=
  match decode (BitVec.ofNat 64 (w % 2 ^ nbits)) with
  | .ok i => some i
  | .error _ => none

/-! ## The encoder -/

/-- The operation code of an instruction. -/
def Instr.opcode : Instr → Opcode
  | .arm _ => .arm
  | .wait => .wait
  | .setl _ => .setl
  | .seth _ => .seth
  | .enc _ _ => .enc
  | .tx _ => .tx
  | .setc _ _ => .setc
  | .fill _ => .fill
  | .txall => .txall

/-- The A field of an instruction (30_encoding.md R94); zero where its format does not use it. -/
def Instr.operandA : Instr → Word32
  | .arm period => period
  | .wait => 0#32
  | .setl id => id
  | .seth id => id
  | .enc strip _ => strip
  | .tx strip => strip
  | .setc idx _ => idx
  | .fill _ => 0#32
  | .txall => 0#32

/-- The B field of an instruction (30_encoding.md R95); zero where its format does not use it. -/
def Instr.operandB : Instr → BitVec 24
  | .arm _ => 0#24
  | .wait => 0#24
  | .setl _ => 0#24
  | .seth _ => 0#24
  | .enc _ dir => packDir dir
  | .tx _ => 0#24
  | .setc _ color => packColor color
  | .fill color => packColor color
  | .txall => 0#24

/-- The command word of an instruction (30_encoding.md R92). -/
def encode (i : Instr) : CommandWord := packWord i.opcode.byte i.operandA i.operandB

/-! ## The opcode table -/

/-- One row of spec/opcode_table.json: a word w selects it when `w AND mask = match` (30_encoding.md R93). -/
structure Row where
  opcode : Opcode
  bits   : CommandWord
  mask   : CommandWord
  deriving DecidableEq, Repr

/-- The rows of spec/opcode_table.json with their `match` and `mask` as written there. -/
def opcodeTable : List Row :=
  [⟨.arm, 0x0100000000000000#64, 0xFF00000000FFFFFF#64⟩,
   ⟨.wait, 0x0200000000000000#64, 0xFFFFFFFFFFFFFFFF#64⟩,
   ⟨.setl, 0x0300000000000000#64, 0xFF00000000FFFFFF#64⟩,
   ⟨.seth, 0x0400000000000000#64, 0xFF00000000FFFFFF#64⟩,
   ⟨.enc, 0x0500000000000000#64, 0xFF00000000FFFFFE#64⟩,
   ⟨.tx, 0x0600000000000000#64, 0xFF00000000FFFFFF#64⟩,
   ⟨.setc, 0x0700000000000000#64, 0xFF00000000000000#64⟩,
   ⟨.fill, 0x0800000000000000#64, 0xFFFFFFFFFF000000#64⟩,
   ⟨.txall, 0x0900000000000000#64, 0xFFFFFFFFFFFFFFFF#64⟩]

/-- A word selects a row (30_encoding.md R93). -/
def Row.selects (r : Row) (w : CommandWord) : Bool := w &&& r.mask == r.bits

/-! ## Assembler text -/

/-- The mnemonic of an operation (30_encoding.md R100). -/
def Opcode.mnemonic : Opcode → String
  | .arm => "ARM"
  | .wait => "WAIT"
  | .setl => "SETL"
  | .seth => "SETH"
  | .enc => "ENC"
  | .tx => "TX"
  | .setc => "SETC"
  | .fill => "FILL"
  | .txall => "TXALL"

/-- A Color as the assembler writes it, `(r, g, b)` in decimal (30_encoding.md R99). -/
def Color.text (c : Color) : String :=
  "(" ++ Nat.repr c.r.toNat ++ ", " ++ Nat.repr c.g.toNat ++ ", " ++ Nat.repr c.b.toNat ++ ")"

/-- A direction as the assembler writes it (30_encoding.md R99). -/
def Direction.text : Direction → String
  | .forward => "fwd"
  | .reverse => "rev"

/-- One command in the spec's assembler text (30_encoding.md R99). -/
def Instr.text : Instr → String
  | .arm period => "ARM " ++ Nat.repr period.toNat
  | .wait => "WAIT"
  | .setl id => "SETL " ++ Nat.repr id.toNat
  | .seth id => "SETH " ++ Nat.repr id.toNat
  | .enc strip dir => "ENC " ++ Nat.repr strip.toNat ++ ", " ++ dir.text
  | .tx strip => "TX " ++ Nat.repr strip.toNat
  | .setc idx color => "SETC " ++ Nat.repr idx.toNat ++ ", " ++ color.text
  | .fill color => "FILL " ++ color.text
  | .txall => "TXALL"

end Sys2Proof
end

