-- ==== Sys2Proof/Config.lean ====
section
/-!
DEFINITION. What an implementation fixes (00_scope.md R8: parameters of the step relation, never written by an
operation), as plain data; and the free values, opaque constants that stand for what the spec leaves unspecified
after reset (93_implementation_defined.md U1 to U4). What is computed from a configuration stands in
Machine/Configuration.lean.
-/

namespace Sys2Proof

/-- LINE_KIND[id] (00_scope.md R8): a real output, or "a no-op sink for absent lines". -/
inductive LineKind where
  | driven
  | sink
  deriving DecidableEq, Repr, Inhabited

/-- One physical strip's read-only descriptor (10_state.md R21, R22). The fields have the widths of the descriptor
word; `order` is the raw 3-bit code, so that a reserved code can be written down and rejected (W4). -/
structure Strip where
  /-- LED_COUNT, bits 31:0. -/
  ledCount : Word32
  /-- LINE, bits 39:32. -/
  line     : BitVec 8
  /-- REVERSED, bit 40. -/
  reversed : Bool
  /-- ORDER, bits 43:41. -/
  order    : BitVec 3
  deriving DecidableEq, Repr, Inhabited

/-- The configuration (00_scope.md R8, 10_state.md R21 to R23). N_STRIPS is the length of `strips` and N_LINES the
length of `lines`. -/
structure Cfg where
  /-- STRIP[k], in the fixed configured order. -/
  strips       : List Strip
  /-- LINE_KIND[id]. -/
  lines        : List LineKind
  /-- ZERO_HIGH; read by no operation (R11). -/
  zeroHigh     : Word32
  /-- ONE_HIGH; read by no operation (R11). -/
  oneHigh      : Word32
  /-- FULL_CYCLE, in time units. -/
  fullCycle    : Word32
  /-- T_LATCH_MIN, the chipset's minimum low time, in time units; read by no rule of the engine (R10, log entry 20). -/
  latchMin     : Nat
  /-- TU, the length of the time unit, as a number of picoseconds (DESIGN CHOICE, log entry 20); read by no rule. -/
  timeUnit     : Nat
  /-- RESET_TICKS, the length of the reset/latch pulse in ticks. -/
  resetTicks   : Nat
  /-- CBUF_LEN, the number of Colors in the colour buffer. -/
  cbufLen      : Nat
  /-- SCRATCH_BYTES, the number of bytes in the scratch buffer. -/
  scratchBytes : Nat
  deriving DecidableEq, Repr, Inhabited

/-- T_LATCH_MIN of `Config.board`: no source gives a value (R8, U14), so it has none here either (log entry 20). -/
opaque Config.boardLatchMin : Nat
/-- TU of `Config.board`: no source gives a value (R8, U14), so it has none here either (log entry 20). -/
opaque Config.boardTimeUnit : Nat

/-- The configuration that `State.reset` carries: the spec's own test configuration CFG-B (95_test_vectors.md
section 0). DESIGN CHOICE, unsafe, log entry 1: the spec leaves every value open (U14) and a reset state needs one.
No meaning reads this constant and every statement is about every configuration. -/
def Config.board : Cfg where
  strips := [⟨3#32, 0#8, false, 0#3⟩, ⟨4#32, 1#8, true, 2#3⟩, ⟨2#32, 2#8, false, 5#3⟩]
  lines := [.driven, .driven, .sink]
  zeroHigh := 10#32
  oneHigh := 20#32
  fullCycle := 30#32
  latchMin := Config.boardLatchMin
  timeUnit := Config.boardTimeUnit
  resetTicks := 4
  cbufLen := 9
  scratchBytes := 12

/-! The free values. Each takes the number of the drawing (the State field `draws`, advanced by every reset, log
entry 6). They have no body: no proof can learn what they are. -/

/-- T_EN after drawing `d` (70_reset_and_hazards.md R212, U1). -/
opaque Config.freeTEn (d : Nat) : Bool
/-- T_MIE after drawing `d` (R212, U1). -/
opaque Config.freeTMie (d : Nat) : Bool
/-- T_PERIOD after drawing `d` (R212, U1). -/
opaque Config.freeTPeriod (d : Nat) : Word32
/-- T_CNT after drawing `d` (R212, U1). -/
opaque Config.freeTCnt (d : Nat) : Word32
/-- T_MATCH after drawing `d` (R212, U1). -/
opaque Config.freeTMatch (d : Nat) : Bool
/-- The level of line `id`'s latch after drawing `d` (R213, U2). -/
opaque Config.freeLevel (d id : Nat) : Bool
/-- Byte `a` of the scratch buffer after drawing `d`, until it is written (R212, U3). -/
opaque Config.freeScratch (d a : Nat) : Byte
/-- K after drawing `d` (R214, U4). -/
opaque Config.freeK (d : Nat) : Word32
/-- OFF after drawing `d` (R214, U4). -/
opaque Config.freeOff (d : Nat) : Word32
/-- N after drawing `d` (R214, U4). -/
opaque Config.freeN (d : Nat) : Word32
/-- I after drawing `d` (R214, U4). -/
opaque Config.freeI (d : Nat) : Word32
/-- J after drawing `d` (R214, U4). -/
opaque Config.freeJ (d : Nat) : BitVec 37
/-- DIR after drawing `d` (R214, U4). -/
opaque Config.freeDir (d : Nat) : Direction
/-- TC after drawing `d` (R214, U4). -/
opaque Config.freeTc (d : Nat) : Nat
/-- CMD after drawing `d` (R214, U4). -/
opaque Config.freeCmd (d : Nat) : CommandWord

end Sys2Proof
end

