-- ==== Sys2Proof/Machine/Configuration.lean ====
section
/-!
DEFINITION. What the rules compute from a configuration: TICK, START[k], TOTAL_LEDS (00_scope.md R8), the six channel
orders (30_encoding.md R104), the descriptor word (10_state.md R22), the partition of the colour buffer (20_memory.md
R72 to R74) and the well-formedness clauses W1 to W8 (00_scope.md R10).
-/

namespace Sys2Proof

/-! ## Channel orders -/

/-- A ColorChannelOrder: one of six permutations (30_encoding.md R103, R104). -/
inductive ChannelOrder where
  | rgb
  | rbg
  | grb
  | gbr
  | brg
  | bgr
  deriving DecidableEq, Repr, Inhabited

/-- The order a code of the ORDER field names; codes 6 and 7 are reserved (30_encoding.md R104). -/
def ChannelOrder.ofCode (code : BitVec 3) : Option ChannelOrder :=
  match code.toNat with
  | 0 => some .rgb
  | 1 => some .rbg
  | 2 => some .grb
  | 3 => some .gbr
  | 4 => some .brg
  | 5 => some .bgr
  | _ => none

/-- The code of an order (30_encoding.md R104). -/
def ChannelOrder.code : ChannelOrder → BitVec 3
  | .rgb => 0#3
  | .rbg => 1#3
  | .grb => 2#3
  | .gbr => 3#3
  | .brg => 4#3
  | .bgr => 5#3

/-- The red offset `ro` (30_encoding.md R104). -/
def ChannelOrder.red : ChannelOrder → Nat
  | .rgb => 0
  | .rbg => 0
  | .grb => 1
  | .gbr => 2
  | .brg => 1
  | .bgr => 2

/-- The green offset `go` (30_encoding.md R104). -/
def ChannelOrder.green : ChannelOrder → Nat
  | .rgb => 1
  | .rbg => 2
  | .grb => 0
  | .gbr => 0
  | .brg => 2
  | .bgr => 1

/-- The blue offset `bo` (30_encoding.md R104). -/
def ChannelOrder.blue : ChannelOrder → Nat
  | .rgb => 2
  | .rbg => 1
  | .grb => 2
  | .gbr => 1
  | .brg => 0
  | .bgr => 0

/-! ## Strip descriptors -/

/-- STRIP[k].led_count as a number. -/
def Strip.leds (d : Strip) : Nat := d.ledCount.toNat

/-- STRIP[k].line as a line id. -/
def Strip.lineId (d : Strip) : Nat := d.line.toNat

/-- STRIP[k].order; none for a reserved code. -/
def Strip.channelOrder (d : Strip) : Option ChannelOrder := ChannelOrder.ofCode d.order

/-- The direction TXALL passes to a strip's ENC (42_logical_strip.md R164). -/
def Strip.direction (d : Strip) : Direction := if d.reversed then .reverse else .forward

/-- DESC[k], the 64-bit descriptor word; bits 63:44 read as zero (10_state.md R22). -/
def Strip.desc (d : Strip) : BitVec 64 :=
  d.order.setWidth 64 <<< 41 ||| (BitVec.ofBool d.reversed).setWidth 64 <<< 40 ||| d.line.setWidth 64 <<< 32 |||
    d.ledCount.setWidth 64

/-- The strip a descriptor word describes (10_state.md R22). -/
def Strip.ofDesc (w : BitVec 64) : Strip where
  ledCount := w.extractLsb' 0 32
  line := w.extractLsb' 32 8
  reversed := w.getLsbD 40
  order := w.extractLsb' 41 3

/-! ## Derived quantities -/

/-- N_STRIPS. -/
def Cfg.nStrips (c : Cfg) : Nat := c.strips.length

/-- N_LINES. -/
def Cfg.nLines (c : Cfg) : Nat := c.lines.length

/-- The number of LEDs of a list of strips. -/
def ledsOf (ds : List Strip) : Nat := (ds.map Strip.leds).sum

/-- TOTAL_LEDS, the sum of all LED counts (00_scope.md R8). -/
def Cfg.totalLeds (c : Cfg) : Nat := ledsOf c.strips

/-- START[k], the sum of the LED counts of the strips before k (00_scope.md R8). -/
def Cfg.start (c : Cfg) (k : Nat) : Nat := ledsOf (c.strips.take k)

/-- MAX_LEDS, the largest LED count (00_scope.md R8). -/
def Cfg.maxLeds (c : Cfg) : Nat := (c.strips.map Strip.leds).foldl max 0

/-- TICK = FULL_CYCLE div 3, one third of a bit period, in time units (41_physical_strip.md R146). -/
def Cfg.tick (c : Cfg) : Word32 := BitVec.ofNat 32 (c.fullCycle.toNat / 3)

/-- LINE_KIND[id] is `driven` (10_state.md R27). False for a sink and for an id outside the set. -/
def Cfg.driven (c : Cfg) (id : Nat) : Bool := c.lines[id]? == some .driven

/-- The ids of the driven lines in rising order: the lines that have a latch (10_state.md R27). -/
def Cfg.drivenIds (c : Cfg) : List Nat := (List.range c.nLines).filter c.driven

/-! ## The partition of the colour buffer -/

/-- `locate(g)` over the strips from number `k` on, of which the first starts at global index 0 of `g`'s count. -/
def locateFrom (k g : Nat) : List Strip → Option (Nat × Nat)
  | [] => none
  | d :: ds => if g < d.leds then some (k, g) else locateFrom (k + 1) (g - d.leds) ds

/-- `locate(g)`: the strip number and the local index of global index `g` (20_memory.md R73); none at and above
TOTAL_LEDS. No operation computes it. -/
def Cfg.locate (c : Cfg) (g : Nat) : Option (Nat × Nat) := locateFrom 0 g c.strips

/-- The transmission position of local index `l` in a strip of `n` LEDs (20_memory.md R74). -/
def wirePosition (reversed : Bool) (n l : Nat) : Nat := if reversed then n - 1 - l else l

/-! ## Well-formed configurations (00_scope.md R10) -/

/-- (W1) there is at least one strip. -/
def Cfg.w1 (c : Cfg) : Bool := 1 ≤ c.nStrips

/-- (W2) CBUF_LEN = TOTAL_LEDS. -/
def Cfg.w2 (c : Cfg) : Bool := c.cbufLen == c.totalLeds

/-- (W3) every strip's bytes fit the scratch buffer. -/
def Cfg.w3 (c : Cfg) : Bool := c.strips.all fun d => 3 * d.leds ≤ c.scratchBytes

/-- (W4) every strip's order code names one of the six orders. -/
def Cfg.w4 (c : Cfg) : Bool := c.strips.all fun d => d.channelOrder.isSome

/-- (W5) every strip's line is one of the lines. -/
def Cfg.w5 (c : Cfg) : Bool := c.strips.all fun d => d.lineId < c.nLines

/-- (W6) 0 < ZERO_HIGH < ONE_HIGH < FULL_CYCLE and FULL_CYCLE is divisible by 3. -/
def Cfg.w6 (c : Cfg) : Bool :=
  0 < c.zeroHigh.toNat && c.zeroHigh.toNat < c.oneHigh.toNat && c.oneHigh.toNat < c.fullCycle.toNat &&
    c.fullCycle.toNat % 3 == 0

/-- (W7) the reset pulse lasts at least one tick. -/
def Cfg.w7 (c : Cfg) : Bool := 1 ≤ c.resetTicks

/-- (W8) nothing exceeds its width: W_IDX = W_T = 32, W_LINE = 8. -/
def Cfg.w8 (c : Cfg) : Bool :=
  c.cbufLen < 2 ^ 32 && c.scratchBytes < 2 ^ 32 && c.tick.toNat < 2 ^ 32 && c.nLines ≤ 2 ^ 8

/-- WF(cfg): all eight clauses hold (00_scope.md R10). `led_count = 0` does not break it (90_conflicts.md C1). -/
def Cfg.wf (c : Cfg) : Bool := c.w1 && c.w2 && c.w3 && c.w4 && c.w5 && c.w6 && c.w7 && c.w8

/-! ## Strips that can be encoded -/

/-- Strip `k` lies inside the colour buffer, or is one that ENC ends fatally on before it reads (41_physical_strip.md
R143); W2 makes it so. -/
def Cfg.sliceExists (c : Cfg) (k : Nat) : Bool :=
  match c.strips[k]? with
  | none => true
  | some d => c.scratchBytes < 3 * d.leds || c.start k + d.leds ≤ c.cbufLen

/-- Strip `k` has one of the six orders, or is one that ENC ends fatally on before it reads (41_physical_strip.md R143);
W4 makes it so. -/
def Cfg.orderExists (c : Cfg) (k : Nat) : Bool :=
  match c.strips[k]? with
  | none => true
  | some d => c.scratchBytes < 3 * d.leds || d.channelOrder.isSome

end Sys2Proof
end

