-- ==== Sys2Proof/Machine/State.lean ====
section
/-!
DEFINITION. The state of the engine (10_state.md R20), all of it plain data, the reasons a step can stop, and the state
after reset (10_state.md R47).
-/

namespace Sys2Proof.Machine

/-- The five timer registers (10_state.md R26). -/
structure Timer where
  /-- T_EN: the counter counts. -/
  en      : Bool
  /-- T_MIE: match-interrupt enable, storage only, read by nothing (60_exceptions.md R193). -/
  mie     : Bool
  /-- T_PERIOD, in time units. -/
  period  : Word32
  /-- T_CNT, time units since the last match or arm. -/
  cnt     : Word32
  /-- T_MATCH: a period has elapsed and has not been consumed; one sticky bit (20_memory.md R80). -/
  matched : Bool
  deriving DecidableEq, Repr, Inhabited

/-- FAULT, a 2-bit code (10_state.md R41, 60_exceptions.md R186). -/
inductive FaultCode where
  /-- F_NONE, code 0. -/
  | noFault
  /-- F_CONFIG, code 1 (R181). -/
  | config
  /-- F_INDEX, code 2 (R182). -/
  | index
  /-- F_ILLEGAL, code 3 (R183). -/
  | illegal
  deriving DecidableEq, Repr, Inhabited

/-- The events of WIRE (10_state.md R44). -/
inductive Event where
  /-- EvArm(p): an ARM with period p completed. -/
  | arm (period : Word32)
  /-- EvSet(id, l): the latch of driven line id was written with level l (false low, true high). -/
  | set (id : Nat) (level : Bool)
  /-- EvTick: a WAIT completed, one match condition was consumed. -/
  | tick
  /-- EvFatal(code): fatal entry. -/
  | fatal (code : FaultCode)
  deriving DecidableEq, Repr, Inhabited

/-- What happens before the sequencer's next micro-operation; the model's own plain data for the interleaving of the
timer agent with the sequencer (40_timer_pin_surface.md R133, log entry 8). -/
inductive Slot where
  /-- `units` time units pass, then the sequencer goes on with its next micro-operation. -/
  | run (units : Nat)
  /-- `units` time units pass, then the step ends in the middle of the command, with BUSY = 1. -/
  | pause (units : Nat)
  deriving DecidableEq, Repr, Inhabited

/-- A move of the outside world (70_reset_and_hazards.md R224); the model's own plain data (log entry 11). -/
inductive Move where
  /-- The host issues a command word (30_encoding.md R90). -/
  | command (w : CommandWord)
  /-- The other timer user replaces the five timer registers (40_timer_pin_surface.md R132). -/
  | otherTimer (t : Timer)
  /-- Time units pass while the engine is idle or halted. -/
  | time (units : Nat)
  /-- Reset (70_reset_and_hazards.md R210). -/
  | reset
  deriving DecidableEq, Repr, Inhabited

/-- The whole state (10_state.md R20) with the configuration (00_scope.md R8) and the model's own fields. -/
structure State where
  /-- CFG and the parameters; no operation writes it (10_state.md R21). -/
  cfg       : Cfg
  /-- CBUF: the entries that are not (0, 0, 0), in rising index order (10_state.md R24, log entry 22). -/
  cbuf      : List (Nat × Color)
  /-- SCR: the bytes written since reset, in rising index order (10_state.md R25, log entry 2). -/
  scr       : List Host.Cell
  /-- The timer registers (10_state.md R26). -/
  timer     : Timer
  /-- LVL[id] of every driven line, in rising id order; false low, true high (10_state.md R27). -/
  lvl       : List (Nat × Bool)
  /-- K, the strip being served (10_state.md R28). -/
  k         : Word32
  /-- OFF, the running offset (R28). -/
  off       : Word32
  /-- N, the strip's LED count (R28). -/
  n         : Word32
  /-- I, the LED position of ENC (R29). -/
  i         : Word32
  /-- J, the bit position of TX, W_IDX + 5 bits (R29). -/
  j         : BitVec 37
  /-- DIR, the iteration direction (R29). -/
  dir       : Direction
  /-- TC, the tick countdown (R30). -/
  tc        : Nat
  /-- CMD, the command word being executed (R31). -/
  cmd       : CommandWord
  /-- UPC, the index of the next micro-operation of the running command (R32). -/
  upc       : Nat
  /-- BUSY (R40). -/
  busy      : Bool
  /-- FAULT (R41). -/
  fault     : FaultCode
  /-- WIRE, oldest event first (R44). -/
  wire      : List Event
  /-- The outside world's moves still to come, next first (the model's own, log entry 11). -/
  agenda    : List Move
  /-- The slots of the micro-operations still to come; an empty list means no time passes (the model's own, log
  entry 8). -/
  pace      : List Slot
  /-- How many more time units the timer agent gets; none means without bound, the premise TIMER_LIVE (the model's own,
  40_timer_pin_surface.md R133, log entry 9). -/
  unitsLeft : Option Nat
  /-- The number of the drawing of the free values that holds since the last reset (the model's own, log entry 6). -/
  draws     : Nat
  deriving DecidableEq, Repr

/-- Where the model itself stops because an address does not exist. A fatal error of the engine is no such stop: it is
a next state (60_exceptions.md R188). -/
inductive Fault where
  /-- Raised by SETC, ENC and TXALL where they would reach a colour buffer index at or above CBUF_LEN, which W2 rules
  out and which reset therefore never lets happen (20_memory.md R61, R68, 60_exceptions.md R181). Safe: the model stops
  where the spec gives no access. -/
  | outsideColourBuffer
  deriving DecidableEq, Repr

/-- Where the model refuses, by name. -/
inductive Refusal where
  /-- Raised by `exec` for an instruction that has no meaning yet. Safe. -/
  | notModelled (mnemonic : String)
  /-- Raised by every instruction while FAULT is set: the engine accepts no command (30_encoding.md R90,
  60_exceptions.md R188, R189, 93_implementation_defined.md U13). Safe: the spec gives no such step. -/
  | halted
  /-- Raised by every instruction while another command is in flight (30_encoding.md R90, 70_reset_and_hazards.md R224,
  93_implementation_defined.md U13). Safe: the spec gives no such step. -/
  | busyWithAnotherCommand
  /-- Raised by ENC and TXALL for a strip whose ORDER code is reserved, which W4 rules out and which reset therefore
  never lets happen (30_encoding.md R104, 93_implementation_defined.md U6). Safe. -/
  | reservedChannelOrder
  deriving DecidableEq, Repr

/-- The state when reset is released, for a configuration and a drawing of the free values (10_state.md R47,
70_reset_and_hazards.md R210 to R215): CBUF black, FAULT clear or, when WF fails, F_CONFIG at once with its event, and
everything the spec leaves unspecified a free value. -/
def State.powerUp (c : Cfg) (d : Nat) : State where
  cfg := c
  cbuf := []
  scr := []
  timer := ⟨Config.freeTEn d, Config.freeTMie d, Config.freeTPeriod d, Config.freeTCnt d, Config.freeTMatch d⟩
  lvl := c.drivenIds.map fun id => (id, Config.freeLevel d id)
  k := Config.freeK d
  off := Config.freeOff d
  n := Config.freeN d
  i := Config.freeI d
  j := Config.freeJ d
  dir := Config.freeDir d
  tc := Config.freeTc d
  cmd := Config.freeCmd d
  upc := 0
  busy := false
  fault := if c.wf then .noFault else .config
  wire := if c.wf then [] else [.fatal .config]
  agenda := []
  pace := []
  unitsLeft := none
  draws := d

/-- The machine right after reset: the configuration of log entry 1, drawing 0, nothing planned. -/
def State.reset : State := State.powerUp Config.board 0

end Sys2Proof.Machine
end

