-- ==== Sys2Proof/Machine/Flags.lean ====
section
/-!
DEFINITION. The three flags T_MATCH, BUSY and FAULT (10_state.md R35): how the timer step sets T_MATCH
(40_timer_pin_surface.md R120), how ARM and WAIT clear it (R121, R122), and what the host reads of BUSY and FAULT.
-/

namespace Sys2Proof.Machine

/-- One step of the timer agent, the passing of one time unit (40_timer_pin_surface.md R120). Not enabled while T_EN is
0: the registers stay. -/
def Timer.step (t : Timer) : Timer :=
  if t.en then
    if t.cnt + 1#32 = t.period then { t with cnt := 0#32, matched := true } else { t with cnt := t.cnt + 1#32 }
  else t

/-- The number of timer steps from `t` to the step that reaches the next match, counting that step, while T_EN is 1;
it accounts for the wrap of left-over state (R120). -/
def Timer.stepsToMatch (t : Timer) : Nat := (t.period - 1#32 - t.cnt).toNat + 1

/-- The number of timer steps between two matches: T_PERIOD, or 2^32 when T_PERIOD is 0 (R120). -/
def Timer.cycle (t : Timer) : Nat := (t.period - 1#32).toNat + 1

/-- `n` steps of the timer agent at once, in closed form. -/
def Timer.advance (n : Nat) (t : Timer) : Timer :=
  if t.en then
    if n < t.stepsToMatch then { t with cnt := t.cnt + BitVec.ofNat 32 n }
    else { t with cnt := BitVec.ofNat 32 ((n - t.stepsToMatch) % t.cycle), matched := true }
  else t

/-- The timer after ARM (40_timer_pin_surface.md R121): every register overwritten, the pending match discarded. -/
def Timer.armed (period : Word32) : Timer := ⟨true, true, period, 0#32, false⟩

/-- The timer after a WAIT consumed the match: only T_MATCH changes (40_timer_pin_surface.md R122). -/
def Timer.consume (t : Timer) : Timer := { t with matched := false }

/-- The 2-bit code of FAULT (60_exceptions.md R186). -/
def FaultCode.code : FaultCode → BitVec 2
  | .noFault => 0#2
  | .config => 1#2
  | .index => 2#2
  | .illegal => 3#2

/-- What the host reads of BUSY (70_reset_and_hazards.md R224). -/
def State.readBusy (s : State) : BitVec 1 := BitVec.ofBool s.busy

/-- What the host reads of FAULT (70_reset_and_hazards.md R224). -/
def State.readFault (s : State) : BitVec 2 := s.fault.code

/-- The engine accepts a command (30_encoding.md R90). -/
def State.ready (s : State) : Bool := !s.busy && s.fault == .noFault

end Sys2Proof.Machine
end

