-- ==== Sys2Proof/Machine/Ops.lean ====
section
/-!
DEFINITION. The named operations over the state: the memories (20_memory.md R61), the output latches (10_state.md R27),
the passing of time (40_timer_pin_surface.md R120), fatal entry (60_exceptions.md R188), and the acceptance and the
completion of a command (30_encoding.md R90, 10_state.md R32).
-/

namespace Sys2Proof.Machine

/-! ## Memory: lists of (index, value) in rising index order -/

/-- The value listed at an index. -/
def Memory.find {α : Type} (a : Nat) : List (Nat × α) → Option α
  | [] => none
  | (b, v) :: m => if a = b then some v else Memory.find a m

/-- The list with `v` at index `a`, in its place in the rising order. -/
def Memory.insert {α : Type} (a : Nat) (v : α) : List (Nat × α) → List (Nat × α)
  | [] => [(a, v)]
  | (b, w) :: m =>
    if a < b then (a, v) :: (b, w) :: m
    else if a = b then (a, v) :: m
    else (b, w) :: Memory.insert a v m

/-- The list without index `a`. -/
def Memory.erase {α : Type} (a : Nat) : List (Nat × α) → List (Nat × α)
  | [] => []
  | (b, w) :: m => if a = b then Memory.erase a m else (b, w) :: Memory.erase a m

/-- The canonical form of a memory: indices strictly rising, and every entry one that may be listed. -/
abbrev Memory.wf {α : Type} (listed : Nat → α → Bool) (m : List (Nat × α)) : Prop :=
  (m.map Prod.fst).Pairwise (· < ·) ∧ ∀ p ∈ m, listed p.1 p.2 = true

/-- What may be listed of CBUF: an index below CBUF_LEN whose Color is not what an unlisted index reads as. -/
def listedColor (c : Cfg) (a : Nat) (v : Color) : Bool := a < c.cbufLen && v != .black

/-- What may be listed of SCR: a byte below SCRATCH_BYTES. What an unlisted byte reads as is a free value, so every
byte written since reset is listed, whatever its value (log entry 2). -/
def listedByte (c : Cfg) (a : Nat) (_ : Byte) : Bool := a < c.scratchBytes

/-- What may be listed of LVL: a driven line (10_state.md R27). -/
def listedLevel (c : Cfg) (id : Nat) (_ : Bool) : Bool := c.driven id

/-- `MemRead(CBUF, i, 1)` (20_memory.md R61): an unlisted entry is (0, 0, 0), its reset value. -/
def State.readColor (i : Nat) (s : State) : Color := (Memory.find i s.cbuf).getD .black

/-- The colour buffer with entry `i` replaced (20_memory.md R61): (0, 0, 0) is written by removing the entry. -/
def putColor (i : Nat) (c : Color) (m : List (Nat × Color)) : List (Nat × Color) :=
  if c = .black then Memory.erase i m else Memory.insert i c m

/-- `MemWrite(CBUF, i, 1, c)` (20_memory.md R61). -/
def State.writeColor (i : Nat) (c : Color) (s : State) : State := { s with cbuf := putColor i c s.cbuf }

/-- The first `n` entries of the colour buffer replaced by `c`. -/
def putColors (c : Color) : Nat → List (Nat × Color) → List (Nat × Color)
  | 0, m => m
  | n + 1, m => putColor n c (putColors c n m)

/-- CBUF[i] <- c for every i below CBUF_LEN (42_logical_strip.md R161). -/
def State.fillColors (c : Color) (s : State) : State := { s with cbuf := putColors c s.cfg.cbufLen s.cbuf }

/-- `MemRead(SCR, a, 1)` (20_memory.md R61): a byte not written since reset is a free value, stable until written
(10_state.md R25). -/
def State.readByte (a : Nat) (s : State) : Byte := (Memory.find a s.scr).getD (Config.freeScratch s.draws a)

/-- The first `n` bytes of the scratch buffer. -/
def State.readBytes (n : Nat) (s : State) : List Byte := (List.range n).map fun a => s.readByte a

/-- Bytes put into a memory from index `a` on. -/
def putBytes (a : Nat) : List Byte → List Host.Cell → List Host.Cell
  | [], m => m
  | b :: bs, m => putBytes (a + 1) bs (Memory.insert a b m)

/-- SCR[b] <- out[b] for every byte of `out` (41_physical_strip.md R143). -/
def State.writeBytes (out : List Byte) (s : State) : State := { s with scr := putBytes 0 out s.scr }

/-! ## Events and output lines -/

/-- emit(e) (10_state.md R44). -/
def State.emit (e : Event) (s : State) : State := { s with wire := s.wire ++ [e] }

/-- The level of line `id`'s latch; none for a line that has no latch. No operation reads it (10_state.md R27). -/
def State.level (id : Nat) (s : State) : Option Bool := Memory.find id s.lvl

/-- `raise Fatal(code)`, one atomic step (60_exceptions.md R188): FAULT written, the event emitted, BUSY cleared. UPC,
the buffers, the timer and the lines stay. -/
def State.fatal (code : FaultCode) (s : State) : State :=
  { s with fault := code, busy := false, wire := s.wire ++ [.fatal code] }

/-- SETL (level false) and SETH (level true) of line `id` (40_timer_pin_surface.md R123 to R125): an id outside the set
is F_ILLEGAL, a sink swallows the write, a driven line's latch is written and the event emitted even when the level does
not change. -/
def State.setLine (id : Nat) (level : Bool) (s : State) : State :=
  match s.cfg.lines[id]? with
  | none => s.fatal .illegal
  | some .sink => s
  | some .driven => { s with lvl := Memory.insert id level s.lvl, wire := s.wire ++ [.set id level] }

/-! ## Time -/

/-- How many of `n` time units the timer agent really gets (40_timer_pin_surface.md R133). -/
def grantedUnits (unitsLeft : Option Nat) (n : Nat) : Nat :=
  match unitsLeft with
  | none => n
  | some b => min n b

/-- `n` time units pass: the timer agent steps while T_EN is 1 (40_timer_pin_surface.md R120), and nothing else
happens. -/
def State.pass (n : Nat) (s : State) : State :=
  { s with
    timer := s.timer.advance (grantedUnits s.unitsLeft n),
    unitsLeft := s.unitsLeft.map fun b => b - grantedUnits s.unitsLeft n }

/-- The slot before the next micro-operation (log entry 8). -/
def State.nextSlot (s : State) : Slot := s.pace.headD (.run 0)

/-- The time units of a slot. -/
def Slot.units : Slot → Nat
  | .run n => n
  | .pause n => n

/-- The step ends with this slot, in the middle of the command. -/
def Slot.isPause : Slot → Bool
  | .run _ => false
  | .pause _ => true

/-- The next slot is taken and its time units pass. -/
def State.takeSlot (s : State) : State := State.pass s.nextSlot.units { s with pace := s.pace.tail }

/-- How many more time units a WAIT needs before it completes (40_timer_pin_surface.md R122): none at all when T_MATCH
is 1; the steps to the next match when the timer counts and gets them; no number of units when it never matches. -/
def State.waitUnits (s : State) : Option Nat :=
  if s.timer.matched then some 0
  else if s.timer.en then
    match s.unitsLeft with
    | none => some s.timer.stepsToMatch
    | some b => if s.timer.stepsToMatch ≤ b then some s.timer.stepsToMatch else none
  else none

/-- A WAIT that never completes (60_exceptions.md R185): the timer agent takes the steps it still has, and nothing else
happens. -/
def State.hang (s : State) : State :=
  if s.timer.en then s.pass (s.unitsLeft.getD 0) else s

/-! ## Acceptance and completion of a command -/

/-- Acceptance (30_encoding.md R90): CMD <- word, BUSY <- 1, UPC <- 0. A command already in flight keeps its UPC. -/
def State.accept (w : CommandWord) (s : State) : State :=
  if s.busy then s else { s with cmd := w, busy := true, upc := 0 }

/-- Completion (10_state.md R32): BUSY <- 0, UPC <- 0. -/
def State.complete (s : State) : State := { s with busy := false, upc := 0 }

/-- Runs `body` on the state in which command `i` is accepted, or in which it is already in flight; refuses where the
engine accepts no command (30_encoding.md R90, 60_exceptions.md R188, 93_implementation_defined.md U13). -/
def issue (i : Instr) (s : State) (body : State → Host.Outcome State Fault Refusal) :
    Host.Outcome State Fault Refusal :=
  if s.fault ≠ .noFault then .refused .halted
  else if s.busy = true ∧ s.cmd ≠ encode i then .refused .busyWithAnotherCommand
  else body (s.accept (encode i))

end Sys2Proof.Machine
end

