-- ==== Sys2Proof/Machine/Operands.lean ====
section
/-!
DEFINITION. How the operations form their operands (20_memory.md R84): the slice of a strip, forward or reversed
(41_physical_strip.md R143), the permuted byte triples (R141), and the bits of a byte list (R144).
-/

namespace Sys2Proof.Machine

/-- The three wire bytes of a Color: red at offset `ro`, green at `go`, blue at `bo` (20_memory.md R63). -/
def wireBytes (o : ChannelOrder) (c : Color) : List Byte :=
  (List.range 3).map fun p => if p = o.red then c.r else if p = o.green then c.g else c.b

/-- `encode(order, seq)` (41_physical_strip.md R141). -/
def encodeColors (o : ChannelOrder) (seq : List Color) : List Byte := seq.flatMap (wireBytes o)

/-- The bits of a byte, most significant first (20_memory.md R64). -/
def byteBits (b : Byte) : List Bool := (List.range 8).map fun i => b.getLsbD (7 - i)

/-- `bits(bytes)` (41_physical_strip.md R144). -/
def bitsOf (bytes : List Byte) : List Bool := bytes.flatMap byteBits

/-- The slice CBUF[off .. off + n) (20_memory.md R72). -/
def State.slice (off n : Nat) (s : State) : List Color := (List.range n).map fun i => s.readColor (off + i)

/-- The Colors of a slice in transmission order (41_physical_strip.md R143). -/
def State.transmissionOrder (off n : Nat) (dir : Direction) (s : State) : List Color :=
  match dir with
  | .forward => s.slice off n
  | .reverse => (s.slice off n).reverse

/-- The bytes ENC makes of strip `d`'s slice that starts at `off` (41_physical_strip.md R143). A strip with a reserved
order code has none: ENC and TXALL stop before they reach it (log entry 14). -/
def State.encodedBytes (off : Nat) (d : Strip) (dir : Direction) (s : State) : List Byte :=
  match d.channelOrder with
  | none => []
  | some o => encodeColors o (s.transmissionOrder off d.leds dir)

/-- Runs `body` unless one of the strips cannot be encoded at all (log entry 14): an access outside CBUF faults, a
reserved order code is refused. Neither happens under WF (W2, W4). DESIGN CHOICE, log entry 14: TXALL passes all its strips and
so stops before its first micro-operation, also where an earlier strip would have been sent or would have ended fatally. -/
def whenEncodable (ks : List Nat) (c : Cfg) (body : Host.Outcome State Fault Refusal) :
    Host.Outcome State Fault Refusal :=
  if ks.all (Cfg.sliceExists c) then
    if ks.all (Cfg.orderExists c) then body else .refused .reservedChannelOrder
  else .fault .outsideColourBuffer

end Sys2Proof.Machine
end

