-- ==== Sys2Proof/Machine/Sequencer.lean ====
section
/-!
DEFINITION. The sequencer (00_scope.md R6): the micro-operations, the expansion of every command into them (10_state.md
R32), and the one loop that performs them in order, taking the timer agent's steps in between from the state
(40_timer_pin_surface.md R120, R122, R133).
-/

namespace Sys2Proof.Machine

/-- A micro-operation (40_timer_pin_surface.md R127, 41_physical_strip.md R143, R147, 42_logical_strip.md R160, R161,
R165). -/
inductive Micro where
  | arm (period : Word32)
  | wait
  | setl (id : Nat)
  | seth (id : Nat)
  | encode (strip : Nat) (dir : Direction)
  | setColor (idx : Nat) (color : Color)
  | fillAll (color : Color)
  deriving DecidableEq, Repr

/-! ## Expansions -/

/-- The micro-operations of one bit (41_physical_strip.md R147): high for two ticks and low for one, or high for one and
low for two. -/
def cell (ln : Nat) (bit : Bool) : List Micro :=
  if bit then [.seth ln, .wait, .wait, .setl ln, .wait] else [.seth ln, .wait, .setl ln, .wait, .wait]

/-- `tx_expand(ln, bs)` (41_physical_strip.md R147). -/
def txExpand (c : Cfg) (ln : Nat) (bs : List Bool) : List Micro :=
  [.arm c.tick, .setl ln] ++ List.replicate c.resetTicks .wait ++ bs.flatMap (cell ln)

/-- The micro-operations of TX for strip `d`: its frame of the first 3 × led_count bytes of SCR (41_physical_strip.md
R148). -/
def txProgram (d : Strip) (s : State) : List Micro :=
  txExpand s.cfg d.lineId (bitsOf (s.readBytes (3 * d.leds)))

/-- The micro-operations of TXALL for the strips from number `k` on, the first of which starts at offset `off`
(42_logical_strip.md R162, R164, R165), CBUF read as it is now. -/
def txallProgram (s : State) (k off : Nat) : List Strip → List Micro
  | [] => []
  | d :: ds =>
    .encode k d.direction :: txExpand s.cfg d.lineId (bitsOf (s.encodedBytes off d d.direction)) ++
      txallProgram s (k + 1) (off + d.leds) ds

/-- `expand(CMD)` (10_state.md R32) of an accepted command in state `s`; empty for a TX of a strip that does not exist,
which ends fatally before its first micro-operation. -/
def expand (i : Instr) (s : State) : List Micro :=
  match i with
  | .arm period => [.arm period]
  | .wait => [.wait]
  | .setl id => [.setl id.toNat]
  | .seth id => [.seth id.toNat]
  | .enc strip dir => [.encode strip.toNat dir]
  | .tx strip => match s.cfg.strips[strip.toNat]? with
    | none => []
    | some d => txProgram d s
  | .setc idx color => [.setColor idx.toNat color]
  | .fill color => [.fillAll color]
  | .txall => txallProgram s 0 0 s.cfg.strips

/-! ## Phases of a transmit -/

/-- The phases of a transmit (10_state.md R34). -/
inductive Phase where
  | arm
  | resetLow
  | resetWait
  | bitHigh (bit : Nat)
  | highWait (bit : Nat)
  | bitLow (bit : Nat)
  | lowWait (bit : Nat)
  deriving DecidableEq, Repr

/-- The bit whose cell holds position `pos` of a transmit; 0 in the phases before the first cell (10_state.md R29, R34, log
entry 15). -/
def bitAt (c : Cfg) (pos : Nat) : Nat := (pos - (2 + c.resetTicks)) / 5

/-- The phase of the micro-operation at position `pos` of a transmit of bits `bs` (10_state.md R34). -/
def phaseAt (c : Cfg) (bs : List Bool) (pos : Nat) : Option Phase :=
  if pos = 0 then some .arm
  else if pos = 1 then some .resetLow
  else if pos < 2 + c.resetTicks then some .resetWait
  else
    match bs[bitAt c pos]? with
    | none => none
    | some bit =>
      let q := (pos - (2 + c.resetTicks)) % 5
      let high := if bit then 2 else 1
      if q = 0 then some (.bitHigh (bitAt c pos))
      else if q ≤ high then some (.highWait (bitAt c pos))
      else if q = high + 1 then some (.bitLow (bitAt c pos))
      else some (.lowWait (bitAt c pos))

/-- The micro-operation of a phase (10_state.md R34). -/
def Phase.micro (c : Cfg) (ln : Nat) : Phase → Micro
  | .arm => .arm c.tick
  | .resetLow => .setl ln
  | .resetWait => .wait
  | .bitHigh _ => .seth ln
  | .highWait _ => .wait
  | .bitLow _ => .setl ln
  | .lowWait _ => .wait

/-- The bit of position `pos` of a TXALL within its strip, 0 at the strip's ENCODE: each strip takes 3 + RESET_TICKS + 120 ×
led_count positions (42_logical_strip.md R165, log entry 15). -/
def txallBitAt (c : Cfg) (pos : Nat) : List Strip → Nat
  | [] => 0
  | d :: ds =>
    if pos < 3 + c.resetTicks + 120 * d.leds then bitAt c (pos - 1)
    else txallBitAt c (pos - (3 + c.resetTicks + 120 * d.leds)) ds

/-- The number of WAITs before the next line write (10_state.md R30). -/
def leadingWaits : List Micro → Nat
  | .wait :: ms => leadingWaits ms + 1
  | _ => 0

/-- J and TC of a transmit when a micro-operation is done, UPC has advanced and `rest` is still to come from UPC on (10_state.md
R29, R30). DESIGN CHOICE, log entry 15: J is the bit of the micro-operation at UPC, 0 before a strip's first cell, so that it goes
on to the next bit together with UPC; with nothing still to come it stays at the last bit; and since only a micro-operation that
is done moves them, J and TC keep their old values from the issue until the first one is done. The other commands leave both. -/
def State.trackTransmit (i : Instr) (rest : List Micro) (s : State) : State :=
  match i with
  | .tx _ => { s with
      j := if rest.isEmpty then s.j else BitVec.ofNat 37 (bitAt s.cfg s.upc), tc := leadingWaits rest }
  | .txall => { s with
      j := if rest.isEmpty then s.j else BitVec.ofNat 37 (txallBitAt s.cfg s.upc s.cfg.strips), tc := leadingWaits rest }
  | .arm _ | .wait | .setl _ | .seth _ | .enc _ _ | .setc _ _ | .fill _ => s

/-! ## Micro-operations -/

/-- K <- k ; N <- STRIP[k].led_count (41_physical_strip.md R148). -/
def State.selectStrip (k : Nat) (d : Strip) (s : State) : State :=
  { s with k := BitVec.ofNat 32 k, n := BitVec.ofNat 32 d.leds }

/-- ARM(period) (40_timer_pin_surface.md R121). -/
def State.armTimer (period : Word32) (s : State) : State :=
  if period = 0#32 then s.fatal .illegal
  else { s with timer := Timer.armed period, wire := s.wire ++ [.arm period] }

/-- The completing step of WAIT (40_timer_pin_surface.md R122): the match is consumed, test and clear one step
(20_memory.md R79). -/
def State.consumeMatch (s : State) : State :=
  { s with timer := s.timer.consume, wire := s.wire ++ [.tick] }

/-- ENCODE(k, dir) (41_physical_strip.md R143). DESIGN CHOICE, log entry 15: I ends at the last LED position; and between two
strips of a TXALL, where `OFF <- OFF + led_count` of 42_logical_strip.md R165 is no micro-operation of the expansion, OFF advances
together with K in the next strip's ENCODE, so that a pause before it still shows OFF = START[K] of the strip just sent. -/
def State.encodeStrip (k : Nat) (dir : Direction) (s : State) : State :=
  match s.cfg.strips[k]? with
  | none => s.fatal .illegal
  | some d =>
    let chosen : State := { s.selectStrip k d with off := BitVec.ofNat 32 (s.cfg.start k), dir := dir }
    if s.cfg.scratchBytes < 3 * d.leds then chosen.fatal .config
    else
      State.writeBytes (s.encodedBytes (s.cfg.start k) d dir)
        { chosen with i := if d.leds = 0 then s.i else BitVec.ofNat 32 (d.leds - 1) }

/-- SETCOLOR(idx, c) (42_logical_strip.md R160). -/
def State.setColor (idx : Nat) (c : Color) (s : State) : State :=
  if s.cfg.totalLeds ≤ idx then s.fatal .index else s.writeColor idx c

/-- The effect of one micro-operation, its fatal errors included; UPC is the loop's. -/
def Micro.perform (m : Micro) (s : State) : State :=
  match m with
  | .arm period => s.armTimer period
  | .wait => s.consumeMatch
  | .setl id => s.setLine id false
  | .seth id => s.setLine id true
  | .encode strip dir => s.encodeStrip strip dir
  | .setColor idx color => s.setColor idx color
  | .fillAll color => s.fillColors color

/-- The state in which a micro-operation is enabled: at once, but for a WAIT, which is enabled when the match comes, if
it comes (40_timer_pin_surface.md R122). -/
def Micro.enabledState (m : Micro) (s : State) : Option State :=
  match m with
  | .wait => s.waitUnits.map fun n => s.pass n
  | .arm _ | .setl _ | .seth _ | .encode _ _ | .setColor _ _ | .fillAll _ => some s

/-! ## The loop -/

/-- What a completed command leaves in OFF: TXALL has advanced it past the last strip (42_logical_strip.md R165). -/
def State.finish (i : Instr) (s : State) : State :=
  match i with
  | .txall => { s.complete with off := BitVec.ofNat 32 s.cfg.totalLeds }
  | .arm _ | .wait | .setl _ | .seth _ | .enc _ _ | .tx _ | .setc _ _ | .fill _ => s.complete

/-- The sequencer performs the micro-operations still to come of command `i`, in order (10_state.md R33), until the
command completes, ends fatally (60_exceptions.md R188), holds at a WAIT whose match never comes (R185) or is left in
the middle by a pausing slot (log entry 8). DESIGN CHOICE, log entry 15: J and TC first change when a micro-operation is done, so
that an accepted TX or TXALL paused at UPC = 0 still shows their old values. -/
def drive (i : Instr) : List Micro → State → State
  | [], s => s.finish i
  | m :: rest, s =>
    if s.nextSlot.isPause then s.takeSlot
    else
      match m.enabledState s.takeSlot with
      | none => s.takeSlot.hang
      | some s1 =>
        if (m.perform s1).fault = .noFault then
          drive i rest (State.trackTransmit i rest { m.perform s1 with upc := s1.upc + 1 })
        else m.perform s1

/-- Carries out command `i`, whose expansion is `ops`, from UPC on. -/
def carryOut (i : Instr) (ops : List Micro) (s : State) : Host.Outcome State Fault Refusal :=
  .next (drive i (ops.drop s.upc) s)

end Sys2Proof.Machine
end

