-- ==== Sys2Proof/Machine/LogicalStrip.lean ====
section
/-!
DEFINITION. The meanings of SETC, FILL and TXALL (42_logical_strip.md R160, R161, R165).
-/

namespace Sys2Proof.Machine

/-- SETC (42_logical_strip.md R160). An index inside TOTAL_LEDS but outside CBUF exists only when W2 fails (20_memory.md
R61, log entry 14). -/
def execSetc (idx : Word32) (color : Color) (s : State) : Host.Outcome State Fault Refusal :=
  issue (.setc idx color) s fun s =>
    if idx.toNat < s.cfg.totalLeds ∧ s.cfg.cbufLen ≤ idx.toNat then .fault .outsideColourBuffer
    else carryOut (.setc idx color) [.setColor idx.toNat color] s

/-- FILL (42_logical_strip.md R161). -/
def execFill (color : Color) (s : State) : Host.Outcome State Fault Refusal :=
  issue (.fill color) s fun s => carryOut (.fill color) [.fillAll color] s

/-- TXALL (42_logical_strip.md R165): OFF starts at 0. -/
def execTxall (s : State) : Host.Outcome State Fault Refusal :=
  issue .txall s fun s =>
    whenEncodable (List.range s.cfg.nStrips) s.cfg
      (carryOut .txall (txallProgram s 0 0 s.cfg.strips) (if s.upc = 0 then { s with off := 0#32 } else s))

end Sys2Proof.Machine
end

