-- ==== Sys2Proof/Machine/PhysicalStrip.lean ====
section
/-!
DEFINITION. The meanings of ENC and TX (41_physical_strip.md R143, R148).
-/

namespace Sys2Proof.Machine

/-- ENC (41_physical_strip.md R143). -/
def execEnc (strip : Word32) (dir : Direction) (s : State) : Host.Outcome State Fault Refusal :=
  issue (.enc strip dir) s fun s =>
    whenEncodable [strip.toNat] s.cfg (carryOut (.enc strip dir) [.encode strip.toNat dir] s)

/-- TX (41_physical_strip.md R148): both fatal checks stand before the ARM; `reversed` and the order are not read. -/
def execTx (strip : Word32) (s : State) : Host.Outcome State Fault Refusal :=
  issue (.tx strip) s fun s =>
    match s.cfg.strips[strip.toNat]? with
    | none => .next (s.fatal .illegal)
    | some d =>
      if s.cfg.scratchBytes < 3 * d.leds then .next ((s.selectStrip strip.toNat d).fatal .config)
      else carryOut (.tx strip) (txProgram d s) (if s.upc = 0 then s.selectStrip strip.toNat d else s)

end Sys2Proof.Machine
end

