-- ==== Sys2Proof/Machine/TimerPin.lean ====
section
/-!
DEFINITION. The meanings of ARM, WAIT, SETL and SETH as host commands (40_timer_pin_surface.md R121 to R125, R127): each
expands to itself alone.
-/

namespace Sys2Proof.Machine

/-- ARM (40_timer_pin_surface.md R121). -/
def execArm (period : Word32) (s : State) : Host.Outcome State Fault Refusal :=
  issue (.arm period) s fun s => carryOut (.arm period) [.arm period] s

/-- WAIT (40_timer_pin_surface.md R122). -/
def execWait (s : State) : Host.Outcome State Fault Refusal :=
  issue .wait s fun s => carryOut .wait [.wait] s

/-- SETL (40_timer_pin_surface.md R123). -/
def execSetl (id : Word32) (s : State) : Host.Outcome State Fault Refusal :=
  issue (.setl id) s fun s => carryOut (.setl id) [.setl id.toNat] s

/-- SETH (40_timer_pin_surface.md R124). -/
def execSeth (id : Word32) (s : State) : Host.Outcome State Fault Refusal :=
  issue (.seth id) s fun s => carryOut (.seth id) [.seth id.toNat] s

end Sys2Proof.Machine
end

