-- ==== Sys2Proof/Machine/Dispatch.lean ====
section
/-!
DEFINITION. One arm per constructor of `Instr`, each one direct call of its meaning.
-/

namespace Sys2Proof.Machine

def exec (i : Instr) (s : State) : Host.Outcome State Fault Refusal :=
  match i with
  | .arm period => Sys2Proof.Machine.execArm period s
  | .wait => Sys2Proof.Machine.execWait s
  | .setl id => Sys2Proof.Machine.execSetl id s
  | .seth id => Sys2Proof.Machine.execSeth id s
  | .enc strip dir => Sys2Proof.Machine.execEnc strip dir s
  | .tx strip => Sys2Proof.Machine.execTx strip s
  | .setc idx color => Sys2Proof.Machine.execSetc idx color s
  | .fill color => Sys2Proof.Machine.execFill color s
  | .txall => Sys2Proof.Machine.execTxall s

end Sys2Proof.Machine
end

