-- ==== Sys2Proof/Machine/Environment.lean ====
section
/-!
DEFINITION. The moves of the outside world (70_reset_and_hazards.md R224) as operations of their own, which the step
only calls: reset (R210 to R217), the other timer user (40_timer_pin_surface.md R132), the passing of time, and a word
that decodes to no operation (30_encoding.md R96, R97).
-/

namespace Sys2Proof.Machine

/-- Reset (70_reset_and_hazards.md R210): the state of rules R211 to R215 with a new drawing of the free values; the
configuration stays (R215), and so does what the outside world has still planned. -/
def State.resetNow (s : State) : State :=
  { State.powerUp s.cfg (s.draws + 1) with agenda := s.agenda, pace := s.pace, unitsLeft := s.unitsLeft }

/-- The other timer user replaces the five timer registers, and nothing else (40_timer_pin_surface.md R132). -/
def State.otherTimerUser (t : Timer) (s : State) : State := { s with timer := t }

/-- A word that selects no operation (30_encoding.md R96, R97, 60_exceptions.md R183): it is accepted, and decoding it
is fatal. -/
def State.illegalCommand (w : CommandWord) (s : State) : State := (s.accept w).fatal .illegal

/-- The next state of the outside world's plan: its first move is made. -/
def State.dropMove (s : State) : State := { s with agenda := s.agenda.tail }

/-- The next move is a reset, which may come at any moment (70_reset_and_hazards.md R210). -/
def State.resetDue (s : State) : Bool := s.agenda.head? == some .reset

end Sys2Proof.Machine
end

