-- ==== Sys2Proof/Machine/Fetch.lean ====
section
/-!
DEFINITION. From a command word to the instruction it runs (30_encoding.md R90, R108).
-/

namespace Sys2Proof.Machine

/-- Decodes a command word and runs the instruction it stands for (30_encoding.md R90, R108). -/
def runWord (w : CommandWord) (s : State) : Host.Outcome State Fault Refusal :=
  match decode w with
  | .ok i => exec i s
  | .error _ => if s.fault = .noFault then .next (s.illegalCommand w) else .refused .halted

end Sys2Proof.Machine
end

