-- ==== Sys2Proof/Machine/Step.lean ====
section
/-!
DEFINITION. One step of the machine: a reset that is due; else the running command goes on; else the outside world's next
move, of which the issue of a command word is the one that runs an instruction (log entries 10 to 12).
-/

namespace Sys2Proof.Machine

/-- One step. With BUSY = 1 no other agent but reset has a move (10_state.md R40), and the command in CMD goes on from
UPC; with BUSY = 0 and nothing planned the engine waits for the host (70_reset_and_hazards.md R216). -/
def step (s : State) : Host.Outcome State Fault Refusal :=
  if s.resetDue then .next s.dropMove.resetNow
  else if s.busy then runWord s.cmd s
  else
    match s.agenda with
    | [] => .next s
    | .reset :: _ => .next s.dropMove.resetNow
    | .command w :: _ => runWord w s.dropMove
    | .otherTimer t :: _ => .next (s.dropMove.otherTimerUser t)
    | .time n :: _ => .next (s.dropMove.pass n)

/-- `s` with the word `w` as the host's very next move, in a machine that accepts it (30_encoding.md R90): nothing in
flight, no fatal error. The engine fetches no stored program (70_reset_and_hazards.md R216, log entry 11). -/
def State.withFetchWord (s : State) (nbits w : Nat) : State :=
  { s with
    agenda := .command (BitVec.ofNat 64 (w % 2 ^ nbits)) :: s.agenda, busy := false, upc := 0, fault := .noFault }

end Sys2Proof.Machine
end

