-- ==== Sys2Proof/Machine/Wire.lean ====
section
/-!
DEFINITION. How a claim reads WIRE (10_state.md R44, R45): the waveform of a line in ticks, and the events and levels
that 30_encoding.md R105 to R107 and 41_physical_strip.md R149, R150 say a transmit puts there. Nothing here is used by
a meaning.
-/

namespace Sys2Proof.Machine

/-- `wave(id, l0, s)` (10_state.md R45): one level per EvTick, the level of the line during the period the tick ends. -/
def wave (id : Nat) : Bool → List Event → List Bool
  | _, [] => []
  | l, .set ln level :: es => wave id (if ln = id then level else l) es
  | l, .tick :: es => l :: wave id l es
  | l, .arm _ :: es => wave id l es
  | l, .fatal _ :: es => wave id l es

/-- The level of a line after a segment of WIRE. -/
def levelAfter (id : Nat) : Bool → List Event → Bool
  | l, [] => l
  | l, .set ln level :: es => levelAfter id (if ln = id then level else l) es
  | l, .tick :: es => levelAfter id l es
  | l, .arm _ :: es => levelAfter id l es
  | l, .fatal _ :: es => levelAfter id l es

/-- The EvSet of a line write: none for a sink (40_timer_pin_surface.md R125). -/
def setEvents (c : Cfg) (ln : Nat) (level : Bool) : List Event := if c.driven ln then [.set ln level] else []

/-- The events of one bit (30_encoding.md R105). -/
def cellEvents (c : Cfg) (ln : Nat) (bit : Bool) : List Event :=
  setEvents c ln true ++ List.replicate (if bit then 2 else 1) .tick ++
    setEvents c ln false ++ List.replicate (if bit then 1 else 2) .tick

/-- The events of the frame of one strip (30_encoding.md R106): the arm, the reset/latch pulse, one cell per bit. -/
def frameEvents (c : Cfg) (ln : Nat) (bs : List Bool) : List Event :=
  .arm c.tick :: setEvents c ln false ++ List.replicate c.resetTicks .tick ++ bs.flatMap (cellEvents c ln)

/-- The levels of one bit cell (30_encoding.md R105): `HHL` for 1, `HLL` for 0. -/
def cellLevels (bit : Bool) : List Bool := if bit then [true, true, false] else [true, false, false]

/-- The levels of the frame of one strip, in ticks (30_encoding.md R106, 41_physical_strip.md R150). -/
def frameLevels (c : Cfg) (bs : List Bool) : List Bool :=
  List.replicate c.resetTicks false ++ bs.flatMap cellLevels

/-- The bits of the frame TXALL sends for strip `d`, whose slice starts at `off` (42_logical_strip.md R165). -/
def State.stripBits (s : State) (off : Nat) (d : Strip) : List Bool := bitsOf (s.encodedBytes off d d.direction)

/-- The events of the frames of the strips from offset `off` on, one after the other (30_encoding.md R107,
42_logical_strip.md R168). -/
def txallEvents (s : State) (off : Nat) : List Strip → List Event
  | [] => []
  | d :: ds => frameEvents s.cfg d.lineId (s.stripBits off d) ++ txallEvents s (off + d.leds) ds

/-- The ticks of one frame: RESET_TICKS + 72 × led_count (70_reset_and_hazards.md R232). -/
def frameTicks (c : Cfg) (leds : Nat) : Nat := c.resetTicks + 72 * leds

/-- The ticks of a whole TXALL (30_encoding.md R107). -/
def txallTicks (c : Cfg) : Nat := (c.strips.map fun d => frameTicks c d.leds).sum

end Sys2Proof.Machine
end

