-- ==== Sys2Proof/WellFormed.lean ====
section
/-!
DEFINITION. When an instruction is well formed FOR A CONFIGURATION: its operands lie in the ranges the operations'
own rules check (30_encoding.md R94). That an operand fits its field of the command word is in the types of `Instr`.
No meaning uses this predicate: each makes its own check and raises the fatal error the spec names. It is the premise
under which a command ends normally. The well-formedness of a configuration itself is `Cfg.wf`, in
Machine/Configuration.lean.
-/

namespace Sys2Proof

/-- The operands of an instruction are in range for a configuration: period at least 1 (40_timer_pin_surface.md R121),
a line id below N_LINES (R123, R124), a strip number below N_STRIPS (41_physical_strip.md R143, R148), a global index
below TOTAL_LEDS (42_logical_strip.md R160). -/
def Instr.WellFormed (c : Cfg) : Instr → Bool
  | .arm period => 1 ≤ period.toNat
  | .wait => true
  | .setl id => id.toNat < c.nLines
  | .seth id => id.toNat < c.nLines
  | .enc strip _ => strip.toNat < c.nStrips
  | .tx strip => strip.toNat < c.nStrips
  | .setc idx _ => idx.toNat < c.totalLeds
  | .fill _ => true
  | .txall => true

end Sys2Proof
end

