-- ==== Sys2Proof/Safety.lean ====
section
/-!
DEFINITION. What counts as a good run, and the premises and invariants that claims use.
-/

namespace Sys2Proof.Machine

/-- TIMER_LIVE (40_timer_pin_surface.md R133): the timer agent is never short of time units. -/
def State.timerLive (s : State) : Bool := s.unitsLeft.isNone

/-- No slot ends a step in the middle of a command (log entry 8). -/
def State.unpaused (s : State) : Bool := s.pace.all fun x => !x.isPause

/-- The time units before each micro-operation still to come, `acc` of them passed already: a pausing slot performs none, so its
units count before the same micro-operation as the slot after it (log entry 8). -/
def unitsBeforeEach (acc : Nat) : List Slot → List Nat
  | [] => [acc]
  | .run n :: xs => (acc + n) :: unitsBeforeEach 0 xs
  | .pause n :: xs => unitsBeforeEach (acc + n) xs

/-- KEEPS_UP (70_reset_and_hazards.md R226) of micro-operations with the time units before each, `acc` units after the last WAIT
or ARM: strictly less than one tick passes from the completion of a WAIT, or from the ARM, to the moment the next WAIT begins to
poll. -/
def keepsUpFrom (tick acc : Nat) : List Micro → List Nat → Bool
  | [], _ => true
  | m :: ms, us =>
    let now := acc + us.headD 0
    match m with
    | .wait => now < tick && keepsUpFrom tick 0 ms us.tail
    | .arm _ => keepsUpFrom tick 0 ms us.tail
    | .setl _ | .seth _ | .encode _ _ | .setColor _ _ | .fillAll _ => keepsUpFrom tick now ms us.tail

/-- KEEPS_UP of a command that is about to be issued (70_reset_and_hazards.md R226). -/
def State.keepsUp (i : Instr) (s : State) : Bool :=
  keepsUpFrom s.cfg.tick.toNat 0 (expand i s) (unitsBeforeEach 0 s.pace)

/-- The physical premise that no rule of the engine reads (70_reset_and_hazards.md R231 (a)): the reset pulse lasts at
least the chipset's minimum. -/
def latchPremise (c : Cfg) : Prop := c.latchMin ≤ c.resetTicks * c.tick.toNat

/-- No command word is still to be issued. -/
def noCommandPlanned (ms : List Move) : Bool :=
  ms.all fun m => match m with
    | .command _ => false
    | .otherTimer _ | .time _ | .reset => true

/-- The run has ended well (70_reset_and_hazards.md R225). -/
def State.endedWell (s : State) : Bool := noCommandPlanned s.agenda && !s.busy && s.fault == .noFault

/-- The run has ended badly (70_reset_and_hazards.md R225). -/
def State.endedBadly (s : State) : Bool := s.fault != .noFault

/-- Command `i` goes on from an outcome as long as it is in flight and `fuel` lasts. -/
def goOn (i : Instr) : Nat → Host.Outcome State Fault Refusal → Host.Outcome State Fault Refusal
  | fuel + 1, .next t => if t.busy then goOn i fuel (exec i t) else .next t
  | _, o => o

/-- Command `i` is issued and goes on over its pauses until BUSY = 0, or for ever: every pause takes a slot, so a command still in
flight when there were as many turns as slots holds at a WAIT whose match never comes (60_exceptions.md R185). -/
def runCommand (i : Instr) (s : State) : Host.Outcome State Fault Refusal := goOn i s.pace.length (exec i s)

/-- A list of commands, each issued as soon as BUSY = 0 after the one before (70_reset_and_hazards.md R225). A command that ends
fatally ends the run badly, and one that holds for ever keeps it from ending: the run answers that state and issues no more. -/
def runAll : List Instr → State → Host.Outcome State Fault Refusal
  | [], s => .next s
  | c :: cs, s =>
    match runCommand c s with
    | .next t => if t.ready then runAll cs t else .next t
    | .fault r => .fault r
    | .refused r => .refused r

/-- The lines a command may write: the operand of SETL and SETH, the strip's line for TX, every strip's line for TXALL
(10_state.md R27). -/
def linesWritten (c : Cfg) : Instr → List Nat
  | .setl id => [id.toNat]
  | .seth id => [id.toNat]
  | .tx strip => (c.strips[strip.toNat]?).toList.map Strip.lineId
  | .txall => c.strips.map Strip.lineId
  | .arm _ | .wait | .enc _ _ | .setc _ _ | .fill _ => []

/-- The commands TXALL stands for, from strip number `k` on (30_encoding.md R101). -/
def encTxCommands (k : Nat) : List Strip → List Instr
  | [] => []
  | d :: ds => .enc (BitVec.ofNat 32 k) d.direction :: .tx (BitVec.ofNat 32 k) :: encTxCommands (k + 1) ds

/-- The commands FILL stands for (30_encoding.md R101). -/
def setcCommands (color : Color) (n : Nat) : List Instr :=
  (List.range n).map fun a => .setc (BitVec.ofNat 32 a) color

/-- The command in CMD is one, and UPC is a position inside its expansion (10_state.md R32). -/
def State.commandInFlight (s : State) : Bool :=
  match decode s.cmd with
  | .error _ => false
  | .ok i => s.upc < (expand i s).length

/-- What every step keeps. The configuration is well formed or rejected at reset (60_exceptions.md R181); a fatal state
is not busy (R188); an idle engine is at position 0 and a busy one inside its command (10_state.md R32); both memories
and the latches keep their canonical form and stay inside their spaces (20_memory.md R61, 10_state.md R27). -/
structure State.Inv (s : State) : Prop where
  /-- 60_exceptions.md R181, 70_reset_and_hazards.md R215. -/
  cfgChecked : s.cfg.wf = true ∨ s.fault ≠ .noFault
  /-- 60_exceptions.md R188. -/
  fatalIdle : s.fault ≠ .noFault → s.busy = false
  /-- 10_state.md R32. -/
  idleAtZero : s.busy = false → s.fault = .noFault → s.upc = 0
  /-- 10_state.md R32, R40. -/
  busyInside : s.busy = true → s.commandInFlight = true
  /-- 10_state.md R24. -/
  cbufForm : Memory.wf (listedColor s.cfg) s.cbuf
  /-- 10_state.md R25. -/
  scrForm : Memory.wf (listedByte s.cfg) s.scr
  /-- 10_state.md R27. -/
  lvlForm : s.lvl.map Prod.fst = s.cfg.drivenIds

end Sys2Proof.Machine
end

