-- ==== Sys2Proof/Certificates/Slice0/Obligations.lean ====
section
/-!
DEFINITION. The statements for the provers. Each docstring names the rule of spec/ it formalises.

`s.ready` says BUSY = 0 and FAULT = 0. `s.takeSlot` is the state when the time of the next slot has passed: it differs
from `s` only in the timer (by the timer agent's own steps) and in the model's own `pace` and `unitsLeft` (log entries 8
and 9). `s.nextSlot.isPause = false` says that the step is not told to end in the middle of the command.
-/

open Sys2Proof Sys2Proof.Machine

/-! ## Encodings -/

/-- Decoding an encoded instruction gives it back, whatever its operands (30_encoding.md R92, R94, R95). -/
def Obligations.DecodeOfEncodeIsTheInstruction : Prop :=
  ∀ i : Instr, decode (encode i) = .ok i

/-- A word that decodes to an instruction is the one word of that instruction (30_encoding.md R92, R96). -/
def Obligations.EveryLegalWordIsItsEncoding : Prop :=
  ∀ (w : CommandWord) (i : Instr), decode w = .ok i → encode i = w

/-- A word selects a row of the opcode table exactly when it decodes to that row's operation, and it selects at most one
row (30_encoding.md R93, R108). -/
def Obligations.DecoderFollowsTheOpcodeTable : Prop :=
  (∀ (w : CommandWord) (r : Row), r ∈ opcodeTable →
    (r.selects w = true ↔ ∃ i, decode w = .ok i ∧ i.opcode = r.opcode)) ∧
  (∀ (w : CommandWord) (r q : Row), r ∈ opcodeTable → q ∈ opcodeTable →
    r.selects w = true → q.selects w = true → r = q)

/-- What decoding rejects and in which order (30_encoding.md R96, R97, R108): first an OPC outside 0x01 to 0x09, then a
non-zero field that the format of the OPC does not use; nothing else. -/
def Obligations.DecodingRejectsByName : Prop :=
  ∀ w : CommandWord,
    (decode w = .error .unknownOpcode ↔ (opcField w).toNat = 0 ∨ 0x0A ≤ (opcField w).toNat) ∧
    (decode w = .error .reservedField ↔
      ((opcField w).toNat ∈ [0x02, 0x09] ∧ (aField w ≠ 0#32 ∨ bField w ≠ 0#24)) ∨
      ((opcField w).toNat ∈ [0x01, 0x03, 0x04, 0x06] ∧ bField w ≠ 0#24) ∨
      ((opcField w).toNat = 0x05 ∧ 2 ≤ (bField w).toNat) ∨
      ((opcField w).toNat = 0x08 ∧ aField w ≠ 0#32))

/-- A few words written out from the spec's encodings decode to the instructions they stand for (30_encoding.md R92). -/
def Obligations.WrittenOutWordsDecode : Prop :=
  decode 0x0100000005000000#64 = .ok (.arm 5#32) ∧
  decode 0x0500000001000001#64 = .ok (.enc 1#32 .reverse) ∧
  decode 0x0700000001040506#64 = .ok (.setc 1#32 ⟨4#8, 5#8, 6#8⟩) ∧
  decode 0x0900000000000000#64 = .ok .txall

/-- The six channel orders (30_encoding.md R104): the table of codes and offsets, codes 6 and 7 naming none, and the three
offsets of each a permutation of 0, 1, 2. -/
def Obligations.ChannelOrdersArePermutations : Prop :=
  (([0#3, 1#3, 2#3, 3#3, 4#3, 5#3, 6#3, 7#3].map fun code =>
      (ChannelOrder.ofCode code).map fun o => (o.red, o.green, o.blue)) =
    [some (0, 1, 2), some (0, 2, 1), some (1, 0, 2), some (2, 0, 1), some (1, 2, 0), some (2, 1, 0), none, none]) ∧
  ∀ o : ChannelOrder, ChannelOrder.ofCode o.code = some o ∧ [o.red, o.green, o.blue].Perm [0, 1, 2]

/-- The descriptor word (10_state.md R22): its fields lie where the table says, bits 63:44 read as zero, and it
determines the strip. -/
def Obligations.DescriptorWordLayout : Prop :=
  ∀ d : Strip, d.desc.extractLsb' 0 32 = d.ledCount ∧ d.desc.extractLsb' 32 8 = d.line ∧
    d.desc.getLsbD 40 = d.reversed ∧ d.desc.extractLsb' 41 3 = d.order ∧ d.desc.extractLsb' 44 20 = 0#20 ∧
    Strip.ofDesc d.desc = d

/-! ## The step -/

/-- A step runs the decoded command: of a word the host issues to an idle engine (the move is taken off the plan), and of
the word in CMD while BUSY = 1 (30_encoding.md R90, R108, 10_state.md R31). -/
def Obligations.StepRunsTheDecodedCommand : Prop :=
  (∀ (s : State) (w : CommandWord) (ms : List Move) (i : Instr), s.busy = false → s.agenda = .command w :: ms →
    decode w = .ok i → step s = exec i { s with agenda := ms }) ∧
  (∀ (s : State) (i : Instr), s.busy = true → s.resetDue = false → decode s.cmd = .ok i → step s = exec i s)

/-- A word with an OPC outside 0x01 to 0x09 or with a non-zero field that the format of its OPC does not use is fatal
(30_encoding.md R96, R97): FAULT = 3, the event, and nothing else but CMD, BUSY and UPC. -/
def Obligations.IllegalWordIsFatal : Prop :=
  ∀ (s : State) (w : CommandWord) (ms : List Move), s.ready = true → s.agenda = .command w :: ms →
    ((opcField w).toNat = 0 ∨ 0x0A ≤ (opcField w).toNat ∨
      ((opcField w).toNat ∈ [0x02, 0x09] ∧ (aField w ≠ 0#32 ∨ bField w ≠ 0#24)) ∨
      ((opcField w).toNat ∈ [0x01, 0x03, 0x04, 0x06] ∧ bField w ≠ 0#24) ∨
      ((opcField w).toNat = 0x05 ∧ 2 ≤ (bField w).toNat) ∨
      ((opcField w).toNat = 0x08 ∧ aField w ≠ 0#32)) →
    step s = .next { s with
      agenda := ms, cmd := w, upc := 0, busy := false, fault := .illegal, wire := s.wire ++ [.fatal .illegal] }

/-- While FAULT is set no command is accepted: the step on a command word is refused, legal or not (30_encoding.md R90),
and so is a command that is not the one in flight. -/
def Obligations.NoCommandIsAcceptedWhenHaltedOrBusy : Prop :=
  (∀ (s : State) (w : CommandWord) (ms : List Move), s.busy = false → s.fault ≠ .noFault →
    s.agenda = .command w :: ms → step s = .refused .halted) ∧
  (∀ (s : State) (i : Instr), s.fault = .noFault → s.busy = true → s.cmd ≠ encode i →
    exec i s = .refused .busyWithAnotherCommand)

/-- With nothing planned the idle engine waits for the first command word (70_reset_and_hazards.md section 1). That such a step
gives the very same state, with no time passing in the timer, is the model's choice: the outside world's moves and the time between
them are what `agenda` plans (log entries 8 and 11). -/
def Obligations.IdleEngineWaitsForTheHost : Prop :=
  ∀ s : State, s.busy = false → s.agenda = [] → step s = .next s

/-- The other timer user replaces the five timer registers and nothing else, also after a fatal error
(40_timer_pin_surface.md R132). -/
def Obligations.OtherTimerUserTouchesOnlyTheTimer : Prop :=
  ∀ (s : State) (t : Timer) (ms : List Move), s.busy = false → s.agenda = .otherTimer t :: ms →
    step s = .next { s with agenda := ms, timer := t }

/-- Reset at any moment, in the middle of a command as well as in the fatal state (70_reset_and_hazards.md R210 to
R215): CFG stays, CBUF is (0, 0, 0) everywhere, BUSY and UPC are 0, and FAULT and WIRE are clear, or F_CONFIG with its
event when WF fails; every driven line has a latch and no other line has one. -/
def Obligations.ResetLeavesTheStatedValues : Prop :=
  ∀ (s : State) (ms : List Move), s.agenda = .reset :: ms →
    ∃ t, step s = .next t ∧ t.cfg = s.cfg ∧ (∀ a, t.readColor a = ⟨0#8, 0#8, 0#8⟩) ∧ t.busy = false ∧ t.upc = 0 ∧
      (s.cfg.wf = true → t.fault = .noFault ∧ t.wire = []) ∧
      (s.cfg.wf = false → t.fault = .config ∧ t.wire = [.fatal .config]) ∧
      (∀ id, (t.level id).isSome = s.cfg.driven id)

/-- The state after reset meets the invariant. -/
def Obligations.ResetMeetsTheInvariant : Prop := State.reset.Inv

/-- Every step keeps the invariant: the memories keep their canonical form inside their spaces, the latches are those of
the driven lines, an idle engine is at position 0 and a busy one inside the expansion of its command, a fatal engine is
not busy (20_memory.md R61, 10_state.md R27, R32, R40, 60_exceptions.md R188). -/
def Obligations.EveryStepKeepsTheInvariant : Prop :=
  ∀ s t : State, s.Inv → step s = .next t → t.Inv

/-- No step but a reset leaves the fatal state, and until then only the timer can still change, by its own steps or by
the other timer user (60_exceptions.md R188, R189). -/
def Obligations.FatalStateIsFinal : Prop :=
  ∀ s t : State, s.fault ≠ .noFault → s.resetDue = false → step s = .next t →
    t = { s with agenda := t.agenda, timer := t.timer, unitsLeft := t.unitsLeft }

/-- No step writes the configuration (10_state.md R21). -/
def Obligations.NoStepWritesTheConfiguration : Prop :=
  ∀ s t : State, step s = .next t → t.cfg = s.cfg

/-- Only SETC and FILL write the colour buffer (10_state.md R24). -/
def Obligations.OnlySetcAndFillWriteTheColourBuffer : Prop :=
  ∀ (i : Instr) (s t : State), i.opcode ≠ .setc → i.opcode ≠ .fill → exec i s = .next t → t.cbuf = s.cbuf

/-- Only ENC and TXALL write the scratch buffer (20_memory.md R60). -/
def Obligations.OnlyEncAndTxallWriteTheScratchBuffer : Prop :=
  ∀ (i : Instr) (s t : State), i.opcode ≠ .enc → i.opcode ≠ .txall → exec i s = .next t → t.scr = s.scr

/-- A command writes no latch but those of the lines it names: SETL and SETH their operand, TX its strip's line, TXALL
the strips' lines (10_state.md R27, 41_physical_strip.md R150, 42_logical_strip.md R168). -/
def Obligations.CommandsLeaveEveryOtherLine : Prop :=
  ∀ (i : Instr) (s t : State) (id : Nat), id ∉ linesWritten s.cfg i → exec i s = .next t → t.level id = s.level id

/-- In a ready state with a well-formed configuration every command is carried out: the model stops on none. -/
def Obligations.EveryCommandIsCarriedOut : Prop :=
  ∀ (i : Instr) (s : State), s.cfg.wf = true → s.ready = true → ∃ t, exec i s = .next t

/-- A well-formed command never ends fatally (60_exceptions.md R186). -/
def Obligations.WellFormedCommandsNeverEndFatally : Prop :=
  ∀ (i : Instr) (s t : State), s.cfg.wf = true → i.WellFormed s.cfg = true → exec i s = .next t → t.fault = .noFault

/-- Fatal errors are precise and early (60_exceptions.md R187): a command that ends fatally has changed neither memory, no
line and no timer register but by the timer agent's own steps, and it has appended its one event to WIRE. -/
def Obligations.FatalErrorsArePrecise : Prop :=
  ∀ (i : Instr) (s t : State), s.cfg.wf = true → s.ready = true → exec i s = .next t → t.fault ≠ .noFault →
    t.cbuf = s.cbuf ∧ t.scr = s.scr ∧ t.lvl = s.lvl ∧ t.busy = false ∧ t.wire = s.wire ++ [.fatal t.fault] ∧
    (∃ u, t.timer = s.timer.advance u)

/-- UPC advances by one when a micro-operation completes and in no other way (10_state.md R33): a command that is given
time for exactly one micro-operation and is still running is one further, or holds where it was. TC is then the number of
WAITs before the next line write of a transmit (10_state.md R30), and J the bit whose cell holds UPC, 0 before the strip's first
cell (10_state.md R29); when they go on is the model's choice, log entry 15. -/
def Obligations.PositionAdvancesByOne : Prop :=
  ∀ (i : Instr) (s t : State) (u v : Nat) (xs : List Slot), s.busy = true → s.pace = .run u :: .pause v :: xs →
    exec i s = .next t → t.busy = true →
    (t.upc = s.upc + 1 ∧
      (i.opcode = .tx ∨ i.opcode = .txall → t.tc = leadingWaits ((expand i s).drop (s.upc + 1))) ∧
      (i.opcode = .tx → t.j = BitVec.ofNat 37 ((t.upc - (2 + s.cfg.resetTicks)) / 5)) ∧
      (i.opcode = .txall → ∀ (ds es : List Strip) (d : Strip) (p : Nat), s.cfg.strips = ds ++ d :: es →
        p < 3 + s.cfg.resetTicks + 120 * d.leds →
        t.upc = (ds.map fun e => 3 + s.cfg.resetTicks + 120 * e.leds).sum + p →
        t.j = BitVec.ofNat 37 ((p - (3 + s.cfg.resetTicks)) / 5))) ∨
    (t.upc = s.upc ∧ (expand i s)[s.upc]? = some .wait)

/-- What a completed command leaves in the working registers I, J, TC and OFF (10_state.md R28 to R30). The spec writes out no
update of I, J and TC: the values are the model's choice, log entry 15. I is the last LED position ENC used, J the last bit of the
transmit (0 without LEDs), TC is 0; OFF is past the last strip (42_logical_strip.md R165). -/
def Obligations.WorkingRegistersAfterACommand : Prop :=
  ∀ s : State, s.cfg.wf = true → s.ready = true → s.timerLive = true → s.unpaused = true →
    (∀ (strip : Word32) (dir : Direction) (d : Strip), s.cfg.strips[strip.toNat]? = some d →
      ∃ t, exec (.enc strip dir) s = .next t ∧
        t.i = (if d.leds = 0 then s.i else BitVec.ofNat 32 (d.leds - 1)) ∧ t.j = s.j ∧ t.tc = s.tc) ∧
    (∀ (strip : Word32) (d : Strip), s.cfg.strips[strip.toNat]? = some d →
      ∃ t, exec (.tx strip) s = .next t ∧ t.j = BitVec.ofNat 37 (24 * d.leds - 1) ∧ t.tc = 0 ∧ t.i = s.i ∧
        t.off = s.off) ∧
    (∀ (ds : List Strip) (d : Strip), s.cfg.strips = ds ++ [d] →
      ∃ t, exec .txall s = .next t ∧ t.j = BitVec.ofNat 37 (24 * d.leds - 1) ∧ t.tc = 0 ∧
        t.off = BitVec.ofNat 32 s.cfg.totalLeds ∧
        (∀ (es fs : List Strip) (e : Strip), s.cfg.strips = es ++ e :: fs → e.leds ≠ 0 → (∀ f ∈ fs, f.leds = 0) →
          t.i = BitVec.ofNat 32 (e.leds - 1)) ∧
        ((∀ e ∈ s.cfg.strips, e.leds = 0) → t.i = s.i))

/-- A pause is invisible: a command left before its next micro-operation and gone on with is the command without the
pause, in every state that meets the invariant. -/
def Obligations.PausingIsInvisible : Prop :=
  ∀ (i : Instr) (s t : State) (xs : List Slot), s.Inv → s.pace = .pause 0 :: xs → exec i s = .next t → t.fault = .noFault →
    exec i t = exec i { s with pace := xs }

/-! ## The timer, ARM and WAIT -/

/-- The closed form the model uses is `n` steps of rule R120 of 40_timer_pin_surface.md, one after the other. -/
def Obligations.TimerAdvanceIsItsSteps : Prop :=
  ∀ (n : Nat) (t : Timer), t.advance n = Timer.step^[n] t

/-- Time units in an engine that is not busy (40_timer_pin_surface.md R120). One unit is one timer step: not enabled while
T_EN is 0, else T_CNT + 1 modulo 2^32, or 0 with T_MATCH set where that is T_PERIOD; nothing else changes and no event is
emitted. `n` units are `n` such steps. -/
def Obligations.TimePassingIsTimerSteps : Prop :=
  (∀ (s : State) (ms : List Move), s.busy = false → s.unitsLeft = none → s.agenda = .time 1 :: ms →
    step s = .next { s with
      agenda := ms,
      timer :=
        if s.timer.en = false then s.timer
        else if s.timer.cnt + 1#32 = s.timer.period then { s.timer with cnt := 0#32, matched := true }
        else { s.timer with cnt := s.timer.cnt + 1#32 } }) ∧
  (∀ (s : State) (n : Nat) (ms : List Move), s.busy = false → s.unitsLeft = none → s.agenda = .time n :: ms →
    step s = .next { s with agenda := ms, timer := Timer.step^[n] s.timer })

/-- Match times after ARM (40_timer_pin_surface.md R128): whatever WAITs consume in between (`ws` says after which timer
steps one did), the timer steps numbered p, 2p, 3p, ... counted from the ARM set T_MATCH and no other does. -/
def Obligations.MatchesComeEveryPeriod : Prop :=
  ∀ (p : Word32) (ws : List Bool), p ≠ 0#32 →
    let t := ws.foldl (fun t consumed => if consumed then t.step.consume else t.step) (Timer.armed p)
    (t.consume.step.matched = true ↔ p.toNat ∣ ws.length + 1)

/-- T_MATCH does not count (20_memory.md R80): after any number of whole periods without a WAIT the timer is as after one,
with one match to consume. -/
def Obligations.MissedMatchesMergeIntoOne : Prop :=
  ∀ (p : Word32) (m : Nat), p ≠ 0#32 → 1 ≤ m →
    Timer.step^[m * p.toNat] (Timer.armed p) = { Timer.armed p with matched := true }

/-- ARM (40_timer_pin_surface.md R121). A period of at least 1: all five timer registers overwritten whatever they held, the
event, and nothing else. Period 0: F_ILLEGAL, and the timer is left. -/
def Obligations.ArmOverwritesTheTimer : Prop :=
  ∀ s : State, s.ready = true → s.nextSlot.isPause = false →
    (∀ p : Word32, p ≠ 0#32 →
      exec (.arm p) s = .next { s.takeSlot with
        cmd := encode (.arm p), busy := false, upc := 0, wire := s.wire ++ [.arm p],
        timer := { en := true, mie := true, period := p, cnt := 0#32, matched := false } }) ∧
    exec (.arm 0#32) s = .next { s.takeSlot with
      cmd := encode (.arm 0#32), busy := false, upc := 0, fault := .illegal, wire := s.wire ++ [.fatal .illegal] }

/-- WAIT (40_timer_pin_surface.md R122) completes at once when T_MATCH is 1, and otherwise at the next match of a timer that
counts and gets the time units to it: T_MATCH is cleared, the event emitted, and no other timer register is changed but by the
timer agent's steps up to that match. With T_EN = 0, or when the timer agent stops short of the match, it holds: BUSY stays 1 and
nothing changes but by the steps the timer agent still takes. That a WAIT completes exactly at its match, where the rule lets it
complete at any later moment too, is the model's choice (log entry 10), and so is how the time units are counted (log entries 8
and 9). -/
def Obligations.WaitConsumesTheMatch : Prop :=
  ∀ s : State, s.ready = true → s.nextSlot.isPause = false →
    let timer := s.takeSlot.timer
    (timer.matched = true →
      exec .wait s = .next { s.takeSlot with
        cmd := encode .wait, busy := false, upc := 0, wire := s.wire ++ [.tick],
        timer := { timer with matched := false } }) ∧
    (timer.matched = false → timer.en = true → s.unitsLeft = none →
      exec .wait s = .next { s.takeSlot with
        cmd := encode .wait, busy := false, upc := 0, wire := s.wire ++ [.tick],
        timer := { Timer.step^[timer.stepsToMatch] timer with matched := false } }) ∧
    (∀ b, timer.matched = false → timer.en = true → s.takeSlot.unitsLeft = some b → timer.stepsToMatch ≤ b →
      exec .wait s = .next { s.takeSlot with
        cmd := encode .wait, busy := false, upc := 0, wire := s.wire ++ [.tick],
        timer := { Timer.step^[timer.stepsToMatch] timer with matched := false },
        unitsLeft := some (b - timer.stepsToMatch) }) ∧
    (∀ b, timer.matched = false → timer.en = true → s.takeSlot.unitsLeft = some b → b < timer.stepsToMatch →
      exec .wait s = .next { s.takeSlot with
        cmd := encode .wait, busy := true, upc := 0, timer := Timer.step^[b] timer, unitsLeft := some 0 }) ∧
    (timer.matched = false → timer.en = false →
      exec .wait s = .next { s.takeSlot with cmd := encode .wait, busy := true, upc := 0 })

/-- The timer step numbered `stepsToMatch` is the first that sets T_MATCH, so that WAIT holds for exactly the steps before
it (40_timer_pin_surface.md R120, R122). -/
def Obligations.WaitEndsAtTheFirstMatch : Prop :=
  ∀ t : Timer, t.en = true → t.matched = false →
    (Timer.step^[t.stepsToMatch] t).matched = true ∧ ∀ n, n < t.stepsToMatch → (Timer.step^[n] t).matched = false

/-- A WAIT whose match never comes holds for ever, alone or inside TX or TXALL (60_exceptions.md R185): with the timer
stopped, or the timer agent short of the time units to the match, a step changes nothing but the model's own `pace` and
`unitsLeft` and what the timer agent's remaining steps do: BUSY stays 1, FAULT stays 0, UPC and the lines stay, nothing is
appended to WIRE. It is no fault and no refusal, and the next step finds the same premises. -/
def Obligations.StalledWaitHoldsForever : Prop :=
  ∀ (s : State) (i : Instr), s.cfg.wf = true → s.busy = true → s.fault = .noFault → s.resetDue = false →
    decode s.cmd = .ok i → (expand i s)[s.upc]? = some .wait → s.timer.matched = false →
    (s.timer.en = false ∨ ∃ b, s.unitsLeft = some b ∧ b < s.timer.stepsToMatch) →
    ∃ t, step s = .next t ∧
      t = { s with pace := s.pace.tail, timer := t.timer, unitsLeft := t.unitsLeft } ∧
      (s.timer.en = false → t.timer = s.timer) ∧
      (∀ b, s.unitsLeft = some b → ∃ n, n ≤ b ∧ t.unitsLeft = some (b - n) ∧ t.timer = Timer.step^[n] s.timer) ∧
      t.timer.matched = false ∧
      (t.timer.en = false ∨ ∃ b, t.unitsLeft = some b ∧ b < t.timer.stepsToMatch)

/-! ## SETL and SETH -/

/-- SETL (level low) and SETH (level high) (40_timer_pin_surface.md R123, R124). On a driven line the latch takes the level,
every other latch stays and the event is emitted, also when the level does not change; on a sink nothing is written and no
event emitted (R125); an id outside the fixed set is F_ILLEGAL. Nothing else happens, in particular not to the timer. -/
def Obligations.SetlAndSethWriteTheLine : Prop :=
  ∀ (s : State) (id : Word32), s.ready = true → s.nextSlot.isPause = false →
    ∀ p ∈ [(Instr.setl id, false), (Instr.seth id, true)],
      (s.cfg.lines[id.toNat]? = some .driven →
        ∃ l, exec p.1 s = .next { s.takeSlot with
            cmd := encode p.1, busy := false, upc := 0, wire := s.wire ++ [.set id.toNat p.2], lvl := l } ∧
          Memory.find id.toNat l = some p.2 ∧ ∀ q, q ≠ id.toNat → Memory.find q l = s.level q) ∧
      (s.cfg.lines[id.toNat]? = some .sink →
        exec p.1 s = .next { s.takeSlot with cmd := encode p.1, busy := false, upc := 0 }) ∧
      (s.cfg.nLines ≤ id.toNat →
        exec p.1 s = .next { s.takeSlot with
          cmd := encode p.1, busy := false, upc := 0, fault := .illegal, wire := s.wire ++ [.fatal .illegal] })

/-! ## The encoder and ENC -/

/-- The encoder (41_physical_strip.md R141, R142): 3 bytes a Color, red, green and blue of Color i at 3i + ro, 3i + go and
3i + bo. -/
def Obligations.EncoderPlacesTheChannels : Prop :=
  ∀ (o : ChannelOrder) (cs : List Color), (encodeColors o cs).length = 3 * cs.length ∧
    ∀ (i : Nat) (h : i < cs.length),
      (encodeColors o cs)[3 * i + o.red]? = some cs[i].r ∧ (encodeColors o cs)[3 * i + o.green]? = some cs[i].g ∧
      (encodeColors o cs)[3 * i + o.blue]? = some cs[i].b

/-- Size laws of the encoder (41_physical_strip.md R142): 3 bytes and 24 bits a Color, nothing for no Colors, injective for
one order; and two orders give the same bytes exactly where every Color's own bytes agree. -/
def Obligations.EncoderSizesAndInjectivity : Prop :=
  (∀ (o : ChannelOrder) (cs : List Color), (encodeColors o cs).length = 3 * cs.length ∧
    (bitsOf (encodeColors o cs)).length = 24 * cs.length) ∧
  (∀ o : ChannelOrder, encodeColors o [] = []) ∧
  (∀ (o : ChannelOrder) (cs ds : List Color), encodeColors o cs = encodeColors o ds → cs = ds) ∧
  ∀ (o p : ChannelOrder) (cs : List Color), encodeColors o cs = encodeColors p cs ↔ ∀ c ∈ cs, wireBytes o c = wireBytes p c

/-- Bit J of the bit sequence is bit 7 - (J mod 8) of byte J div 8, and there are 8 a byte (20_memory.md R64,
41_physical_strip.md R144). -/
def Obligations.BitsAreMostSignificantFirst : Prop :=
  ∀ bytes : List Byte, (bitsOf bytes).length = 8 * bytes.length ∧
    ∀ (J : Nat) (h : J / 8 < bytes.length), (bitsOf bytes)[J]? = some (bytes[J / 8].getLsbD (7 - J % 8))

/-- ENC (41_physical_strip.md R143). A strip that does not exist is F_ILLEGAL. Otherwise K, N, OFF and DIR are written; a
strip that does not fit the scratch buffer is then F_CONFIG before any byte is written; else the bytes of LED i are at
3i + ro, 3i + go, 3i + bo, its Color being CBUF[OFF + i] forward and CBUF[OFF + N - 1 - i] in reverse, and every byte from
3N on is kept. Nothing else changes (I is a dead register, log entry 15). -/
def Obligations.EncWritesTheStripsBytes : Prop :=
  ∀ (s : State) (strip : Word32) (dir : Direction), s.ready = true → s.nextSlot.isPause = false →
    (s.cfg.nStrips ≤ strip.toNat →
      exec (.enc strip dir) s = .next { s.takeSlot with
        cmd := encode (.enc strip dir), busy := false, upc := 0, fault := .illegal,
        wire := s.wire ++ [.fatal .illegal] }) ∧
    (∀ d, s.cfg.strips[strip.toNat]? = some d → s.cfg.scratchBytes < 3 * d.leds →
      exec (.enc strip dir) s = .next { s.takeSlot with
        cmd := encode (.enc strip dir), busy := false, upc := 0, fault := .config, k := strip, n := d.ledCount,
        off := BitVec.ofNat 32 (s.cfg.start strip.toNat), dir := dir, wire := s.wire ++ [.fatal .config] }) ∧
    (∀ d o, s.cfg.wf = true → s.cfg.strips[strip.toNat]? = some d → d.channelOrder = some o →
      ∃ t, exec (.enc strip dir) s = .next t ∧
        t = { s.takeSlot with
          cmd := encode (.enc strip dir), busy := false, upc := 0, scr := t.scr, k := strip, n := d.ledCount,
          off := BitVec.ofNat 32 (s.cfg.start strip.toNat), dir := dir, i := t.i } ∧
        (∀ i, i < d.leds →
          let c := s.readColor (s.cfg.start strip.toNat + if dir = .forward then i else d.leds - 1 - i)
          t.readByte (3 * i + o.red) = c.r ∧ t.readByte (3 * i + o.green) = c.g ∧ t.readByte (3 * i + o.blue) = c.b) ∧
        (∀ b, 3 * d.leds ≤ b → t.readByte b = s.readByte b))

/-- The reversal property (42_logical_strip.md R167): in its own direction a strip's bytes are the encoding of the reversed slice
when it is reversed and of the slice when it is not, and a reversed strip over a slice gives the bytes of a strip that is not
reversed over the reversed slice. -/
def Obligations.ReversalReversesTheSlice : Prop :=
  (∀ (s : State) (off : Nat) (d : Strip) (o : ChannelOrder), d.channelOrder = some o →
    (d.reversed = true → s.encodedBytes off d d.direction = encodeColors o (s.slice off d.leds).reverse) ∧
    (d.reversed = false → s.encodedBytes off d d.direction = encodeColors o (s.slice off d.leds))) ∧
  ∀ (s t : State) (off : Nat) (d : Strip),
    (∀ i, i < d.leds → t.readColor (off + i) = s.readColor (off + (d.leds - 1 - i))) →
    s.encodedBytes off { d with reversed := true } .reverse = t.encodedBytes off { d with reversed := false } .forward

/-! ## TX -/

/-- Tick counts of a transmit (41_physical_strip.md R149), for the bit sequence of a strip of `n` LEDs: exactly 1 ARM,
RESET_TICKS + 72 n WAITs, 24 n SETHs and 1 + 24 n SETLs and nothing else; a driven line is high for 24 n + ones ticks and
low for RESET_TICKS + 48 n - ones ticks, whatever its level before. -/
def Obligations.TransmitTickCounts : Prop :=
  ∀ (c : Cfg) (ln n : Nat) (bs : List Bool), bs.length = 24 * n →
    (txExpand c ln bs).length = 2 + c.resetTicks + 120 * n ∧ (txExpand c ln bs).count (.arm c.tick) = 1 ∧
    (txExpand c ln bs).count .wait = c.resetTicks + 72 * n ∧ (txExpand c ln bs).count (.seth ln) = 24 * n ∧
    (txExpand c ln bs).count (.setl ln) = 1 + 24 * n ∧
    (c.driven ln = true → ∀ l, (wave ln l (frameEvents c ln bs)).count true = 24 * n + bs.count true ∧
      (wave ln l (frameEvents c ln bs)).count false + bs.count true = c.resetTicks + 48 * n)

/-- The phases of a transmit (10_state.md R34): the micro-operation at every position is that of the position's phase. -/
def Obligations.PositionsFallInThePhases : Prop :=
  ∀ (c : Cfg) (ln : Nat) (bs : List Bool) (pos : Nat),
    (txExpand c ln bs)[pos]? = (phaseAt c bs pos).map (Phase.micro c ln)

/-- TX (41_physical_strip.md R148, R152). A strip that does not exist is F_ILLEGAL, and one that does not fit the scratch
buffer F_CONFIG, before the ARM: neither the timer nor a line is touched. Otherwise TX completes: WIRE gains the frame of the
first 3 × led_count bytes of SCR, its line ends low and every other latch stays, the timer counts with period TICK and
T_MATCH is 0, and neither memory is changed. -/
def Obligations.TxSendsTheFrame : Prop :=
  ∀ (s : State) (strip : Word32), s.ready = true →
    (s.cfg.nStrips ≤ strip.toNat →
      exec (.tx strip) s = .next { s with
        cmd := encode (.tx strip), busy := false, upc := 0, fault := .illegal, wire := s.wire ++ [.fatal .illegal] }) ∧
    (∀ d, s.cfg.strips[strip.toNat]? = some d → s.cfg.scratchBytes < 3 * d.leds →
      exec (.tx strip) s = .next { s with
        cmd := encode (.tx strip), busy := false, upc := 0, fault := .config, k := strip, n := d.ledCount,
        wire := s.wire ++ [.fatal .config] }) ∧
    (∀ d, s.cfg.wf = true → s.timerLive = true → s.unpaused = true → s.cfg.strips[strip.toNat]? = some d →
      ∃ t, exec (.tx strip) s = .next t ∧
        t = { s with
          cmd := encode (.tx strip), busy := false, upc := 0, k := strip, n := d.ledCount,
          wire := s.wire ++ frameEvents s.cfg d.lineId (bitsOf (s.readBytes (3 * d.leds))),
          timer := { en := true, mie := true, period := s.cfg.tick, cnt := t.timer.cnt, matched := false },
          lvl := t.lvl, j := t.j, tc := t.tc, pace := t.pace } ∧
        t.level d.lineId = (if s.cfg.driven d.lineId then some false else s.level d.lineId) ∧
        ∀ q, q ≠ d.lineId → t.level q = s.level q)

/-- The waveform of a completed TX (41_physical_strip.md R150), read off what it appended to WIRE after its EvArm: on the
strip's driven line RESET_TICKS low ticks and then `HHL` for each 1 and `HLL` for each 0, whatever the level before; on
every other line the old level throughout. -/
def Obligations.TxWaveform : Prop :=
  ∀ (s : State) (strip : Word32) (d : Strip), s.cfg.wf = true → s.ready = true → s.timerLive = true →
    s.unpaused = true → s.cfg.strips[strip.toNat]? = some d →
    ∃ t es, exec (.tx strip) s = .next t ∧ t.wire = s.wire ++ .arm s.cfg.tick :: es ∧
      (s.cfg.driven d.lineId = true → ∀ l, wave d.lineId l es = List.replicate s.cfg.resetTicks false ++
        (bitsOf (s.readBytes (3 * d.leds))).flatMap fun b => if b then [true, true, false] else [true, false, false]) ∧
      ∀ id l, id ≠ d.lineId → wave id l es = List.replicate (s.cfg.resetTicks + 72 * d.leds) l

/-- The time of one transmit under KEEPS_UP (70_reset_and_hazards.md R226, R232): however the sequencer's own time falls,
as long as it begins every poll before the match, the last WAIT completes exactly (RESET_TICKS + 72 × led_count) × TICK time
units after the ARM. Before the ARM the first slot's units pass. 'Exactly' is the model's choice (log entry 10: a WAIT completes at
its match), where R226 allows a delay up to its λ; slots and units left are the model's own (log entries 8 and 9). -/
def Obligations.TransmitTakesItsTicks : Prop :=
  ∀ (s : State) (strip : Word32) (d : Strip) (b : Nat), s.cfg.wf = true → s.ready = true → s.unpaused = true →
    s.keepsUp (.tx strip) = true → s.unitsLeft = some b → s.cfg.strips[strip.toNat]? = some d →
    s.nextSlot.units + frameTicks s.cfg d.leds * s.cfg.tick.toNat ≤ b →
    ∃ t, exec (.tx strip) s = .next t ∧ t.busy = false ∧ t.fault = .noFault ∧
      t.unitsLeft = some (b - (s.nextSlot.units + frameTicks s.cfg d.leds * s.cfg.tick.toNat))

/-! ## SETC and FILL -/

/-- SETC (42_logical_strip.md R160). Inside TOTAL_LEDS that entry takes the Color, every other entry stays, nothing else
changes; at or above TOTAL_LEDS it is F_INDEX and the buffer is left. -/
def Obligations.SetcWritesOneColor : Prop :=
  ∀ (s : State) (idx : Word32) (c : Color), s.ready = true → s.nextSlot.isPause = false →
    (s.cfg.wf = true → idx.toNat < s.cfg.totalLeds →
      ∃ t, exec (.setc idx c) s = .next t ∧
        t = { s.takeSlot with cmd := encode (.setc idx c), busy := false, upc := 0, cbuf := t.cbuf } ∧
        t.readColor idx.toNat = c ∧ ∀ a, a ≠ idx.toNat → t.readColor a = s.readColor a) ∧
    (s.cfg.totalLeds ≤ idx.toNat →
      exec (.setc idx c) s = .next { s.takeSlot with
        cmd := encode (.setc idx c), busy := false, upc := 0, fault := .index, wire := s.wire ++ [.fatal .index] })

/-- FILL (42_logical_strip.md R161): every entry of the buffer takes the Color, nothing else changes. -/
def Obligations.FillWritesEveryColor : Prop :=
  ∀ (s : State) (c : Color), s.ready = true → s.nextSlot.isPause = false →
    ∃ t, exec (.fill c) s = .next t ∧
      t = { s.takeSlot with cmd := encode (.fill c), busy := false, upc := 0, cbuf := t.cbuf } ∧
      (∀ a, a < s.cfg.cbufLen → t.readColor a = c) ∧ ∀ a, s.cfg.cbufLen ≤ a → t.readColor a = s.readColor a

/-- FILL is SETC of every index in turn (30_encoding.md R101): both complete and leave the same colour buffer, and neither
changes the scratch buffer, a line, the configuration, WIRE or, but for its own steps, the timer. -/
def Obligations.FillIsSetcOfEveryIndex : Prop :=
  ∀ (s : State) (c : Color), s.cfg.wf = true → s.ready = true → s.unpaused = true →
    ∃ t u, exec (.fill c) s = .next t ∧ runAll (setcCommands c s.cfg.cbufLen) s = .next u ∧ t.cbuf = u.cbuf ∧
      ∀ v ∈ [t, u], v.fault = .noFault ∧ v.busy = false ∧ (s.upc = 0 → v.upc = 0) ∧ v.wire = s.wire ∧
        v.scr = s.scr ∧ v.lvl = s.lvl ∧ v.cfg = s.cfg ∧ ∃ n, v.timer = s.timer.advance n

/-- Two colour buffers in canonical form that read alike are equal data; with it, FILL twice leaves the buffer FILL once
leaves (20_memory.md R71). -/
def Obligations.FillIsIdempotent : Prop :=
  (∀ (c : Cfg) (m q : List (Nat × Color)), Memory.wf (listedColor c) m → Memory.wf (listedColor c) q →
    (∀ a, (Memory.find a m).getD .black = (Memory.find a q).getD .black) → m = q) ∧
  ∀ (s t u : State) (c : Color), s.Inv → s.ready = true → s.unpaused = true → exec (.fill c) s = .next t →
    exec (.fill c) t = .next u → u.cbuf = t.cbuf

/-! ## TXALL and the partition -/

/-- The ticks of a TXALL (30_encoding.md R107): Σ (RESET_TICKS + 72 × led_count) EvTicks and N_STRIPS EvArms in what it
appends to WIRE, and no fatal error. -/
def Obligations.TxallTicks : Prop :=
  ∀ s : State, s.cfg.wf = true → s.ready = true → s.timerLive = true → s.unpaused = true →
    ∃ t es, exec .txall s = .next t ∧ t.wire = s.wire ++ es ∧
      es.count .tick = (s.cfg.strips.map fun d => s.cfg.resetTicks + 72 * d.leds).sum ∧
      es.count (.arm s.cfg.tick) = s.cfg.nStrips ∧ (∀ code, .fatal code ∉ es)

/-- TXALL (42_logical_strip.md R165, R168): the expansion's length; WIRE gains the frames of all strips in order, each of its
own slice in its own direction and channel order; the driven lines that serve a strip end low and every other latch stays; every
byte of SCR holds that byte of the last strip long enough to write it, and one that no strip is long enough for is untouched; the
colour buffer is not changed; K, N and DIR are the last strip's, and OFF is the sum that the pseudocode's last line leaves
(when it advances between two strips is log entry 15). -/
def Obligations.TxallSendsEveryFrameInOrder : Prop :=
  ∀ (s : State) (ds : List Strip) (d : Strip), s.cfg.wf = true → s.ready = true → s.timerLive = true →
    s.unpaused = true → s.cfg.strips = ds ++ [d] →
    (expand .txall s).length = (s.cfg.strips.map fun d => 3 + s.cfg.resetTicks + 120 * d.leds).sum ∧
    ∃ t, exec .txall s = .next t ∧ t.cfg = s.cfg ∧ t.cbuf = s.cbuf ∧ t.busy = false ∧ t.upc = 0 ∧
      t.fault = .noFault ∧ t.cmd = encode .txall ∧ t.wire = s.wire ++ txallEvents s 0 s.cfg.strips ∧
      (∀ (es fs : List Strip) (e : Strip) (b : Nat), s.cfg.strips = es ++ e :: fs → b < 3 * e.leds →
        (∀ f ∈ fs, 3 * f.leds ≤ b) →
        (s.encodedBytes (ledsOf es) e e.direction)[b]? = some (t.readByte b)) ∧
      (∀ b, (∀ e ∈ s.cfg.strips, 3 * e.leds ≤ b) → t.readByte b = s.readByte b) ∧
      (∀ e ∈ s.cfg.strips, s.cfg.driven e.lineId = true → t.level e.lineId = some false) ∧
      (∀ q, q ∉ s.cfg.strips.map Strip.lineId → t.level q = s.level q) ∧
      t.timer.en = true ∧ t.timer.mie = true ∧ t.timer.period = s.cfg.tick ∧ t.timer.matched = false ∧
      t.k = BitVec.ofNat 32 ds.length ∧ t.n = d.ledCount ∧ t.dir = d.direction ∧
      t.off = BitVec.ofNat 32 s.cfg.totalLeds ∧ t.agenda = s.agenda ∧ t.draws = s.draws ∧ t.unitsLeft = none

/-- TXALL is ENC and TX of every strip in turn (30_encoding.md R101): the same events, the same memories and the same
lines. -/
def Obligations.TxallIsEncAndTxOfEveryStrip : Prop :=
  ∀ s : State, s.cfg.wf = true → s.ready = true → s.timerLive = true → s.unpaused = true →
    s.cfg.nStrips ≤ 2 ^ 32 →
    ∃ t u, exec .txall s = .next t ∧ runAll (encTxCommands 0 s.cfg.strips) s = .next u ∧ t.wire = u.wire ∧
      t.cbuf = u.cbuf ∧ t.scr = u.scr ∧ t.lvl = u.lvl ∧ t.busy = u.busy ∧ t.fault = u.fault ∧ t.upc = u.upc

/-- `locate` (20_memory.md R72, R73): strip k owns the global indices from START[k] to START[k] + led_count - 1, every index
below TOTAL_LEDS lies in exactly one strip, and none at or above does. -/
def Obligations.StripsPartitionTheBuffer : Prop :=
  ∀ (c : Cfg) (g : Nat),
    (∀ k l, c.locate g = some (k, l) ↔ ∃ d, c.strips[k]? = some d ∧ l < d.leds ∧ g = c.start k + l) ∧
    (c.locate g = none ↔ c.totalLeds ≤ g)

/-- The position on the wire (20_memory.md R74): the Color at global index g is the LED at position l of its strip, or
led_count - 1 - l when the strip is reversed, with its channels at the strip's offsets. -/
def Obligations.ColorsGoToTheirWirePosition : Prop :=
  ∀ (s : State) (g k l : Nat) (d : Strip) (o : ChannelOrder), s.cfg.locate g = some (k, l) →
    s.cfg.strips[k]? = some d → d.channelOrder = some o →
    let i := if d.reversed then d.leds - 1 - l else l
    let bytes := s.encodedBytes (s.cfg.start k) d d.direction
    bytes[3 * i + o.red]? = some (s.readColor g).r ∧ bytes[3 * i + o.green]? = some (s.readColor g).g ∧
      bytes[3 * i + o.blue]? = some (s.readColor g).b
end

