-- ==== Sys2Proof/Laws/State.lean ====
section
/-!
SUPPORT. What each operation over the state does to each field, one lemma per field, so that no later proof unfolds a
record update. The operations whose effect depends on a test (acceptance, line writes, tracking, finishing) follow at
the end, for the fields they leave.
-/

namespace Sys2Proof.Machine

/-! ### `pass` -/

@[simp] theorem pass_cfg (s : State) (u : Nat) : (s.pass u).cfg = s.cfg := rfl
@[simp] theorem pass_cbuf (s : State) (u : Nat) : (s.pass u).cbuf = s.cbuf := rfl
@[simp] theorem pass_scr (s : State) (u : Nat) : (s.pass u).scr = s.scr := rfl
@[simp] theorem pass_timer (s : State) (u : Nat) :
    (s.pass u).timer = s.timer.advance (grantedUnits s.unitsLeft u) := rfl
@[simp] theorem pass_lvl (s : State) (u : Nat) : (s.pass u).lvl = s.lvl := rfl
@[simp] theorem pass_k (s : State) (u : Nat) : (s.pass u).k = s.k := rfl
@[simp] theorem pass_off (s : State) (u : Nat) : (s.pass u).off = s.off := rfl
@[simp] theorem pass_n (s : State) (u : Nat) : (s.pass u).n = s.n := rfl
@[simp] theorem pass_i (s : State) (u : Nat) : (s.pass u).i = s.i := rfl
@[simp] theorem pass_j (s : State) (u : Nat) : (s.pass u).j = s.j := rfl
@[simp] theorem pass_dir (s : State) (u : Nat) : (s.pass u).dir = s.dir := rfl
@[simp] theorem pass_tc (s : State) (u : Nat) : (s.pass u).tc = s.tc := rfl
@[simp] theorem pass_cmd (s : State) (u : Nat) : (s.pass u).cmd = s.cmd := rfl
@[simp] theorem pass_upc (s : State) (u : Nat) : (s.pass u).upc = s.upc := rfl
@[simp] theorem pass_busy (s : State) (u : Nat) : (s.pass u).busy = s.busy := rfl
@[simp] theorem pass_fault (s : State) (u : Nat) : (s.pass u).fault = s.fault := rfl
@[simp] theorem pass_wire (s : State) (u : Nat) : (s.pass u).wire = s.wire := rfl
@[simp] theorem pass_agenda (s : State) (u : Nat) : (s.pass u).agenda = s.agenda := rfl
@[simp] theorem pass_pace (s : State) (u : Nat) : (s.pass u).pace = s.pace := rfl
@[simp] theorem pass_unitsLeft (s : State) (u : Nat) :
    (s.pass u).unitsLeft = s.unitsLeft.map fun b => b - grantedUnits s.unitsLeft u := rfl
@[simp] theorem pass_draws (s : State) (u : Nat) : (s.pass u).draws = s.draws := rfl

/-! ### `takeSlot` -/

@[simp] theorem takeSlot_cfg (s : State) : (s.takeSlot).cfg = s.cfg := rfl
@[simp] theorem takeSlot_cbuf (s : State) : (s.takeSlot).cbuf = s.cbuf := rfl
@[simp] theorem takeSlot_scr (s : State) : (s.takeSlot).scr = s.scr := rfl
@[simp] theorem takeSlot_timer (s : State) :
    (s.takeSlot).timer = s.timer.advance (grantedUnits s.unitsLeft s.nextSlot.units) := rfl
@[simp] theorem takeSlot_lvl (s : State) : (s.takeSlot).lvl = s.lvl := rfl
@[simp] theorem takeSlot_k (s : State) : (s.takeSlot).k = s.k := rfl
@[simp] theorem takeSlot_off (s : State) : (s.takeSlot).off = s.off := rfl
@[simp] theorem takeSlot_n (s : State) : (s.takeSlot).n = s.n := rfl
@[simp] theorem takeSlot_i (s : State) : (s.takeSlot).i = s.i := rfl
@[simp] theorem takeSlot_j (s : State) : (s.takeSlot).j = s.j := rfl
@[simp] theorem takeSlot_dir (s : State) : (s.takeSlot).dir = s.dir := rfl
@[simp] theorem takeSlot_tc (s : State) : (s.takeSlot).tc = s.tc := rfl
@[simp] theorem takeSlot_cmd (s : State) : (s.takeSlot).cmd = s.cmd := rfl
@[simp] theorem takeSlot_upc (s : State) : (s.takeSlot).upc = s.upc := rfl
@[simp] theorem takeSlot_busy (s : State) : (s.takeSlot).busy = s.busy := rfl
@[simp] theorem takeSlot_fault (s : State) : (s.takeSlot).fault = s.fault := rfl
@[simp] theorem takeSlot_wire (s : State) : (s.takeSlot).wire = s.wire := rfl
@[simp] theorem takeSlot_agenda (s : State) : (s.takeSlot).agenda = s.agenda := rfl
@[simp] theorem takeSlot_pace (s : State) : (s.takeSlot).pace = s.pace.tail := rfl
@[simp] theorem takeSlot_unitsLeft (s : State) :
    (s.takeSlot).unitsLeft = s.unitsLeft.map fun b => b - grantedUnits s.unitsLeft s.nextSlot.units := rfl
@[simp] theorem takeSlot_draws (s : State) : (s.takeSlot).draws = s.draws := rfl

/-! ### `fatal` -/

@[simp] theorem fatal_cfg (s : State) (c : FaultCode) : (s.fatal c).cfg = s.cfg := rfl
@[simp] theorem fatal_cbuf (s : State) (c : FaultCode) : (s.fatal c).cbuf = s.cbuf := rfl
@[simp] theorem fatal_scr (s : State) (c : FaultCode) : (s.fatal c).scr = s.scr := rfl
@[simp] theorem fatal_timer (s : State) (c : FaultCode) : (s.fatal c).timer = s.timer := rfl
@[simp] theorem fatal_lvl (s : State) (c : FaultCode) : (s.fatal c).lvl = s.lvl := rfl
@[simp] theorem fatal_k (s : State) (c : FaultCode) : (s.fatal c).k = s.k := rfl
@[simp] theorem fatal_off (s : State) (c : FaultCode) : (s.fatal c).off = s.off := rfl
@[simp] theorem fatal_n (s : State) (c : FaultCode) : (s.fatal c).n = s.n := rfl
@[simp] theorem fatal_i (s : State) (c : FaultCode) : (s.fatal c).i = s.i := rfl
@[simp] theorem fatal_j (s : State) (c : FaultCode) : (s.fatal c).j = s.j := rfl
@[simp] theorem fatal_dir (s : State) (c : FaultCode) : (s.fatal c).dir = s.dir := rfl
@[simp] theorem fatal_tc (s : State) (c : FaultCode) : (s.fatal c).tc = s.tc := rfl
@[simp] theorem fatal_cmd (s : State) (c : FaultCode) : (s.fatal c).cmd = s.cmd := rfl
@[simp] theorem fatal_upc (s : State) (c : FaultCode) : (s.fatal c).upc = s.upc := rfl
@[simp] theorem fatal_busy (s : State) (c : FaultCode) : (s.fatal c).busy = false := rfl
@[simp] theorem fatal_fault (s : State) (c : FaultCode) : (s.fatal c).fault = c := rfl
@[simp] theorem fatal_wire (s : State) (c : FaultCode) : (s.fatal c).wire = s.wire ++ [.fatal c] := rfl
@[simp] theorem fatal_agenda (s : State) (c : FaultCode) : (s.fatal c).agenda = s.agenda := rfl
@[simp] theorem fatal_pace (s : State) (c : FaultCode) : (s.fatal c).pace = s.pace := rfl
@[simp] theorem fatal_unitsLeft (s : State) (c : FaultCode) : (s.fatal c).unitsLeft = s.unitsLeft := rfl
@[simp] theorem fatal_draws (s : State) (c : FaultCode) : (s.fatal c).draws = s.draws := rfl

/-! ### `complete` -/

@[simp] theorem complete_cfg (s : State) : (s.complete).cfg = s.cfg := rfl
@[simp] theorem complete_cbuf (s : State) : (s.complete).cbuf = s.cbuf := rfl
@[simp] theorem complete_scr (s : State) : (s.complete).scr = s.scr := rfl
@[simp] theorem complete_timer (s : State) : (s.complete).timer = s.timer := rfl
@[simp] theorem complete_lvl (s : State) : (s.complete).lvl = s.lvl := rfl
@[simp] theorem complete_k (s : State) : (s.complete).k = s.k := rfl
@[simp] theorem complete_off (s : State) : (s.complete).off = s.off := rfl
@[simp] theorem complete_n (s : State) : (s.complete).n = s.n := rfl
@[simp] theorem complete_i (s : State) : (s.complete).i = s.i := rfl
@[simp] theorem complete_j (s : State) : (s.complete).j = s.j := rfl
@[simp] theorem complete_dir (s : State) : (s.complete).dir = s.dir := rfl
@[simp] theorem complete_tc (s : State) : (s.complete).tc = s.tc := rfl
@[simp] theorem complete_cmd (s : State) : (s.complete).cmd = s.cmd := rfl
@[simp] theorem complete_upc (s : State) : (s.complete).upc = 0 := rfl
@[simp] theorem complete_busy (s : State) : (s.complete).busy = false := rfl
@[simp] theorem complete_fault (s : State) : (s.complete).fault = s.fault := rfl
@[simp] theorem complete_wire (s : State) : (s.complete).wire = s.wire := rfl
@[simp] theorem complete_agenda (s : State) : (s.complete).agenda = s.agenda := rfl
@[simp] theorem complete_pace (s : State) : (s.complete).pace = s.pace := rfl
@[simp] theorem complete_unitsLeft (s : State) : (s.complete).unitsLeft = s.unitsLeft := rfl
@[simp] theorem complete_draws (s : State) : (s.complete).draws = s.draws := rfl

/-! ### `consumeMatch` -/

@[simp] theorem consumeMatch_cfg (s : State) : (s.consumeMatch).cfg = s.cfg := rfl
@[simp] theorem consumeMatch_cbuf (s : State) : (s.consumeMatch).cbuf = s.cbuf := rfl
@[simp] theorem consumeMatch_scr (s : State) : (s.consumeMatch).scr = s.scr := rfl
@[simp] theorem consumeMatch_timer (s : State) : (s.consumeMatch).timer = s.timer.consume := rfl
@[simp] theorem consumeMatch_lvl (s : State) : (s.consumeMatch).lvl = s.lvl := rfl
@[simp] theorem consumeMatch_k (s : State) : (s.consumeMatch).k = s.k := rfl
@[simp] theorem consumeMatch_off (s : State) : (s.consumeMatch).off = s.off := rfl
@[simp] theorem consumeMatch_n (s : State) : (s.consumeMatch).n = s.n := rfl
@[simp] theorem consumeMatch_i (s : State) : (s.consumeMatch).i = s.i := rfl
@[simp] theorem consumeMatch_j (s : State) : (s.consumeMatch).j = s.j := rfl
@[simp] theorem consumeMatch_dir (s : State) : (s.consumeMatch).dir = s.dir := rfl
@[simp] theorem consumeMatch_tc (s : State) : (s.consumeMatch).tc = s.tc := rfl
@[simp] theorem consumeMatch_cmd (s : State) : (s.consumeMatch).cmd = s.cmd := rfl
@[simp] theorem consumeMatch_upc (s : State) : (s.consumeMatch).upc = s.upc := rfl
@[simp] theorem consumeMatch_busy (s : State) : (s.consumeMatch).busy = s.busy := rfl
@[simp] theorem consumeMatch_fault (s : State) : (s.consumeMatch).fault = s.fault := rfl
@[simp] theorem consumeMatch_wire (s : State) : (s.consumeMatch).wire = s.wire ++ [.tick] := rfl
@[simp] theorem consumeMatch_agenda (s : State) : (s.consumeMatch).agenda = s.agenda := rfl
@[simp] theorem consumeMatch_pace (s : State) : (s.consumeMatch).pace = s.pace := rfl
@[simp] theorem consumeMatch_unitsLeft (s : State) : (s.consumeMatch).unitsLeft = s.unitsLeft := rfl
@[simp] theorem consumeMatch_draws (s : State) : (s.consumeMatch).draws = s.draws := rfl

/-! ### `writeColor` -/

@[simp] theorem writeColor_cfg (s : State) (a : Nat) (c : Color) : (s.writeColor a c).cfg = s.cfg := rfl
@[simp] theorem writeColor_cbuf (s : State) (a : Nat) (c : Color) :
    (s.writeColor a c).cbuf = putColor a c s.cbuf := rfl
@[simp] theorem writeColor_scr (s : State) (a : Nat) (c : Color) : (s.writeColor a c).scr = s.scr := rfl
@[simp] theorem writeColor_timer (s : State) (a : Nat) (c : Color) : (s.writeColor a c).timer = s.timer := rfl
@[simp] theorem writeColor_lvl (s : State) (a : Nat) (c : Color) : (s.writeColor a c).lvl = s.lvl := rfl
@[simp] theorem writeColor_k (s : State) (a : Nat) (c : Color) : (s.writeColor a c).k = s.k := rfl
@[simp] theorem writeColor_off (s : State) (a : Nat) (c : Color) : (s.writeColor a c).off = s.off := rfl
@[simp] theorem writeColor_n (s : State) (a : Nat) (c : Color) : (s.writeColor a c).n = s.n := rfl
@[simp] theorem writeColor_i (s : State) (a : Nat) (c : Color) : (s.writeColor a c).i = s.i := rfl
@[simp] theorem writeColor_j (s : State) (a : Nat) (c : Color) : (s.writeColor a c).j = s.j := rfl
@[simp] theorem writeColor_dir (s : State) (a : Nat) (c : Color) : (s.writeColor a c).dir = s.dir := rfl
@[simp] theorem writeColor_tc (s : State) (a : Nat) (c : Color) : (s.writeColor a c).tc = s.tc := rfl
@[simp] theorem writeColor_cmd (s : State) (a : Nat) (c : Color) : (s.writeColor a c).cmd = s.cmd := rfl
@[simp] theorem writeColor_upc (s : State) (a : Nat) (c : Color) : (s.writeColor a c).upc = s.upc := rfl
@[simp] theorem writeColor_busy (s : State) (a : Nat) (c : Color) : (s.writeColor a c).busy = s.busy := rfl
@[simp] theorem writeColor_fault (s : State) (a : Nat) (c : Color) : (s.writeColor a c).fault = s.fault := rfl
@[simp] theorem writeColor_wire (s : State) (a : Nat) (c : Color) : (s.writeColor a c).wire = s.wire := rfl
@[simp] theorem writeColor_agenda (s : State) (a : Nat) (c : Color) : (s.writeColor a c).agenda = s.agenda := rfl
@[simp] theorem writeColor_pace (s : State) (a : Nat) (c : Color) : (s.writeColor a c).pace = s.pace := rfl
@[simp] theorem writeColor_unitsLeft (s : State) (a : Nat) (c : Color) :
    (s.writeColor a c).unitsLeft = s.unitsLeft := rfl
@[simp] theorem writeColor_draws (s : State) (a : Nat) (c : Color) : (s.writeColor a c).draws = s.draws := rfl

/-! ### `fillColors` -/

@[simp] theorem fillColors_cfg (s : State) (c : Color) : (s.fillColors c).cfg = s.cfg := rfl
@[simp] theorem fillColors_cbuf (s : State) (c : Color) :
    (s.fillColors c).cbuf = putColors c s.cfg.cbufLen s.cbuf := rfl
@[simp] theorem fillColors_scr (s : State) (c : Color) : (s.fillColors c).scr = s.scr := rfl
@[simp] theorem fillColors_timer (s : State) (c : Color) : (s.fillColors c).timer = s.timer := rfl
@[simp] theorem fillColors_lvl (s : State) (c : Color) : (s.fillColors c).lvl = s.lvl := rfl
@[simp] theorem fillColors_k (s : State) (c : Color) : (s.fillColors c).k = s.k := rfl
@[simp] theorem fillColors_off (s : State) (c : Color) : (s.fillColors c).off = s.off := rfl
@[simp] theorem fillColors_n (s : State) (c : Color) : (s.fillColors c).n = s.n := rfl
@[simp] theorem fillColors_i (s : State) (c : Color) : (s.fillColors c).i = s.i := rfl
@[simp] theorem fillColors_j (s : State) (c : Color) : (s.fillColors c).j = s.j := rfl
@[simp] theorem fillColors_dir (s : State) (c : Color) : (s.fillColors c).dir = s.dir := rfl
@[simp] theorem fillColors_tc (s : State) (c : Color) : (s.fillColors c).tc = s.tc := rfl
@[simp] theorem fillColors_cmd (s : State) (c : Color) : (s.fillColors c).cmd = s.cmd := rfl
@[simp] theorem fillColors_upc (s : State) (c : Color) : (s.fillColors c).upc = s.upc := rfl
@[simp] theorem fillColors_busy (s : State) (c : Color) : (s.fillColors c).busy = s.busy := rfl
@[simp] theorem fillColors_fault (s : State) (c : Color) : (s.fillColors c).fault = s.fault := rfl
@[simp] theorem fillColors_wire (s : State) (c : Color) : (s.fillColors c).wire = s.wire := rfl
@[simp] theorem fillColors_agenda (s : State) (c : Color) : (s.fillColors c).agenda = s.agenda := rfl
@[simp] theorem fillColors_pace (s : State) (c : Color) : (s.fillColors c).pace = s.pace := rfl
@[simp] theorem fillColors_unitsLeft (s : State) (c : Color) : (s.fillColors c).unitsLeft = s.unitsLeft := rfl
@[simp] theorem fillColors_draws (s : State) (c : Color) : (s.fillColors c).draws = s.draws := rfl

/-! ### `writeBytes` -/

@[simp] theorem writeBytes_cfg (s : State) (out : List Byte) : (s.writeBytes out).cfg = s.cfg := rfl
@[simp] theorem writeBytes_cbuf (s : State) (out : List Byte) : (s.writeBytes out).cbuf = s.cbuf := rfl
@[simp] theorem writeBytes_scr (s : State) (out : List Byte) : (s.writeBytes out).scr = putBytes 0 out s.scr := rfl
@[simp] theorem writeBytes_timer (s : State) (out : List Byte) : (s.writeBytes out).timer = s.timer := rfl
@[simp] theorem writeBytes_lvl (s : State) (out : List Byte) : (s.writeBytes out).lvl = s.lvl := rfl
@[simp] theorem writeBytes_k (s : State) (out : List Byte) : (s.writeBytes out).k = s.k := rfl
@[simp] theorem writeBytes_off (s : State) (out : List Byte) : (s.writeBytes out).off = s.off := rfl
@[simp] theorem writeBytes_n (s : State) (out : List Byte) : (s.writeBytes out).n = s.n := rfl
@[simp] theorem writeBytes_i (s : State) (out : List Byte) : (s.writeBytes out).i = s.i := rfl
@[simp] theorem writeBytes_j (s : State) (out : List Byte) : (s.writeBytes out).j = s.j := rfl
@[simp] theorem writeBytes_dir (s : State) (out : List Byte) : (s.writeBytes out).dir = s.dir := rfl
@[simp] theorem writeBytes_tc (s : State) (out : List Byte) : (s.writeBytes out).tc = s.tc := rfl
@[simp] theorem writeBytes_cmd (s : State) (out : List Byte) : (s.writeBytes out).cmd = s.cmd := rfl
@[simp] theorem writeBytes_upc (s : State) (out : List Byte) : (s.writeBytes out).upc = s.upc := rfl
@[simp] theorem writeBytes_busy (s : State) (out : List Byte) : (s.writeBytes out).busy = s.busy := rfl
@[simp] theorem writeBytes_fault (s : State) (out : List Byte) : (s.writeBytes out).fault = s.fault := rfl
@[simp] theorem writeBytes_wire (s : State) (out : List Byte) : (s.writeBytes out).wire = s.wire := rfl
@[simp] theorem writeBytes_agenda (s : State) (out : List Byte) : (s.writeBytes out).agenda = s.agenda := rfl
@[simp] theorem writeBytes_pace (s : State) (out : List Byte) : (s.writeBytes out).pace = s.pace := rfl
@[simp] theorem writeBytes_unitsLeft (s : State) (out : List Byte) : (s.writeBytes out).unitsLeft = s.unitsLeft := rfl
@[simp] theorem writeBytes_draws (s : State) (out : List Byte) : (s.writeBytes out).draws = s.draws := rfl

/-! ### `selectStrip` -/

@[simp] theorem selectStrip_cfg (s : State) (q : Nat) (d : Strip) : (s.selectStrip q d).cfg = s.cfg := rfl
@[simp] theorem selectStrip_cbuf (s : State) (q : Nat) (d : Strip) : (s.selectStrip q d).cbuf = s.cbuf := rfl
@[simp] theorem selectStrip_scr (s : State) (q : Nat) (d : Strip) : (s.selectStrip q d).scr = s.scr := rfl
@[simp] theorem selectStrip_timer (s : State) (q : Nat) (d : Strip) : (s.selectStrip q d).timer = s.timer := rfl
@[simp] theorem selectStrip_lvl (s : State) (q : Nat) (d : Strip) : (s.selectStrip q d).lvl = s.lvl := rfl
@[simp] theorem selectStrip_k (s : State) (q : Nat) (d : Strip) : (s.selectStrip q d).k = BitVec.ofNat 32 q := rfl
@[simp] theorem selectStrip_off (s : State) (q : Nat) (d : Strip) : (s.selectStrip q d).off = s.off := rfl
@[simp] theorem selectStrip_n (s : State) (q : Nat) (d : Strip) :
    (s.selectStrip q d).n = BitVec.ofNat 32 d.leds := rfl
@[simp] theorem selectStrip_i (s : State) (q : Nat) (d : Strip) : (s.selectStrip q d).i = s.i := rfl
@[simp] theorem selectStrip_j (s : State) (q : Nat) (d : Strip) : (s.selectStrip q d).j = s.j := rfl
@[simp] theorem selectStrip_dir (s : State) (q : Nat) (d : Strip) : (s.selectStrip q d).dir = s.dir := rfl
@[simp] theorem selectStrip_tc (s : State) (q : Nat) (d : Strip) : (s.selectStrip q d).tc = s.tc := rfl
@[simp] theorem selectStrip_cmd (s : State) (q : Nat) (d : Strip) : (s.selectStrip q d).cmd = s.cmd := rfl
@[simp] theorem selectStrip_upc (s : State) (q : Nat) (d : Strip) : (s.selectStrip q d).upc = s.upc := rfl
@[simp] theorem selectStrip_busy (s : State) (q : Nat) (d : Strip) : (s.selectStrip q d).busy = s.busy := rfl
@[simp] theorem selectStrip_fault (s : State) (q : Nat) (d : Strip) : (s.selectStrip q d).fault = s.fault := rfl
@[simp] theorem selectStrip_wire (s : State) (q : Nat) (d : Strip) : (s.selectStrip q d).wire = s.wire := rfl
@[simp] theorem selectStrip_agenda (s : State) (q : Nat) (d : Strip) : (s.selectStrip q d).agenda = s.agenda := rfl
@[simp] theorem selectStrip_pace (s : State) (q : Nat) (d : Strip) : (s.selectStrip q d).pace = s.pace := rfl
@[simp] theorem selectStrip_unitsLeft (s : State) (q : Nat) (d : Strip) :
    (s.selectStrip q d).unitsLeft = s.unitsLeft := rfl
@[simp] theorem selectStrip_draws (s : State) (q : Nat) (d : Strip) : (s.selectStrip q d).draws = s.draws := rfl

/-! ### `otherTimerUser` -/

@[simp] theorem otherTimerUser_cfg (s : State) (t : Timer) : (s.otherTimerUser t).cfg = s.cfg := rfl
@[simp] theorem otherTimerUser_cbuf (s : State) (t : Timer) : (s.otherTimerUser t).cbuf = s.cbuf := rfl
@[simp] theorem otherTimerUser_scr (s : State) (t : Timer) : (s.otherTimerUser t).scr = s.scr := rfl
@[simp] theorem otherTimerUser_timer (s : State) (t : Timer) : (s.otherTimerUser t).timer = t := rfl
@[simp] theorem otherTimerUser_lvl (s : State) (t : Timer) : (s.otherTimerUser t).lvl = s.lvl := rfl
@[simp] theorem otherTimerUser_k (s : State) (t : Timer) : (s.otherTimerUser t).k = s.k := rfl
@[simp] theorem otherTimerUser_off (s : State) (t : Timer) : (s.otherTimerUser t).off = s.off := rfl
@[simp] theorem otherTimerUser_n (s : State) (t : Timer) : (s.otherTimerUser t).n = s.n := rfl
@[simp] theorem otherTimerUser_i (s : State) (t : Timer) : (s.otherTimerUser t).i = s.i := rfl
@[simp] theorem otherTimerUser_j (s : State) (t : Timer) : (s.otherTimerUser t).j = s.j := rfl
@[simp] theorem otherTimerUser_dir (s : State) (t : Timer) : (s.otherTimerUser t).dir = s.dir := rfl
@[simp] theorem otherTimerUser_tc (s : State) (t : Timer) : (s.otherTimerUser t).tc = s.tc := rfl
@[simp] theorem otherTimerUser_cmd (s : State) (t : Timer) : (s.otherTimerUser t).cmd = s.cmd := rfl
@[simp] theorem otherTimerUser_upc (s : State) (t : Timer) : (s.otherTimerUser t).upc = s.upc := rfl
@[simp] theorem otherTimerUser_busy (s : State) (t : Timer) : (s.otherTimerUser t).busy = s.busy := rfl
@[simp] theorem otherTimerUser_fault (s : State) (t : Timer) : (s.otherTimerUser t).fault = s.fault := rfl
@[simp] theorem otherTimerUser_wire (s : State) (t : Timer) : (s.otherTimerUser t).wire = s.wire := rfl
@[simp] theorem otherTimerUser_agenda (s : State) (t : Timer) : (s.otherTimerUser t).agenda = s.agenda := rfl
@[simp] theorem otherTimerUser_pace (s : State) (t : Timer) : (s.otherTimerUser t).pace = s.pace := rfl
@[simp] theorem otherTimerUser_unitsLeft (s : State) (t : Timer) : (s.otherTimerUser t).unitsLeft = s.unitsLeft := rfl
@[simp] theorem otherTimerUser_draws (s : State) (t : Timer) : (s.otherTimerUser t).draws = s.draws := rfl

/-! ### `dropMove` -/

@[simp] theorem dropMove_cfg (s : State) : (s.dropMove).cfg = s.cfg := rfl
@[simp] theorem dropMove_cbuf (s : State) : (s.dropMove).cbuf = s.cbuf := rfl
@[simp] theorem dropMove_scr (s : State) : (s.dropMove).scr = s.scr := rfl
@[simp] theorem dropMove_timer (s : State) : (s.dropMove).timer = s.timer := rfl
@[simp] theorem dropMove_lvl (s : State) : (s.dropMove).lvl = s.lvl := rfl
@[simp] theorem dropMove_k (s : State) : (s.dropMove).k = s.k := rfl
@[simp] theorem dropMove_off (s : State) : (s.dropMove).off = s.off := rfl
@[simp] theorem dropMove_n (s : State) : (s.dropMove).n = s.n := rfl
@[simp] theorem dropMove_i (s : State) : (s.dropMove).i = s.i := rfl
@[simp] theorem dropMove_j (s : State) : (s.dropMove).j = s.j := rfl
@[simp] theorem dropMove_dir (s : State) : (s.dropMove).dir = s.dir := rfl
@[simp] theorem dropMove_tc (s : State) : (s.dropMove).tc = s.tc := rfl
@[simp] theorem dropMove_cmd (s : State) : (s.dropMove).cmd = s.cmd := rfl
@[simp] theorem dropMove_upc (s : State) : (s.dropMove).upc = s.upc := rfl
@[simp] theorem dropMove_busy (s : State) : (s.dropMove).busy = s.busy := rfl
@[simp] theorem dropMove_fault (s : State) : (s.dropMove).fault = s.fault := rfl
@[simp] theorem dropMove_wire (s : State) : (s.dropMove).wire = s.wire := rfl
@[simp] theorem dropMove_agenda (s : State) : (s.dropMove).agenda = s.agenda.tail := rfl
@[simp] theorem dropMove_pace (s : State) : (s.dropMove).pace = s.pace := rfl
@[simp] theorem dropMove_unitsLeft (s : State) : (s.dropMove).unitsLeft = s.unitsLeft := rfl
@[simp] theorem dropMove_draws (s : State) : (s.dropMove).draws = s.draws := rfl

/-! ### `resetNow` -/

@[simp] theorem resetNow_cfg (s : State) : (s.resetNow).cfg = s.cfg := rfl
@[simp] theorem resetNow_cbuf (s : State) : (s.resetNow).cbuf = [] := rfl
@[simp] theorem resetNow_scr (s : State) : (s.resetNow).scr = [] := rfl
@[simp] theorem resetNow_lvl (s : State) :
    (s.resetNow).lvl = s.cfg.drivenIds.map fun id => (id, Config.freeLevel (s.draws + 1) id) := rfl
@[simp] theorem resetNow_upc (s : State) : (s.resetNow).upc = 0 := rfl
@[simp] theorem resetNow_busy (s : State) : (s.resetNow).busy = false := rfl
@[simp] theorem resetNow_fault (s : State) : (s.resetNow).fault = if s.cfg.wf then .noFault else .config := rfl
@[simp] theorem resetNow_wire (s : State) : (s.resetNow).wire = if s.cfg.wf then [] else [.fatal .config] := rfl
@[simp] theorem resetNow_agenda (s : State) : (s.resetNow).agenda = s.agenda := rfl
@[simp] theorem resetNow_pace (s : State) : (s.resetNow).pace = s.pace := rfl
@[simp] theorem resetNow_unitsLeft (s : State) : (s.resetNow).unitsLeft = s.unitsLeft := rfl
@[simp] theorem resetNow_draws (s : State) : (s.resetNow).draws = s.draws + 1 := rfl

/-! ### `accept`: the fields it leaves -/

@[simp] theorem accept_cfg (s : State) (w : CommandWord) : (s.accept w).cfg = s.cfg := by
  unfold State.accept; split <;> rfl
@[simp] theorem accept_cbuf (s : State) (w : CommandWord) : (s.accept w).cbuf = s.cbuf := by
  unfold State.accept; split <;> rfl
@[simp] theorem accept_scr (s : State) (w : CommandWord) : (s.accept w).scr = s.scr := by
  unfold State.accept; split <;> rfl
@[simp] theorem accept_timer (s : State) (w : CommandWord) : (s.accept w).timer = s.timer := by
  unfold State.accept; split <;> rfl
@[simp] theorem accept_lvl (s : State) (w : CommandWord) : (s.accept w).lvl = s.lvl := by
  unfold State.accept; split <;> rfl
@[simp] theorem accept_k (s : State) (w : CommandWord) : (s.accept w).k = s.k := by
  unfold State.accept; split <;> rfl
@[simp] theorem accept_off (s : State) (w : CommandWord) : (s.accept w).off = s.off := by
  unfold State.accept; split <;> rfl
@[simp] theorem accept_n (s : State) (w : CommandWord) : (s.accept w).n = s.n := by
  unfold State.accept; split <;> rfl
@[simp] theorem accept_i (s : State) (w : CommandWord) : (s.accept w).i = s.i := by
  unfold State.accept; split <;> rfl
@[simp] theorem accept_j (s : State) (w : CommandWord) : (s.accept w).j = s.j := by
  unfold State.accept; split <;> rfl
@[simp] theorem accept_dir (s : State) (w : CommandWord) : (s.accept w).dir = s.dir := by
  unfold State.accept; split <;> rfl
@[simp] theorem accept_tc (s : State) (w : CommandWord) : (s.accept w).tc = s.tc := by
  unfold State.accept; split <;> rfl
@[simp] theorem accept_fault (s : State) (w : CommandWord) : (s.accept w).fault = s.fault := by
  unfold State.accept; split <;> rfl
@[simp] theorem accept_wire (s : State) (w : CommandWord) : (s.accept w).wire = s.wire := by
  unfold State.accept; split <;> rfl
@[simp] theorem accept_agenda (s : State) (w : CommandWord) : (s.accept w).agenda = s.agenda := by
  unfold State.accept; split <;> rfl
@[simp] theorem accept_pace (s : State) (w : CommandWord) : (s.accept w).pace = s.pace := by
  unfold State.accept; split <;> rfl
@[simp] theorem accept_unitsLeft (s : State) (w : CommandWord) : (s.accept w).unitsLeft = s.unitsLeft := by
  unfold State.accept; split <;> rfl
@[simp] theorem accept_draws (s : State) (w : CommandWord) : (s.accept w).draws = s.draws := by
  unfold State.accept; split <;> rfl

/-! ### `setLine`: the fields it leaves -/

@[simp] theorem setLine_cfg (s : State) (q : Nat) (l : Bool) : (s.setLine q l).cfg = s.cfg := by
  unfold State.setLine; split <;> rfl
@[simp] theorem setLine_cbuf (s : State) (q : Nat) (l : Bool) : (s.setLine q l).cbuf = s.cbuf := by
  unfold State.setLine; split <;> rfl
@[simp] theorem setLine_scr (s : State) (q : Nat) (l : Bool) : (s.setLine q l).scr = s.scr := by
  unfold State.setLine; split <;> rfl
@[simp] theorem setLine_timer (s : State) (q : Nat) (l : Bool) : (s.setLine q l).timer = s.timer := by
  unfold State.setLine; split <;> rfl
@[simp] theorem setLine_k (s : State) (q : Nat) (l : Bool) : (s.setLine q l).k = s.k := by
  unfold State.setLine; split <;> rfl
@[simp] theorem setLine_off (s : State) (q : Nat) (l : Bool) : (s.setLine q l).off = s.off := by
  unfold State.setLine; split <;> rfl
@[simp] theorem setLine_n (s : State) (q : Nat) (l : Bool) : (s.setLine q l).n = s.n := by
  unfold State.setLine; split <;> rfl
@[simp] theorem setLine_i (s : State) (q : Nat) (l : Bool) : (s.setLine q l).i = s.i := by
  unfold State.setLine; split <;> rfl
@[simp] theorem setLine_j (s : State) (q : Nat) (l : Bool) : (s.setLine q l).j = s.j := by
  unfold State.setLine; split <;> rfl
@[simp] theorem setLine_dir (s : State) (q : Nat) (l : Bool) : (s.setLine q l).dir = s.dir := by
  unfold State.setLine; split <;> rfl
@[simp] theorem setLine_tc (s : State) (q : Nat) (l : Bool) : (s.setLine q l).tc = s.tc := by
  unfold State.setLine; split <;> rfl
@[simp] theorem setLine_cmd (s : State) (q : Nat) (l : Bool) : (s.setLine q l).cmd = s.cmd := by
  unfold State.setLine; split <;> rfl
@[simp] theorem setLine_upc (s : State) (q : Nat) (l : Bool) : (s.setLine q l).upc = s.upc := by
  unfold State.setLine; split <;> rfl
@[simp] theorem setLine_agenda (s : State) (q : Nat) (l : Bool) : (s.setLine q l).agenda = s.agenda := by
  unfold State.setLine; split <;> rfl
@[simp] theorem setLine_pace (s : State) (q : Nat) (l : Bool) : (s.setLine q l).pace = s.pace := by
  unfold State.setLine; split <;> rfl
@[simp] theorem setLine_unitsLeft (s : State) (q : Nat) (l : Bool) : (s.setLine q l).unitsLeft = s.unitsLeft := by
  unfold State.setLine; split <;> rfl
@[simp] theorem setLine_draws (s : State) (q : Nat) (l : Bool) : (s.setLine q l).draws = s.draws := by
  unfold State.setLine; split <;> rfl

/-! ### `armTimer`: the fields it leaves -/

@[simp] theorem armTimer_cfg (s : State) (p : Word32) : (s.armTimer p).cfg = s.cfg := by
  unfold State.armTimer; split <;> rfl
@[simp] theorem armTimer_cbuf (s : State) (p : Word32) : (s.armTimer p).cbuf = s.cbuf := by
  unfold State.armTimer; split <;> rfl
@[simp] theorem armTimer_scr (s : State) (p : Word32) : (s.armTimer p).scr = s.scr := by
  unfold State.armTimer; split <;> rfl
@[simp] theorem armTimer_lvl (s : State) (p : Word32) : (s.armTimer p).lvl = s.lvl := by
  unfold State.armTimer; split <;> rfl
@[simp] theorem armTimer_k (s : State) (p : Word32) : (s.armTimer p).k = s.k := by
  unfold State.armTimer; split <;> rfl
@[simp] theorem armTimer_off (s : State) (p : Word32) : (s.armTimer p).off = s.off := by
  unfold State.armTimer; split <;> rfl
@[simp] theorem armTimer_n (s : State) (p : Word32) : (s.armTimer p).n = s.n := by
  unfold State.armTimer; split <;> rfl
@[simp] theorem armTimer_i (s : State) (p : Word32) : (s.armTimer p).i = s.i := by
  unfold State.armTimer; split <;> rfl
@[simp] theorem armTimer_j (s : State) (p : Word32) : (s.armTimer p).j = s.j := by
  unfold State.armTimer; split <;> rfl
@[simp] theorem armTimer_dir (s : State) (p : Word32) : (s.armTimer p).dir = s.dir := by
  unfold State.armTimer; split <;> rfl
@[simp] theorem armTimer_tc (s : State) (p : Word32) : (s.armTimer p).tc = s.tc := by
  unfold State.armTimer; split <;> rfl
@[simp] theorem armTimer_cmd (s : State) (p : Word32) : (s.armTimer p).cmd = s.cmd := by
  unfold State.armTimer; split <;> rfl
@[simp] theorem armTimer_upc (s : State) (p : Word32) : (s.armTimer p).upc = s.upc := by
  unfold State.armTimer; split <;> rfl
@[simp] theorem armTimer_agenda (s : State) (p : Word32) : (s.armTimer p).agenda = s.agenda := by
  unfold State.armTimer; split <;> rfl
@[simp] theorem armTimer_pace (s : State) (p : Word32) : (s.armTimer p).pace = s.pace := by
  unfold State.armTimer; split <;> rfl
@[simp] theorem armTimer_unitsLeft (s : State) (p : Word32) : (s.armTimer p).unitsLeft = s.unitsLeft := by
  unfold State.armTimer; split <;> rfl
@[simp] theorem armTimer_draws (s : State) (p : Word32) : (s.armTimer p).draws = s.draws := by
  unfold State.armTimer; split <;> rfl

/-! ### `trackTransmit`: the fields it leaves -/

@[simp] theorem trackTransmit_cfg (s : State) (c : Instr) (r : List Micro) : (s.trackTransmit c r).cfg = s.cfg := by
  unfold State.trackTransmit; split <;> rfl
@[simp] theorem trackTransmit_cbuf (s : State) (c : Instr) (r : List Micro) : (s.trackTransmit c r).cbuf = s.cbuf := by
  unfold State.trackTransmit; split <;> rfl
@[simp] theorem trackTransmit_scr (s : State) (c : Instr) (r : List Micro) : (s.trackTransmit c r).scr = s.scr := by
  unfold State.trackTransmit; split <;> rfl
@[simp] theorem trackTransmit_timer (s : State) (c : Instr) (r : List Micro) : (s.trackTransmit c r).timer = s.timer := by
  unfold State.trackTransmit; split <;> rfl
@[simp] theorem trackTransmit_lvl (s : State) (c : Instr) (r : List Micro) : (s.trackTransmit c r).lvl = s.lvl := by
  unfold State.trackTransmit; split <;> rfl
@[simp] theorem trackTransmit_k (s : State) (c : Instr) (r : List Micro) : (s.trackTransmit c r).k = s.k := by
  unfold State.trackTransmit; split <;> rfl
@[simp] theorem trackTransmit_off (s : State) (c : Instr) (r : List Micro) : (s.trackTransmit c r).off = s.off := by
  unfold State.trackTransmit; split <;> rfl
@[simp] theorem trackTransmit_n (s : State) (c : Instr) (r : List Micro) : (s.trackTransmit c r).n = s.n := by
  unfold State.trackTransmit; split <;> rfl
@[simp] theorem trackTransmit_i (s : State) (c : Instr) (r : List Micro) : (s.trackTransmit c r).i = s.i := by
  unfold State.trackTransmit; split <;> rfl
@[simp] theorem trackTransmit_dir (s : State) (c : Instr) (r : List Micro) : (s.trackTransmit c r).dir = s.dir := by
  unfold State.trackTransmit; split <;> rfl
@[simp] theorem trackTransmit_cmd (s : State) (c : Instr) (r : List Micro) : (s.trackTransmit c r).cmd = s.cmd := by
  unfold State.trackTransmit; split <;> rfl
@[simp] theorem trackTransmit_upc (s : State) (c : Instr) (r : List Micro) : (s.trackTransmit c r).upc = s.upc := by
  unfold State.trackTransmit; split <;> rfl
@[simp] theorem trackTransmit_busy (s : State) (c : Instr) (r : List Micro) : (s.trackTransmit c r).busy = s.busy := by
  unfold State.trackTransmit; split <;> rfl
@[simp] theorem trackTransmit_fault (s : State) (c : Instr) (r : List Micro) : (s.trackTransmit c r).fault = s.fault := by
  unfold State.trackTransmit; split <;> rfl
@[simp] theorem trackTransmit_wire (s : State) (c : Instr) (r : List Micro) : (s.trackTransmit c r).wire = s.wire := by
  unfold State.trackTransmit; split <;> rfl
@[simp] theorem trackTransmit_agenda (s : State) (c : Instr) (r : List Micro) : (s.trackTransmit c r).agenda = s.agenda := by
  unfold State.trackTransmit; split <;> rfl
@[simp] theorem trackTransmit_pace (s : State) (c : Instr) (r : List Micro) : (s.trackTransmit c r).pace = s.pace := by
  unfold State.trackTransmit; split <;> rfl
@[simp] theorem trackTransmit_unitsLeft (s : State) (c : Instr) (r : List Micro) : (s.trackTransmit c r).unitsLeft = s.unitsLeft := by
  unfold State.trackTransmit; split <;> rfl
@[simp] theorem trackTransmit_draws (s : State) (c : Instr) (r : List Micro) : (s.trackTransmit c r).draws = s.draws := by
  unfold State.trackTransmit; split <;> rfl

/-! ### `finish`: the fields it leaves -/

@[simp] theorem finish_cfg (s : State) (c : Instr) : (s.finish c).cfg = s.cfg := by
  unfold State.finish; split <;> rfl
@[simp] theorem finish_cbuf (s : State) (c : Instr) : (s.finish c).cbuf = s.cbuf := by
  unfold State.finish; split <;> rfl
@[simp] theorem finish_scr (s : State) (c : Instr) : (s.finish c).scr = s.scr := by
  unfold State.finish; split <;> rfl
@[simp] theorem finish_timer (s : State) (c : Instr) : (s.finish c).timer = s.timer := by
  unfold State.finish; split <;> rfl
@[simp] theorem finish_lvl (s : State) (c : Instr) : (s.finish c).lvl = s.lvl := by
  unfold State.finish; split <;> rfl
@[simp] theorem finish_k (s : State) (c : Instr) : (s.finish c).k = s.k := by
  unfold State.finish; split <;> rfl
@[simp] theorem finish_n (s : State) (c : Instr) : (s.finish c).n = s.n := by
  unfold State.finish; split <;> rfl
@[simp] theorem finish_i (s : State) (c : Instr) : (s.finish c).i = s.i := by
  unfold State.finish; split <;> rfl
@[simp] theorem finish_j (s : State) (c : Instr) : (s.finish c).j = s.j := by
  unfold State.finish; split <;> rfl
@[simp] theorem finish_dir (s : State) (c : Instr) : (s.finish c).dir = s.dir := by
  unfold State.finish; split <;> rfl
@[simp] theorem finish_tc (s : State) (c : Instr) : (s.finish c).tc = s.tc := by
  unfold State.finish; split <;> rfl
@[simp] theorem finish_cmd (s : State) (c : Instr) : (s.finish c).cmd = s.cmd := by
  unfold State.finish; split <;> rfl
@[simp] theorem finish_fault (s : State) (c : Instr) : (s.finish c).fault = s.fault := by
  unfold State.finish; split <;> rfl
@[simp] theorem finish_wire (s : State) (c : Instr) : (s.finish c).wire = s.wire := by
  unfold State.finish; split <;> rfl
@[simp] theorem finish_agenda (s : State) (c : Instr) : (s.finish c).agenda = s.agenda := by
  unfold State.finish; split <;> rfl
@[simp] theorem finish_pace (s : State) (c : Instr) : (s.finish c).pace = s.pace := by
  unfold State.finish; split <;> rfl
@[simp] theorem finish_unitsLeft (s : State) (c : Instr) : (s.finish c).unitsLeft = s.unitsLeft := by
  unfold State.finish; split <;> rfl
@[simp] theorem finish_draws (s : State) (c : Instr) : (s.finish c).draws = s.draws := by
  unfold State.finish; split <;> rfl

/-! ### `hang`: the fields it leaves -/

@[simp] theorem hang_cfg (s : State) : (s.hang).cfg = s.cfg := by
  unfold State.hang; split <;> rfl
@[simp] theorem hang_cbuf (s : State) : (s.hang).cbuf = s.cbuf := by
  unfold State.hang; split <;> rfl
@[simp] theorem hang_scr (s : State) : (s.hang).scr = s.scr := by
  unfold State.hang; split <;> rfl
@[simp] theorem hang_lvl (s : State) : (s.hang).lvl = s.lvl := by
  unfold State.hang; split <;> rfl
@[simp] theorem hang_k (s : State) : (s.hang).k = s.k := by
  unfold State.hang; split <;> rfl
@[simp] theorem hang_off (s : State) : (s.hang).off = s.off := by
  unfold State.hang; split <;> rfl
@[simp] theorem hang_n (s : State) : (s.hang).n = s.n := by
  unfold State.hang; split <;> rfl
@[simp] theorem hang_i (s : State) : (s.hang).i = s.i := by
  unfold State.hang; split <;> rfl
@[simp] theorem hang_j (s : State) : (s.hang).j = s.j := by
  unfold State.hang; split <;> rfl
@[simp] theorem hang_dir (s : State) : (s.hang).dir = s.dir := by
  unfold State.hang; split <;> rfl
@[simp] theorem hang_tc (s : State) : (s.hang).tc = s.tc := by
  unfold State.hang; split <;> rfl
@[simp] theorem hang_cmd (s : State) : (s.hang).cmd = s.cmd := by
  unfold State.hang; split <;> rfl
@[simp] theorem hang_upc (s : State) : (s.hang).upc = s.upc := by
  unfold State.hang; split <;> rfl
@[simp] theorem hang_busy (s : State) : (s.hang).busy = s.busy := by
  unfold State.hang; split <;> rfl
@[simp] theorem hang_fault (s : State) : (s.hang).fault = s.fault := by
  unfold State.hang; split <;> rfl
@[simp] theorem hang_wire (s : State) : (s.hang).wire = s.wire := by
  unfold State.hang; split <;> rfl
@[simp] theorem hang_agenda (s : State) : (s.hang).agenda = s.agenda := by
  unfold State.hang; split <;> rfl
@[simp] theorem hang_pace (s : State) : (s.hang).pace = s.pace := by
  unfold State.hang; split <;> rfl
@[simp] theorem hang_draws (s : State) : (s.hang).draws = s.draws := by
  unfold State.hang; split <;> rfl

/-! ### `setColor`: the fields it leaves -/

@[simp] theorem setColor_cfg (s : State) (a : Nat) (c : Color) : (s.setColor a c).cfg = s.cfg := by
  unfold State.setColor; split <;> rfl
@[simp] theorem setColor_scr (s : State) (a : Nat) (c : Color) : (s.setColor a c).scr = s.scr := by
  unfold State.setColor; split <;> rfl
@[simp] theorem setColor_timer (s : State) (a : Nat) (c : Color) : (s.setColor a c).timer = s.timer := by
  unfold State.setColor; split <;> rfl
@[simp] theorem setColor_lvl (s : State) (a : Nat) (c : Color) : (s.setColor a c).lvl = s.lvl := by
  unfold State.setColor; split <;> rfl
@[simp] theorem setColor_k (s : State) (a : Nat) (c : Color) : (s.setColor a c).k = s.k := by
  unfold State.setColor; split <;> rfl
@[simp] theorem setColor_off (s : State) (a : Nat) (c : Color) : (s.setColor a c).off = s.off := by
  unfold State.setColor; split <;> rfl
@[simp] theorem setColor_n (s : State) (a : Nat) (c : Color) : (s.setColor a c).n = s.n := by
  unfold State.setColor; split <;> rfl
@[simp] theorem setColor_i (s : State) (a : Nat) (c : Color) : (s.setColor a c).i = s.i := by
  unfold State.setColor; split <;> rfl
@[simp] theorem setColor_j (s : State) (a : Nat) (c : Color) : (s.setColor a c).j = s.j := by
  unfold State.setColor; split <;> rfl
@[simp] theorem setColor_dir (s : State) (a : Nat) (c : Color) : (s.setColor a c).dir = s.dir := by
  unfold State.setColor; split <;> rfl
@[simp] theorem setColor_tc (s : State) (a : Nat) (c : Color) : (s.setColor a c).tc = s.tc := by
  unfold State.setColor; split <;> rfl
@[simp] theorem setColor_cmd (s : State) (a : Nat) (c : Color) : (s.setColor a c).cmd = s.cmd := by
  unfold State.setColor; split <;> rfl
@[simp] theorem setColor_upc (s : State) (a : Nat) (c : Color) : (s.setColor a c).upc = s.upc := by
  unfold State.setColor; split <;> rfl
@[simp] theorem setColor_agenda (s : State) (a : Nat) (c : Color) : (s.setColor a c).agenda = s.agenda := by
  unfold State.setColor; split <;> rfl
@[simp] theorem setColor_pace (s : State) (a : Nat) (c : Color) : (s.setColor a c).pace = s.pace := by
  unfold State.setColor; split <;> rfl
@[simp] theorem setColor_unitsLeft (s : State) (a : Nat) (c : Color) : (s.setColor a c).unitsLeft = s.unitsLeft := by
  unfold State.setColor; split <;> rfl
@[simp] theorem setColor_draws (s : State) (a : Nat) (c : Color) : (s.setColor a c).draws = s.draws := by
  unfold State.setColor; split <;> rfl

/-! ### The fields the remaining operations write -/

@[simp] theorem finish_busy (s : State) (c : Instr) : (s.finish c).busy = false := by
  unfold State.finish; split <;> rfl

@[simp] theorem finish_upc (s : State) (c : Instr) : (s.finish c).upc = 0 := by
  unfold State.finish; split <;> rfl

@[simp] theorem accept_busy (s : State) (w : CommandWord) : (s.accept w).busy = true := by
  unfold State.accept; split <;> simp_all

theorem accept_of_idle {s : State} (h : s.busy = false) (w : CommandWord) :
    s.accept w = { s with cmd := w, busy := true, upc := 0 } := by
  simp [State.accept, h]

theorem accept_of_busy {s : State} (h : s.busy = true) (w : CommandWord) : s.accept w = s := by
  simp [State.accept, h]

end Sys2Proof.Machine
end

