-- ==== Sys2Proof/Laws/Memory.lean ====
section
/-!
SUPPORT. The laws of the memories: a read after a write, that a write leaves every other place alone, and that every
memory operation keeps the canonical form.
-/

namespace Sys2Proof.Machine

variable {α : Type}

/-! ## Reading a list of entries -/

@[simp] theorem find_nil (a : Nat) : Memory.find a ([] : List (Nat × α)) = none := rfl

theorem find_insert (a b : Nat) (v : α) (m : List (Nat × α)) :
    Memory.find b (Memory.insert a v m) = if b = a then some v else Memory.find b m := by
  induction m with
  | nil => simp [Memory.insert, Memory.find]
  | cons p m ih =>
    obtain ⟨c, w⟩ := p
    by_cases hac : a < c
    · simp [Memory.insert, hac, Memory.find]
    · by_cases hc : a = c
      · subst hc
        by_cases hb : b = a <;> simp [Memory.insert, Memory.find, hb]
      · simp only [Memory.insert, hac, hc, if_false, Memory.find, ih]
        by_cases hb : b = c
        · simp [hb, Ne.symm hc]
        · simp [hb]

theorem find_erase (a b : Nat) (m : List (Nat × α)) :
    Memory.find b (Memory.erase a m) = if b = a then none else Memory.find b m := by
  induction m with
  | nil => simp [Memory.erase]
  | cons p m ih =>
    obtain ⟨c, w⟩ := p
    by_cases hc : a = c
    · subst hc
      simp only [Memory.erase, if_true, ih, Memory.find]
      by_cases hb : b = a <;> simp [hb]
    · simp only [Memory.erase, hc, if_false, Memory.find, ih]
      by_cases hb : b = c
      · simp [hb, Ne.symm hc]
      · simp [hb]

/-- An index that is listed in no entry reads as nothing. -/
theorem find_eq_none {a : Nat} {m : List (Nat × α)} (h : a ∉ m.map Prod.fst) : Memory.find a m = none := by
  induction m with
  | nil => rfl
  | cons p m ih =>
    obtain ⟨c, w⟩ := p
    simp only [List.map_cons, List.mem_cons, not_or] at h
    simp [Memory.find, h.1, ih h.2]

/-- A listed index reads as something. -/
theorem find_isSome {a : Nat} {m : List (Nat × α)} (h : a ∈ m.map Prod.fst) : (Memory.find a m).isSome := by
  induction m with
  | nil => simp at h
  | cons p m ih =>
    obtain ⟨c, w⟩ := p
    by_cases hc : a = c
    · simp [Memory.find, hc]
    · have : a ∈ m.map Prod.fst := by simpa [hc] using h
      simp [Memory.find, hc, ih this]

/-! ## The canonical form -/

theorem mem_insert {a : Nat} {v : α} {m : List (Nat × α)} {p : Nat × α} (h : p ∈ Memory.insert a v m) :
    p = (a, v) ∨ p ∈ m := by
  induction m with
  | nil => simpa [Memory.insert] using h
  | cons q m ih =>
    obtain ⟨c, w⟩ := q
    unfold Memory.insert at h
    split at h
    · simpa using h
    · split at h
      · rcases List.mem_cons.mp h with h | h
        · exact .inl h
        · exact .inr (List.mem_cons_of_mem _ h)
      · rcases List.mem_cons.mp h with h | h
        · exact .inr (by simp [h])
        · exact (ih h).imp id (List.mem_cons_of_mem _)

theorem mem_erase {a : Nat} {m : List (Nat × α)} {p : Nat × α} (h : p ∈ Memory.erase a m) : p ∈ m := by
  induction m with
  | nil => simp [Memory.erase] at h
  | cons q m ih =>
    obtain ⟨c, w⟩ := q
    unfold Memory.erase at h
    split at h
    · exact List.mem_cons_of_mem _ (ih h)
    · rcases List.mem_cons.mp h with h | h
      · simp [h]
      · exact List.mem_cons_of_mem _ (ih h)

theorem insert_rising {a : Nat} {v : α} {m : List (Nat × α)} (h : (m.map Prod.fst).Pairwise (· < ·)) :
    ((Memory.insert a v m).map Prod.fst).Pairwise (· < ·) := by
  induction m with
  | nil => simp [Memory.insert]
  | cons q m ih =>
    obtain ⟨c, w⟩ := q
    simp only [List.map_cons, List.pairwise_cons] at h
    unfold Memory.insert
    split
    · rename_i hac
      simp only [List.map_cons, List.pairwise_cons, List.mem_cons]
      refine ⟨?_, h.1, h.2⟩
      rintro b (rfl | hb)
      · exact hac
      · exact Nat.lt_trans hac (h.1 b hb)
    · split
      · rename_i hac
        subst hac
        simpa using h
      · rename_i h1 h2
        simp only [List.map_cons, List.pairwise_cons]
        refine ⟨?_, ih h.2⟩
        intro b hb
        obtain ⟨p, hp, rfl⟩ := List.mem_map.mp hb
        rcases mem_insert hp with rfl | hp
        · simp only; omega
        · exact h.1 _ (List.mem_map_of_mem hp)

theorem erase_rising {a : Nat} {m : List (Nat × α)} (h : (m.map Prod.fst).Pairwise (· < ·)) :
    ((Memory.erase a m).map Prod.fst).Pairwise (· < ·) := by
  induction m with
  | nil => simp [Memory.erase]
  | cons q m ih =>
    obtain ⟨c, w⟩ := q
    simp only [List.map_cons, List.pairwise_cons] at h
    unfold Memory.erase
    split
    · exact ih h.2
    · simp only [List.map_cons, List.pairwise_cons]
      refine ⟨?_, ih h.2⟩
      intro b hb
      obtain ⟨p, hp, rfl⟩ := List.mem_map.mp hb
      exact h.1 _ (List.mem_map_of_mem (mem_erase hp))

theorem insert_wf {listed : Nat → α → Bool} {a : Nat} {v : α} {m : List (Nat × α)} (h : Memory.wf listed m)
    (hv : listed a v = true) : Memory.wf listed (Memory.insert a v m) := by
  refine ⟨insert_rising h.1, fun p hp => ?_⟩
  rcases mem_insert hp with rfl | hp
  · exact hv
  · exact h.2 p hp

theorem erase_wf {listed : Nat → α → Bool} {a : Nat} {m : List (Nat × α)} (h : Memory.wf listed m) :
    Memory.wf listed (Memory.erase a m) :=
  ⟨erase_rising h.1, fun p hp => h.2 p (mem_erase hp)⟩

/-- Writing a listed index keeps the list of indices. -/
theorem insert_keys {a : Nat} {v : α} {m : List (Nat × α)} (h : (m.map Prod.fst).Pairwise (· < ·))
    (ha : a ∈ m.map Prod.fst) : (Memory.insert a v m).map Prod.fst = m.map Prod.fst := by
  induction m with
  | nil => simp at ha
  | cons q m ih =>
    obtain ⟨c, w⟩ := q
    simp only [List.map_cons, List.pairwise_cons, List.mem_cons] at h ha
    unfold Memory.insert
    split
    · rename_i hac
      rcases ha with rfl | ha
      · omega
      · have := h.1 a ha; omega
    · split
      · rename_i hac; simp [hac]
      · rename_i h1 h2
        rcases ha with rfl | ha
        · exact absurd rfl h2
        · simp [ih h.2 ha]

/-! ## The colour buffer -/

theorem find_putColor (a b : Nat) (c : Color) (m : List (Nat × Color)) :
    (Memory.find b (putColor a c m)).getD .black = if b = a then c else (Memory.find b m).getD .black := by
  unfold putColor
  split
  · rename_i h; rw [find_erase]; split <;> simp [h]
  · rw [find_insert]; split <;> simp

/-- A read after a write of the colour buffer (20_memory.md R61). -/
theorem readColor_writeColor (s : State) (a b : Nat) (c : Color) :
    (s.writeColor a c).readColor b = if b = a then c else s.readColor b :=
  find_putColor a b c s.cbuf

theorem find_putColors (c : Color) (n b : Nat) (m : List (Nat × Color)) :
    (Memory.find b (putColors c n m)).getD .black = if b < n then c else (Memory.find b m).getD .black := by
  induction n with
  | zero => simp [putColors]
  | succ n ih =>
    rw [putColors, find_putColor, ih]
    by_cases hb : b = n
    · simp [hb]
    · by_cases hn : b < n
      · simp [hb, hn, Nat.lt_succ_of_lt hn]
      · have : ¬ b < n + 1 := by omega
        simp [hb, hn, this]

/-- A read after FILL's write (42_logical_strip.md R161). -/
theorem readColor_fillColors (s : State) (b : Nat) (c : Color) :
    (s.fillColors c).readColor b = if b < s.cfg.cbufLen then c else s.readColor b :=
  find_putColors c s.cfg.cbufLen b s.cbuf

theorem putColor_wf {k : Cfg} {a : Nat} {c : Color} {m : List (Nat × Color)} (h : Memory.wf (listedColor k) m)
    (ha : a < k.cbufLen) : Memory.wf (listedColor k) (putColor a c m) := by
  unfold putColor
  split
  · exact erase_wf h
  · rename_i hc; exact insert_wf h (by simp [listedColor, ha, hc])

theorem putColors_wf {k : Cfg} {n : Nat} {c : Color} {m : List (Nat × Color)} (h : Memory.wf (listedColor k) m)
    (hn : n ≤ k.cbufLen) : Memory.wf (listedColor k) (putColors c n m) := by
  induction n with
  | zero => exact h
  | succ n ih => exact putColor_wf (ih (by omega)) (by omega)

/-! ## The scratch buffer -/

theorem find_putBytes (a b : Nat) (bs : List Byte) (m : List Host.Cell) :
    Memory.find b (putBytes a bs m) = if a ≤ b ∧ b < a + bs.length then bs[b - a]? else Memory.find b m := by
  induction bs generalizing a m with
  | nil =>
    have h : ¬ (a ≤ b ∧ b < a + ([] : List Byte).length) := by simp
    rw [putBytes, if_neg h]
  | cons x bs ih =>
    rw [putBytes, ih, find_insert]
    by_cases h1 : b = a
    · have h2 : ¬ (a + 1 ≤ b ∧ b < a + 1 + bs.length) := by omega
      have h3 : a ≤ b ∧ b < a + (x :: bs).length := by simp; omega
      rw [if_neg h2, if_pos h1, if_pos h3]
      simp [h1]
    · by_cases h2 : a + 1 ≤ b ∧ b < a + 1 + bs.length
      · have h3 : a ≤ b ∧ b < a + (x :: bs).length := by simp; omega
        have h4 : b - a = (b - (a + 1)) + 1 := by omega
        rw [if_pos h2, if_pos h3, h4, List.getElem?_cons_succ]
      · have h3 : ¬ (a ≤ b ∧ b < a + (x :: bs).length) := by simp; omega
        rw [if_neg h2, if_neg h3, if_neg h1]

/-- A read after ENC's write: the written bytes first, every other byte as it was (10_state.md R25). -/
theorem readByte_writeBytes (s : State) (b : Nat) (out : List Byte) :
    (s.writeBytes out).readByte b = if h : b < out.length then out[b] else s.readByte b := by
  unfold State.readByte
  rw [writeBytes_scr, find_putBytes]
  by_cases h : b < out.length
  · simp [h]
  · simp [h]

theorem putBytes_wf {k : Cfg} {a : Nat} {bs : List Byte} {m : List Host.Cell} (h : Memory.wf (listedByte k) m)
    (ha : a + bs.length ≤ k.scratchBytes) : Memory.wf (listedByte k) (putBytes a bs m) := by
  induction bs generalizing a m with
  | nil => exact h
  | cons x bs ih =>
    simp only [List.length_cons] at ha
    exact ih (insert_wf h (by simp [listedByte]; omega)) (by omega)

/-- The memories right after reset list nothing and have the canonical form. -/
theorem reset_memories_wf : Memory.wf (listedColor State.reset.cfg) State.reset.cbuf ∧
    Memory.wf (listedByte State.reset.cfg) State.reset.scr := by
  simp [State.reset, State.powerUp, Memory.wf]

end Sys2Proof.Machine
end

