-- ==== Sys2Proof/Laws/Timer.lean ====
section
/-!
SUPPORT. The timer: what its steps leave, its closed form at the two places where a match can come, and what time passing
does.
-/

namespace Sys2Proof.Machine

@[simp] theorem advance_en (t : Timer) (n : Nat) : (t.advance n).en = t.en := by
  unfold Timer.advance; split <;> [split; skip] <;> rfl

@[simp] theorem advance_mie (t : Timer) (n : Nat) : (t.advance n).mie = t.mie := by
  unfold Timer.advance; split <;> [split; skip] <;> rfl

@[simp] theorem advance_period (t : Timer) (n : Nat) : (t.advance n).period = t.period := by
  unfold Timer.advance; split <;> [split; skip] <;> rfl

@[simp] theorem step_en (t : Timer) : t.step.en = t.en := by
  unfold Timer.step; split <;> [split; skip] <;> rfl

@[simp] theorem step_mie (t : Timer) : t.step.mie = t.mie := by
  unfold Timer.step; split <;> [split; skip] <;> rfl

@[simp] theorem step_period (t : Timer) : t.step.period = t.period := by
  unfold Timer.step; split <;> [split; skip] <;> rfl

theorem stepsToMatch_pos (t : Timer) : 0 < t.stepsToMatch := Nat.succ_pos _

theorem cycle_pos (t : Timer) : 0 < t.cycle := Nat.succ_pos _

/-- A stopped timer stays as it is (40_timer_pin_surface.md R120). -/
theorem advance_stopped {t : Timer} (h : t.en = false) (n : Nat) : t.advance n = t := by
  simp [Timer.advance, h]

/-- No time at all. -/
@[simp] theorem advance_zero (t : Timer) : t.advance 0 = t := by
  unfold Timer.advance
  split
  · simp [stepsToMatch_pos]
  · rfl

/-- Time that reaches the next match sets T_MATCH. -/
theorem advance_matched {t : Timer} (h : t.en = true) {n : Nat} (hn : t.stepsToMatch ≤ n) :
    (t.advance n).matched = true := by
  simp [Timer.advance, h, Nat.not_lt.mpr hn]

/-- Time that does not reach the next match leaves T_MATCH. -/
theorem advance_unmatched {t : Timer} {n : Nat} (hn : n < t.stepsToMatch) :
    (t.advance n).matched = t.matched := by
  unfold Timer.advance; split <;> simp_all

/-- A pending match is not lost by time (20_memory.md R80). -/
theorem advance_keeps_match {t : Timer} (h : t.matched = true) (n : Nat) : (t.advance n).matched = true := by
  unfold Timer.advance; split <;> [split; skip] <;> simp [h]

/-- A match counted from an ARM comes after exactly one period (40_timer_pin_surface.md R121, R128). -/
theorem armed_stepsToMatch {p : Word32} (h : p ≠ 0#32) : (Timer.armed p).stepsToMatch = p.toNat := by
  have h0 : 0 < p.toNat := Nat.pos_of_ne_zero fun h' => h (BitVec.eq_of_toNat_eq (by simpa using h'))
  have := p.isLt
  simp only [Timer.stepsToMatch, Timer.armed, BitVec.sub_zero, BitVec.toNat_sub, BitVec.toNat_ofNat]
  omega

/-- Under TIMER_LIVE every time unit is granted. -/
@[simp] theorem grantedUnits_none (n : Nat) : grantedUnits none n = n := rfl

/-- A time budget that is large enough is granted. -/
theorem grantedUnits_of_le {b n : Nat} (h : n ≤ b) : grantedUnits (some b) n = n := Nat.min_eq_left h

@[simp] theorem pass_zero (s : State) : s.pass 0 = s := by
  obtain ⟨_, _, _, _, _, _, _, _, _, _, _, _, _, _, _, _, _, _, _, unitsLeft, _⟩ := s
  cases unitsLeft <;> simp [State.pass, grantedUnits]

end Sys2Proof.Machine
end

