-- ==== Sys2Proof/Laws/Sequencer.lean ====
section
/-!
SUPPORT. What a micro-operation leaves, what one turn of the sequencer's loop can do, and the induction over the loop, said
once: a property that slots, time, micro-operations and completion keep is kept by a whole command.
-/

namespace Sys2Proof.Machine

/-! ## Micro-operations -/

@[simp] theorem encodeStrip_cfg (s : State) (q : Nat) (d : Direction) : (s.encodeStrip q d).cfg = s.cfg := by
  unfold State.encodeStrip; split <;> [rfl; (dsimp only; split <;> rfl)]

@[simp] theorem encodeStrip_cbuf (s : State) (q : Nat) (d : Direction) : (s.encodeStrip q d).cbuf = s.cbuf := by
  unfold State.encodeStrip; split <;> [rfl; (dsimp only; split <;> rfl)]

@[simp] theorem encodeStrip_timer (s : State) (q : Nat) (d : Direction) : (s.encodeStrip q d).timer = s.timer := by
  unfold State.encodeStrip; split <;> [rfl; (dsimp only; split <;> rfl)]

@[simp] theorem encodeStrip_lvl (s : State) (q : Nat) (d : Direction) : (s.encodeStrip q d).lvl = s.lvl := by
  unfold State.encodeStrip; split <;> [rfl; (dsimp only; split <;> rfl)]

@[simp] theorem encodeStrip_upc (s : State) (q : Nat) (d : Direction) : (s.encodeStrip q d).upc = s.upc := by
  unfold State.encodeStrip; split <;> [rfl; (dsimp only; split <;> rfl)]

@[simp] theorem encodeStrip_cmd (s : State) (q : Nat) (d : Direction) : (s.encodeStrip q d).cmd = s.cmd := by
  unfold State.encodeStrip; split <;> [rfl; (dsimp only; split <;> rfl)]

@[simp] theorem encodeStrip_pace (s : State) (q : Nat) (d : Direction) : (s.encodeStrip q d).pace = s.pace := by
  unfold State.encodeStrip; split <;> [rfl; (dsimp only; split <;> rfl)]

@[simp] theorem encodeStrip_unitsLeft (s : State) (q : Nat) (d : Direction) :
    (s.encodeStrip q d).unitsLeft = s.unitsLeft := by
  unfold State.encodeStrip; split <;> [rfl; (dsimp only; split <;> rfl)]

@[simp] theorem encodeStrip_agenda (s : State) (q : Nat) (d : Direction) : (s.encodeStrip q d).agenda = s.agenda := by
  unfold State.encodeStrip; split <;> [rfl; (dsimp only; split <;> rfl)]

@[simp] theorem encodeStrip_draws (s : State) (q : Nat) (d : Direction) : (s.encodeStrip q d).draws = s.draws := by
  unfold State.encodeStrip; split <;> [rfl; (dsimp only; split <;> rfl)]

@[simp] theorem perform_cfg (m : Micro) (s : State) : (m.perform s).cfg = s.cfg := by
  cases m <;> simp [Micro.perform]

@[simp] theorem perform_upc (m : Micro) (s : State) : (m.perform s).upc = s.upc := by
  cases m <;> simp [Micro.perform]

@[simp] theorem perform_cmd (m : Micro) (s : State) : (m.perform s).cmd = s.cmd := by
  cases m <;> simp [Micro.perform]

@[simp] theorem perform_pace (m : Micro) (s : State) : (m.perform s).pace = s.pace := by
  cases m <;> simp [Micro.perform]

@[simp] theorem perform_unitsLeft (m : Micro) (s : State) : (m.perform s).unitsLeft = s.unitsLeft := by
  cases m <;> simp [Micro.perform]

@[simp] theorem perform_agenda (m : Micro) (s : State) : (m.perform s).agenda = s.agenda := by
  cases m <;> simp [Micro.perform]

@[simp] theorem perform_draws (m : Micro) (s : State) : (m.perform s).draws = s.draws := by
  cases m <;> simp [Micro.perform]

/-- The micro-operations that write the colour buffer (10_state.md R24). -/
def Micro.writesColors : Micro → Bool
  | .setColor _ _ => true
  | .fillAll _ => true
  | .arm _ | .wait | .setl _ | .seth _ | .encode _ _ => false

/-- The micro-operations that write the scratch buffer (10_state.md R25). -/
def Micro.writesScratch : Micro → Bool
  | .encode _ _ => true
  | .arm _ | .wait | .setl _ | .seth _ | .setColor _ _ | .fillAll _ => false

/-- The line a micro-operation writes, if any (10_state.md R27). -/
def Micro.lineWritten : Micro → Option Nat
  | .setl id => some id
  | .seth id => some id
  | .arm _ | .wait | .encode _ _ | .setColor _ _ | .fillAll _ => none

theorem perform_cbuf {m : Micro} (h : m.writesColors = false) (s : State) : (m.perform s).cbuf = s.cbuf := by
  cases m with
  | setColor => cases h
  | fillAll => cases h
  | _ => simp [Micro.perform]

theorem perform_scr {m : Micro} (h : m.writesScratch = false) (s : State) : (m.perform s).scr = s.scr := by
  cases m with
  | encode => cases h
  | _ => simp [Micro.perform]

/-- A line write leaves every other latch (40_timer_pin_surface.md R123). -/
theorem setLine_level {id q : Nat} (h : q ≠ id) (l : Bool) (s : State) : (s.setLine q l).level id = s.level id := by
  unfold State.setLine State.level
  split
  · rfl
  · rfl
  · exact (find_insert q id l s.lvl).trans (if_neg (Ne.symm h))

/-- A micro-operation leaves every latch but that of the line it writes. -/
theorem perform_level {m : Micro} {id : Nat} (h : m.lineWritten ≠ some id) (s : State) :
    (m.perform s).level id = s.level id := by
  cases m with
  | setl q => exact setLine_level (fun e => h (by simp [Micro.lineWritten, e])) _ s
  | seth q => exact setLine_level (fun e => h (by simp [Micro.lineWritten, e])) _ s
  | _ => simp [Micro.perform, State.level]

/-! ## The loop -/

/-- What the state at a held WAIT or an enabled micro-operation has to do with the one before: only time passed. -/
theorem enabledState_eq {m : Micro} {s t : State} (h : m.enabledState s = some t) : ∃ u, t = s.pass u := by
  cases m with
  | wait =>
    obtain ⟨u, -, rfl⟩ := Option.map_eq_some_iff.mp h
    exact ⟨u, rfl⟩
  | _ => exact ⟨0, by simpa using (Option.some.inj h).symm⟩

theorem hang_eq (s : State) : ∃ u, s.hang = s.pass u := by
  unfold State.hang
  split
  · exact ⟨_, rfl⟩
  · exact ⟨0, by simp⟩

/-- One turn of the loop: it pauses, holds, ends fatally or goes on. -/
theorem drive_cases (c : Instr) (m : Micro) (rest : List Micro) (s : State) :
    (s.nextSlot.isPause = true ∧ drive c (m :: rest) s = s.takeSlot) ∨
    (s.nextSlot.isPause = false ∧ m.enabledState s.takeSlot = none ∧ drive c (m :: rest) s = s.takeSlot.hang) ∨
    (∃ t, s.nextSlot.isPause = false ∧ m.enabledState s.takeSlot = some t ∧ (m.perform t).fault ≠ .noFault ∧
      drive c (m :: rest) s = m.perform t) ∨
    (∃ t, s.nextSlot.isPause = false ∧ m.enabledState s.takeSlot = some t ∧ (m.perform t).fault = .noFault ∧
      drive c (m :: rest) s = drive c rest (State.trackTransmit c rest { m.perform t with upc := t.upc + 1 })) := by
  cases hp : s.nextSlot.isPause with
  | true => simp [drive, hp]
  | false =>
    cases he : m.enabledState s.takeSlot with
    | none => simp [drive, hp, he]
    | some t =>
      by_cases hf : (m.perform t).fault = .noFault
      · exact .inr (.inr (.inr ⟨t, rfl, rfl, hf, by simp [drive, hp, he, hf]⟩))
      · exact .inr (.inr (.inl ⟨t, rfl, rfl, hf, by simp [drive, hp, he, hf]⟩))

/-- The induction over the loop: what slots, time, the micro-operations of the list, tracking and completion keep, a whole
command keeps, however it ends. -/
theorem drive_keeps (P : State → Prop) (c : Instr) (hslot : ∀ s, P s → P s.takeSlot) (hpass : ∀ u s, P s → P (s.pass u))
    (hgo : ∀ r u s, P s → P (State.trackTransmit c r { s with upc := u })) (hfin : ∀ s, P s → P (s.finish c)) (ops : List Micro)
    (hperform : ∀ m ∈ ops, ∀ s, P s → P (m.perform s)) (s : State) (hs : P s) : P (drive c ops s) := by
  induction ops generalizing s with
  | nil => exact hfin s hs
  | cons m rest ih =>
    have hm := hperform m (by simp)
    rcases drive_cases c m rest s with ⟨-, h⟩ | ⟨-, -, h⟩ | ⟨t, -, he, -, h⟩ | ⟨t, -, he, -, h⟩
    · exact h ▸ hslot s hs
    · obtain ⟨u, hu⟩ := hang_eq s.takeSlot
      exact h ▸ hu ▸ hpass u _ (hslot s hs)
    · obtain ⟨u, rfl⟩ := enabledState_eq he
      exact h ▸ hm _ (hpass u _ (hslot s hs))
    · obtain ⟨u, rfl⟩ := enabledState_eq he
      rw [h]
      exact ih (fun m hm => hperform m (by simp [hm])) _ (hgo _ _ _ (hm _ (hpass u _ (hslot s hs))))

@[simp] theorem drive_cfg (c : Instr) (ops : List Micro) (s : State) : (drive c ops s).cfg = s.cfg :=
  drive_keeps (fun t => t.cfg = s.cfg) c (fun _ h => h) (fun _ _ h => h) (fun _ _ t h => by simpa using h)
    (fun t h => by simpa using h) ops (fun m _ t h => by simpa using h) s rfl

@[simp] theorem drive_draws (c : Instr) (ops : List Micro) (s : State) : (drive c ops s).draws = s.draws :=
  drive_keeps (fun t => t.draws = s.draws) c (fun _ h => h) (fun _ _ h => h) (fun _ _ t h => by simpa using h)
    (fun t h => by simpa using h) ops (fun m _ t h => by simpa using h) s rfl

@[simp] theorem drive_agenda (c : Instr) (ops : List Micro) (s : State) : (drive c ops s).agenda = s.agenda :=
  drive_keeps (fun t => t.agenda = s.agenda) c (fun _ h => h) (fun _ _ h => h) (fun _ _ t h => by simpa using h)
    (fun t h => by simpa using h) ops (fun m _ t h => by simpa using h) s rfl

@[simp] theorem drive_cmd (c : Instr) (ops : List Micro) (s : State) : (drive c ops s).cmd = s.cmd :=
  drive_keeps (fun t => t.cmd = s.cmd) c (fun _ h => h) (fun _ _ h => h) (fun _ _ t h => by simpa using h)
    (fun t h => by simpa using h) ops (fun m _ t h => by simpa using h) s rfl

/-- A command none of whose micro-operations writes the colour buffer leaves it. -/
theorem drive_cbuf (c : Instr) {ops : List Micro} (h : ∀ m ∈ ops, m.writesColors = false) (s : State) :
    (drive c ops s).cbuf = s.cbuf :=
  drive_keeps (fun t => t.cbuf = s.cbuf) c (fun _ h => h) (fun _ _ h => h) (fun _ _ t h => by simpa using h)
    (fun t h => by simpa using h) ops (fun m hm t ht => (perform_cbuf (h m hm) t).trans ht) s rfl

/-- A command none of whose micro-operations writes the scratch buffer leaves it. -/
theorem drive_scr (c : Instr) {ops : List Micro} (h : ∀ m ∈ ops, m.writesScratch = false) (s : State) :
    (drive c ops s).scr = s.scr :=
  drive_keeps (fun t => t.scr = s.scr) c (fun _ h => h) (fun _ _ h => h) (fun _ _ t h => by simpa using h)
    (fun t h => by simpa using h) ops (fun m hm t ht => (perform_scr (h m hm) t).trans ht) s rfl

/-- A command leaves every latch but those of the lines its micro-operations write. -/
theorem drive_level (c : Instr) {ops : List Micro} {id : Nat} (h : ∀ m ∈ ops, m.lineWritten ≠ some id) (s : State) :
    (drive c ops s).level id = s.level id :=
  drive_keeps (fun t => t.level id = s.level id) c (fun _ h => h) (fun _ _ h => h)
    (fun _ _ t h => by simpa [State.level] using h) (fun t h => by simpa [State.level] using h) ops
    (fun m hm t ht => (perform_level (h m hm) t).trans ht) s rfl

/-! ## Commands that nothing stops -/

/-- Nothing stops the sequencer between two micro-operations: no pausing slot, and the timer agent steps without bound
(TIMER_LIVE, 40_timer_pin_surface.md R133). -/
structure State.Calm (s : State) : Prop where
  live : s.unitsLeft = none
  steady : s.unpaused = true

/-- What time passing, tracking, line writes, ARM and WAIT all leave. -/
structure Carried (s t : State) : Prop where
  cfg : t.cfg = s.cfg
  cbuf : t.cbuf = s.cbuf
  scr : t.scr = s.scr
  k : t.k = s.k
  off : t.off = s.off
  n : t.n = s.n
  i : t.i = s.i
  dir : t.dir = s.dir
  cmd : t.cmd = s.cmd
  busy : t.busy = s.busy
  fault : t.fault = s.fault
  agenda : t.agenda = s.agenda
  draws : t.draws = s.draws

theorem Carried.refl (s : State) : Carried s s := ⟨rfl, rfl, rfl, rfl, rfl, rfl, rfl, rfl, rfl, rfl, rfl, rfl, rfl⟩

theorem Carried.trans {s t u : State} (h : Carried s t) (g : Carried t u) : Carried s u :=
  ⟨g.cfg.trans h.cfg, g.cbuf.trans h.cbuf, g.scr.trans h.scr, g.k.trans h.k, g.off.trans h.off, g.n.trans h.n,
    g.i.trans h.i, g.dir.trans h.dir, g.cmd.trans h.cmd, g.busy.trans h.busy, g.fault.trans h.fault,
    g.agenda.trans h.agenda, g.draws.trans h.draws⟩

theorem State.Calm.takeSlot {s : State} (h : s.Calm) : s.takeSlot.Calm := by
  refine ⟨by simp [h.live], ?_⟩
  have h2 := h.steady
  unfold State.unpaused at h2 ⊢
  rw [takeSlot_pace]
  cases hp : s.pace with
  | nil => simp
  | cons x xs => simp [hp] at h2; simpa using h2.2

theorem State.Calm.not_pause {s : State} (h : s.Calm) : s.nextSlot.isPause = false := by
  have h2 := h.steady
  unfold State.unpaused at h2
  unfold State.nextSlot
  cases hp : s.pace with
  | nil => rfl
  | cons x xs => simp [hp] at h2; simpa using h2.1

/-- In a calm state whose timer counts or has matched, a WAIT is enabled sooner or later (40_timer_pin_surface.md
R122). -/
theorem State.Calm.wait_enabled {s : State} (h : s.Calm) (ht : s.timer.en = true ∨ s.timer.matched = true) :
    ∃ u, Micro.wait.enabledState s = some (s.pass u) := by
  cases hm : s.timer.matched with
  | true => exact ⟨0, by simp [Micro.enabledState, State.waitUnits, hm]⟩
  | false =>
    have he : s.timer.en = true := ht.resolve_right (by simp [hm])
    exact ⟨s.timer.stepsToMatch, by simp [Micro.enabledState, State.waitUnits, hm, he, h.live]⟩

/-- A turn of the loop that nothing stops. -/
theorem State.Calm.drive_cons {s t : State} (h : s.Calm) (c : Instr) {m : Micro} (rest : List Micro)
    (he : m.enabledState s.takeSlot = some t) (hf : (m.perform t).fault = .noFault) :
    drive c (m :: rest) s = drive c rest (State.trackTransmit c rest { m.perform t with upc := t.upc + 1 }) := by
  simp [drive, h.not_pause, he, hf]

end Sys2Proof.Machine
end

