-- ==== Sys2Proof/Laws/Transmit.lean ====
section
/-!
SUPPORT. What runs of WAIT, SETL and SETH do in a calm state whose timer counts: the shape of every transmit after its ARM
(41_physical_strip.md R147).
-/

namespace Sys2Proof.Machine

/-- A WAIT, or a write of a line that exists. -/
def Micro.plain (c : Cfg) : Micro → Bool
  | .wait => true
  | .setl id => id < c.nLines
  | .seth id => id < c.nLines
  | .arm _ | .encode _ _ | .setColor _ _ | .fillAll _ => false

/-- The event of a plain micro-operation (10_state.md R44). -/
def Micro.events (c : Cfg) : Micro → List Event
  | .wait => [.tick]
  | .setl id => setEvents c id false
  | .seth id => setEvents c id true
  | .arm p => [.arm p]
  | .encode _ _ | .setColor _ _ | .fillAll _ => []

/-- The latches after a plain micro-operation (10_state.md R27). -/
def Micro.latches (c : Cfg) (m : Micro) (l : List (Nat × Bool)) : List (Nat × Bool) :=
  match m with
  | .setl id => if c.driven id then Memory.insert id false l else l
  | .seth id => if c.driven id then Memory.insert id true l else l
  | .wait | .arm _ | .encode _ _ | .setColor _ _ | .fillAll _ => l

/-- What a calm run of micro-operations leaves: only time passing, line writes and events. -/
structure Ran (s t : State) (l : List (Nat × Bool)) (es : List Event) : Prop where
  carried : Carried s t
  calm : t.Calm
  en : t.timer.en = true
  mie : t.timer.mie = s.timer.mie
  period : t.timer.period = s.timer.period
  lvl : t.lvl = l
  wire : t.wire = s.wire ++ es

theorem Ran.refl {s : State} (h : s.Calm) (he : s.timer.en = true) : Ran s s s.lvl [] :=
  ⟨.refl s, h, he, rfl, rfl, rfl, by simp⟩

theorem Ran.trans {s t u : State} {l m : List (Nat × Bool)} {es fs : List Event} (h : Ran s t l es)
    (g : Ran t u m fs) : Ran s u m (es ++ fs) :=
  ⟨h.carried.trans g.carried, g.calm, g.en, g.mie.trans h.mie, g.period.trans h.period, g.lvl,
    by rw [g.wire, h.wire, List.append_assoc]⟩

/-- A line of the set is driven or a sink. -/
theorem line_cases {c : Cfg} {id : Nat} (h : id < c.nLines) :
    (c.lines[id]? = some .driven ∧ c.driven id = true) ∨ (c.lines[id]? = some .sink ∧ c.driven id = false) := by
  have : c.lines[id]? = some (c.lines[id]'h) := List.getElem?_eq_getElem h
  unfold Cfg.driven
  rw [this]
  cases c.lines[id]'h <;> simp

/-- One write of a line that exists. -/
theorem setLine_ran {s : State} {id : Nat} (h : id < s.cfg.nLines) (l : Bool) :
    s.setLine id l = { s with
      lvl := if s.cfg.driven id then Memory.insert id l s.lvl else s.lvl,
      wire := s.wire ++ setEvents s.cfg id l } := by
  rcases line_cases h with ⟨h1, h2⟩ | ⟨h1, h2⟩ <;> simp [State.setLine, setEvents, h1, h2]

theorem Carried.track {s t : State} (h : Carried s t) (c : Instr) (r : List Micro) (u : Nat) :
    Carried s (State.trackTransmit c r { t with upc := u }) :=
  ⟨by simpa using h.cfg, by simpa using h.cbuf, by simpa using h.scr, by simpa using h.k, by simpa using h.off,
    by simpa using h.n, by simpa using h.i, by simpa using h.dir, by simpa using h.cmd, by simpa using h.busy,
    by simpa using h.fault, by simpa using h.agenda, by simpa using h.draws⟩

/-- One plain micro-operation in a calm state whose timer counts: the loop goes on. -/
theorem plain_turn {s : State} (hc : s.Calm) (he : s.timer.en = true) (hf : s.fault = .noFault) {m : Micro}
    (hm : m.plain s.cfg = true) (c : Instr) (rest : List Micro) :
    ∃ t, drive c (m :: rest) s = drive c rest t ∧ Ran s t (m.latches s.cfg s.lvl) (m.events s.cfg) ∧
      (m = .wait → t.timer.matched = false) := by
  have hs := hc.takeSlot
  cases m with
  | wait =>
    obtain ⟨u, hu⟩ := hs.wait_enabled (.inl (by simpa using he))
    refine ⟨_, hc.drive_cons c rest hu (by simpa [Micro.perform] using hf), ⟨Carried.track ?_ c rest _, ⟨?_, ?_⟩, ?_, ?_, ?_,
      ?_, ?_⟩, ?_⟩
    · constructor <;> simp [Micro.perform]
    · simp [Micro.perform, hc.live]
    · simpa [State.unpaused] using hs.steady
    · simpa [Micro.perform, Timer.consume] using he
    · simp [Micro.perform, Timer.consume]
    · simp [Micro.perform, Timer.consume]
    · simp [Micro.perform, Micro.latches]
    · simp [Micro.perform, Micro.events]
    · intro; simp [Micro.perform, Timer.consume]
  | setl id =>
    have hid : id < s.takeSlot.cfg.nLines := by simpa [Micro.plain] using hm
    have hp := setLine_ran hid false
    refine ⟨_, hc.drive_cons c rest rfl (by simpa [Micro.perform, hp] using hf), ⟨Carried.track ?_ c rest _, ⟨?_, ?_⟩, ?_,
      ?_, ?_, ?_, ?_⟩, by simp⟩
    · constructor <;> simp [Micro.perform, hp]
    · simp [Micro.perform, hp, hc.live]
    · simpa [State.unpaused, Micro.perform, hp] using hs.steady
    · simpa [Micro.perform, hp] using he
    · simp [Micro.perform, hp]
    · simp [Micro.perform, hp]
    · by_cases hd : s.cfg.driven id = true <;> simp [Micro.perform, hp, Micro.latches, hd]
    · simp [Micro.perform, hp, Micro.events]
  | seth id =>
    have hid : id < s.takeSlot.cfg.nLines := by simpa [Micro.plain] using hm
    have hp := setLine_ran hid true
    refine ⟨_, hc.drive_cons c rest rfl (by simpa [Micro.perform, hp] using hf), ⟨Carried.track ?_ c rest _, ⟨?_, ?_⟩, ?_,
      ?_, ?_, ?_, ?_⟩, by simp⟩
    · constructor <;> simp [Micro.perform, hp]
    · simp [Micro.perform, hp, hc.live]
    · simpa [State.unpaused, Micro.perform, hp] using hs.steady
    · simpa [Micro.perform, hp] using he
    · simp [Micro.perform, hp]
    · simp [Micro.perform, hp]
    · by_cases hd : s.cfg.driven id = true <;> simp [Micro.perform, hp, Micro.latches, hd]
    · simp [Micro.perform, hp, Micro.events]
  | arm | encode | setColor | fillAll => simp [Micro.plain] at hm

/-- A run of plain micro-operations in a calm state whose timer counts: the loop performs them all; when the last one is
a WAIT the match flag is clear afterwards (41_physical_strip.md R152). -/
theorem plain_run (c : Instr) (ops rest : List Micro) (s : State) (hc : s.Calm) (he : s.timer.en = true)
    (hf : s.fault = .noFault) (hops : ∀ m ∈ ops, m.plain s.cfg = true) :
    ∃ t, drive c (ops ++ rest) s = drive c rest t ∧
      Ran s t (ops.foldl (fun l m => m.latches s.cfg l) s.lvl) (ops.flatMap (Micro.events s.cfg)) ∧
      (ops.getLast? = some .wait ∨ (ops = [] ∧ s.timer.matched = false) → t.timer.matched = false) := by
  induction ops generalizing s with
  | nil => exact ⟨s, rfl, by simpa using Ran.refl hc he, by simp⟩
  | cons m ops ih =>
    obtain ⟨t, h1, h2, h3⟩ := plain_turn hc he hf (hops m (by simp)) c (ops ++ rest)
    obtain ⟨u, h4, h5, h6⟩ := ih t h2.calm h2.en (h2.carried.fault.trans hf)
      (fun q hq => by rw [h2.carried.cfg]; exact hops q (by simp [hq]))
    refine ⟨u, h1.trans h4, ?_, fun hl => h6 ?_⟩
    · have := h2.trans h5
      rw [h2.carried.cfg, h2.lvl] at this
      simpa using this
    · cases ops with
      | nil => exact .inr ⟨rfl, h3 (by simpa using hl)⟩
      | cons q ops => exact .inl (by simpa using hl)

/-! ## One transmit -/

/-- The events of a transmit's micro-operations are those of its frame (41_physical_strip.md R150). -/
theorem txExpand_events (c : Cfg) (ln : Nat) (bs : List Bool) :
    (txExpand c ln bs).flatMap (Micro.events c) = frameEvents c ln bs := by
  have h1 : (bs.flatMap (cell ln)).flatMap (Micro.events c) = bs.flatMap (cellEvents c ln) := by
    rw [List.flatMap_assoc]
    congr 1
    funext b
    cases b <;> simp [cell, cellEvents, Micro.events, List.replicate]
  have h2 : (List.replicate c.resetTicks Micro.wait).flatMap (Micro.events c) =
      List.replicate c.resetTicks Event.tick := by
    induction c.resetTicks with
    | zero => rfl
    | succ n ih => simpa [List.replicate_succ, Micro.events] using ih
  simp [txExpand, frameEvents, List.flatMap_append, h1, h2, Micro.events]

/-- The micro-operations of a transmit after its ARM. -/
def txTail (c : Cfg) (ln : Nat) (bs : List Bool) : List Micro :=
  .setl ln :: (List.replicate c.resetTicks .wait ++ bs.flatMap (cell ln))

theorem txExpand_eq (c : Cfg) (ln : Nat) (bs : List Bool) : txExpand c ln bs = .arm c.tick :: txTail c ln bs := by
  simp [txExpand, txTail]

/-- A micro-operation of a cell is a WAIT or a write of the cell's line. -/
theorem mem_cell {ln : Nat} {b : Bool} {m : Micro} (h : m ∈ cell ln b) : m = .wait ∨ m = .setl ln ∨ m = .seth ln := by
  unfold cell at h
  split at h <;> simp at h <;> tauto

/-- After its ARM a transmit is made of WAITs and writes of its own line (41_physical_strip.md R150). -/
theorem mem_txTail {c : Cfg} {ln : Nat} {bs : List Bool} {m : Micro} (h : m ∈ txTail c ln bs) :
    m = .wait ∨ m = .setl ln ∨ m = .seth ln := by
  simp only [txTail, List.mem_cons, List.mem_append, List.mem_replicate, List.mem_flatMap] at h
  rcases h with h | ⟨-, h⟩ | ⟨b, -, h⟩
  · exact .inr (.inl h)
  · exact .inl h
  · exact mem_cell h

theorem txTail_plain {c : Cfg} {ln : Nat} (h : ln < c.nLines) (bs : List Bool) :
    ∀ m ∈ txTail c ln bs, m.plain c = true := by
  intro m hm
  rcases mem_txTail hm with rfl | rfl | rfl <;> simp [Micro.plain, h]

/-- Every transmit ends with a WAIT (41_physical_strip.md R152). -/
theorem txTail_getLast {c : Cfg} (h : 1 ≤ c.resetTicks) (ln : Nat) (bs : List Bool) :
    (txTail c ln bs).getLast? = some .wait := by
  have h1 : (List.replicate c.resetTicks Micro.wait).getLast? = some .wait := by
    rw [List.getLast?_replicate]; simp; omega
  rcases List.eq_nil_or_concat bs with rfl | ⟨cs, b, rfl⟩
  · simp only [txTail, List.flatMap_nil, List.append_nil]
    rw [List.getLast?_cons, h1]; rfl
  · simp only [txTail, List.concat_eq_append, List.flatMap_append, List.flatMap_singleton]
    rw [← List.append_assoc, ← List.cons_append, List.getLast?_append]
    cases b <;> rfl

/-- The latches after a transmit. -/
def txLatches (c : Cfg) (ln : Nat) (bs : List Bool) (l : List (Nat × Bool)) : List (Nat × Bool) :=
  (txTail c ln bs).foldl (fun l m => m.latches c l) l

/-- One transmit in a calm state, whatever the timer held before: it is performed whole and its frame is appended to WIRE
(41_physical_strip.md R148, R152). -/
theorem transmit_run (c : Instr) {ln : Nat} (bs : List Bool) (rest : List Micro) {s : State} (hc : s.Calm)
    (hf : s.fault = .noFault) (htick : s.cfg.tick ≠ 0#32) (hln : ln < s.cfg.nLines) (hrt : 1 ≤ s.cfg.resetTicks) :
    ∃ t, drive c (txExpand s.cfg ln bs ++ rest) s = drive c rest t ∧ Carried s t ∧ t.Calm ∧ t.timer.en = true ∧
      t.timer.mie = true ∧ t.timer.period = s.cfg.tick ∧ t.timer.matched = false ∧
      t.lvl = txLatches s.cfg ln bs s.lvl ∧ t.wire = s.wire ++ frameEvents s.cfg ln bs := by
  have hs := hc.takeSlot
  have harm : s.takeSlot.armTimer s.cfg.tick = { s.takeSlot with
      timer := Timer.armed s.cfg.tick, wire := s.wire ++ [.arm s.cfg.tick] } := by
    simp [State.armTimer, htick]
  let a : State := State.trackTransmit c (txTail s.cfg ln bs ++ rest)
    { Micro.perform (.arm s.cfg.tick) s.takeSlot with upc := s.takeSlot.upc + 1 }
  have ha : drive c (txExpand s.cfg ln bs ++ rest) s = drive c (txTail s.cfg ln bs ++ rest) a := by
    rw [txExpand_eq, List.cons_append]
    exact hc.drive_cons c _ rfl (by simpa [Micro.perform, harm] using hf)
  have hcar : Carried s a := Carried.track (t := Micro.perform (.arm s.cfg.tick) s.takeSlot)
    (by constructor <;> simp [Micro.perform, harm]) c _ _
  have hca : a.Calm := ⟨by simp [a, Micro.perform, hc.live], by simpa [a, State.unpaused, Micro.perform] using hs.steady⟩
  have htim : a.timer = Timer.armed s.cfg.tick := by simp [a, Micro.perform, harm]
  obtain ⟨t, h1, h2, h3⟩ := plain_run c (txTail s.cfg ln bs) rest a hca (by simp [htim, Timer.armed])
    (hcar.fault.trans hf) (by rw [hcar.cfg]; exact txTail_plain hln bs)
  refine ⟨t, ha.trans h1, hcar.trans h2.carried, h2.calm, h2.en, by simp [h2.mie, htim, Timer.armed],
    by simp [h2.period, htim, Timer.armed], h3 (.inl (txTail_getLast hrt ln bs)), ?_, ?_⟩
  · rw [h2.lvl, hcar.cfg]
    simp [a, Micro.perform, harm, txLatches]
  · rw [h2.wire, hcar.cfg, ← txExpand_events, txExpand_eq]
    simp [a, Micro.perform, harm, Micro.events]

end Sys2Proof.Machine
end

