-- ==== Sys2Proof/Laws/Commands.lean ====
section
/-!
SUPPORT. A command from its acceptance to its end: what a ready engine makes of it, the commands of one micro-operation, what
a well-formed configuration gives, and the latches a transmit leaves.
-/

namespace Sys2Proof.Machine

/-! ## Acceptance -/

theorem ready_iff {s : State} : s.ready = true ↔ s.busy = false ∧ s.fault = .noFault := by
  simp [State.ready]

/-- A ready engine accepts the command (30_encoding.md R90). -/
theorem issue_ready {s : State} (h : s.ready = true) (i : Instr)
    (body : State → Host.Outcome State Fault Refusal) :
    issue i s body = body { s with cmd := encode i, busy := true, upc := 0 } := by
  obtain ⟨h1, h2⟩ := ready_iff.1 h
  simp [issue, h1, h2, accept_of_idle h1]

/-- The command in flight goes on as it stands (10_state.md R31). -/
theorem issue_busy {s : State} (h : s.busy = true) (hf : s.fault = .noFault) {i : Instr} (hc : s.cmd = encode i)
    (body : State → Host.Outcome State Fault Refusal) : issue i s body = body s := by
  simp [issue, h, hf, hc, accept_of_busy]

/-- An accepted command of one micro-operation that is enabled. -/
theorem carry_one {s : State} (i : Instr) (m : Micro) (hp : s.nextSlot.isPause = false) {t : State}
    (he : m.enabledState { s.takeSlot with cmd := encode i, busy := true, upc := 0 } = some t) :
    carryOut i [m] { s with cmd := encode i, busy := true, upc := 0 } =
      .next (if (m.perform t).fault = .noFault then
        (State.trackTransmit i [] { m.perform t with upc := t.upc + 1 }).finish i else m.perform t) := by
  have h1 : ({ s with cmd := encode i, busy := true, upc := 0 } : State).nextSlot = s.nextSlot := rfl
  have h2 : ({ s with cmd := encode i, busy := true, upc := 0 } : State).takeSlot =
      { s.takeSlot with cmd := encode i, busy := true, upc := 0 } := rfl
  simp only [carryOut, List.drop_zero, drive, h1, hp, h2, Bool.false_eq_true, if_false]
  rw [he]

/-! ## Runs of commands -/

/-- A command that leaves BUSY = 0 at once needs no further turn. -/
theorem runCommand_of_idle {i : Instr} {s t : State} (h : exec i s = .next t) (hb : t.busy = false) :
    runCommand i s = .next t := by
  unfold runCommand
  rw [h]
  cases s.pace.length <;> simp [goOn, hb]

/-- A run goes on where its first command leaves the engine ready (70_reset_and_hazards.md R225). -/
theorem runAll_cons {i : Instr} {is : List Instr} {s t : State} (h : exec i s = .next t) (ht : t.ready = true) :
    runAll (i :: is) s = runAll is t := by
  simp [runAll, runCommand_of_idle h (ready_iff.1 ht).1, ht]

/-! ## Well-formed configurations -/

/-- LED_COUNT and the number it stands for. -/
@[simp] theorem ofNat_leds (d : Strip) : BitVec.ofNat 32 d.leds = d.ledCount := by
  simp [Strip.leds]

/-- The eight clauses of WF (00_scope.md R10). -/
theorem wf_clauses {c : Cfg} (h : c.wf = true) : c.w1 = true ∧ c.w2 = true ∧ c.w3 = true ∧ c.w4 = true ∧
    c.w5 = true ∧ c.w6 = true ∧ c.w7 = true ∧ c.w8 = true := by
  simpa [Cfg.wf, and_assoc] using h

/-- W2. -/
theorem wf_cbufLen {c : Cfg} (h : c.wf = true) : c.cbufLen = c.totalLeds := by
  simpa [Cfg.w2] using (wf_clauses h).2.1

/-- W3, W4 and W5 of one strip. -/
theorem wf_strip {c : Cfg} (h : c.wf = true) {d : Strip} (hd : d ∈ c.strips) :
    3 * d.leds ≤ c.scratchBytes ∧ d.channelOrder.isSome = true ∧ d.lineId < c.nLines := by
  obtain ⟨-, -, h3, h4, h5, -⟩ := wf_clauses h
  simp only [Cfg.w3, Cfg.w4, Cfg.w5, List.all_eq_true, decide_eq_true_eq] at h3 h4 h5
  exact ⟨h3 d hd, h4 d hd, h5 d hd⟩

/-- W6: one tick takes time. -/
theorem wf_tick {c : Cfg} (h : c.wf = true) : c.tick ≠ 0#32 := by
  obtain ⟨-, -, -, -, -, h6, -⟩ := wf_clauses h
  simp only [Cfg.w6, Bool.and_eq_true, decide_eq_true_eq, beq_iff_eq] at h6
  intro h0
  have h1 := congrArg BitVec.toNat h0
  have hlt := c.fullCycle.isLt
  simp [Cfg.tick] at h1
  omega

/-- W7. -/
theorem wf_resetTicks {c : Cfg} (h : c.wf = true) : 1 ≤ c.resetTicks := by
  obtain ⟨-, -, -, -, -, -, h7, -⟩ := wf_clauses h
  simpa [Cfg.w7] using h7

/-- Strip k's slice lies inside TOTAL_LEDS (20_memory.md R72). -/
theorem start_le {c : Cfg} {k : Nat} {d : Strip} (hd : c.strips[k]? = some d) :
    c.start k + d.leds ≤ c.totalLeds := by
  obtain ⟨hk, rfl⟩ := List.getElem?_eq_some_iff.1 hd
  have h1 := congrArg ledsOf (List.take_append_drop k c.strips)
  rw [List.drop_eq_getElem_cons hk] at h1
  unfold Cfg.totalLeds Cfg.start
  rw [← h1]
  simp only [ledsOf, List.map_append, List.map_cons, List.sum_append, List.sum_cons]
  omega

/-- Under WF every strip number can be encoded (00_scope.md R10, W2 and W4). -/
theorem whenEncodable_wf {c : Cfg} (h : c.wf = true) (ks : List Nat) (body : Host.Outcome State Fault Refusal) :
    whenEncodable ks c body = body := by
  have h1 : ks.all (Cfg.sliceExists c) = true := by
    rw [List.all_eq_true]
    intro k _
    unfold Cfg.sliceExists
    cases hk : c.strips[k]? with
    | none => rfl
    | some d => simp [wf_cbufLen h, start_le hk]
  have h2 : ks.all (Cfg.orderExists c) = true := by
    rw [List.all_eq_true]
    intro k _
    unfold Cfg.orderExists
    cases hk : c.strips[k]? with
    | none => rfl
    | some d => simp [(wf_strip h (List.mem_of_getElem? hk)).2.1]
  simp [whenEncodable, h1, h2]

/-! ## The latches after a transmit -/

/-- WAITs and writes of line `ln` leave every other latch. -/
theorem foldl_latches_other {c : Cfg} {ln q : Nat} (h : q ≠ ln) (ops : List Micro)
    (ho : ∀ m ∈ ops, m = .wait ∨ m = .setl ln ∨ m = .seth ln) (l : List (Nat × Bool)) :
    Memory.find q (ops.foldl (fun l m => m.latches c l) l) = Memory.find q l := by
  induction ops generalizing l with
  | nil => rfl
  | cons m ops ih =>
    rw [List.foldl_cons, ih (fun m hm => ho m (by simp [hm]))]
    rcases ho m (by simp) with rfl | rfl | rfl <;> simp [Micro.latches] <;> split <;> simp [find_insert, h]

/-- WAITs and writes of a sink leave every latch. -/
theorem foldl_latches_sink {c : Cfg} {ln : Nat} (h : c.driven ln = false) (ops : List Micro)
    (ho : ∀ m ∈ ops, m = .wait ∨ m = .setl ln ∨ m = .seth ln) (l : List (Nat × Bool)) :
    ops.foldl (fun l m => m.latches c l) l = l := by
  induction ops generalizing l with
  | nil => rfl
  | cons m ops ih =>
    rw [List.foldl_cons, ih (fun m hm => ho m (by simp [hm]))]
    rcases ho m (by simp) with rfl | rfl | rfl <;> simp [Micro.latches, h]

/-- A transmit leaves every latch but that of its own line (41_physical_strip.md R150). -/
theorem txLatches_other {c : Cfg} {ln q : Nat} (h : q ≠ ln) (bs : List Bool) (l : List (Nat × Bool)) :
    Memory.find q (txLatches c ln bs l) = Memory.find q l :=
  foldl_latches_other h _ (fun _ hm => mem_txTail hm) l

/-- A transmit on a sink leaves every latch (40_timer_pin_surface.md R125). -/
theorem txLatches_sink {c : Cfg} {ln : Nat} (h : c.driven ln = false) (bs : List Bool) (l : List (Nat × Bool)) :
    txLatches c ln bs l = l :=
  foldl_latches_sink h _ (fun _ hm => mem_txTail hm) l

/-- A transmit leaves its own line low (41_physical_strip.md R152). -/
theorem txLatches_driven {c : Cfg} {ln : Nat} (h : c.driven ln = true) (bs : List Bool) (l : List (Nat × Bool)) :
    Memory.find ln (txLatches c ln bs l) = some false := by
  have hwait : ∀ n l, (List.replicate n Micro.wait).foldl (fun l m => m.latches c l) l = l := by
    intro n
    induction n with
    | zero => intro l; rfl
    | succ n ih => intro l; rw [List.replicate_succ, List.foldl_cons, ih]; rfl
  have hcell : ∀ b l, (cell ln b).foldl (fun l m => m.latches c l) l =
      Memory.insert ln false (Memory.insert ln true l) := by
    intro b l; cases b <;> simp [cell, Micro.latches, h]
  have hbits : ∀ l, Memory.find ln l = some false →
      Memory.find ln ((bs.flatMap (cell ln)).foldl (fun l m => m.latches c l) l) = some false := by
    induction bs with
    | nil => intro l hl; exact hl
    | cons b bs ih =>
      intro l _
      rw [List.flatMap_cons, List.foldl_append, hcell]
      exact ih _ (by simp [find_insert])
  unfold txLatches txTail
  rw [List.foldl_cons, List.foldl_append, hwait]
  exact hbits _ (by simp [Micro.latches, h, find_insert])

end Sys2Proof.Machine
end

