-- ==== Sys2Proof/Laws/Encoding.lean ====
section
/-!
SUPPORT. The fields of a packed word, a Color and a direction packed and unpacked, and the operation codes
(30_encoding.md R91, R95, 20_memory.md R62).
-/

namespace Sys2Proof

/-! ## The fields of a word -/

@[simp] theorem opcField_packWord (o : BitVec 8) (a : Word32) (b : BitVec 24) : opcField (packWord o a b) = o := by
  apply BitVec.eq_of_getLsbD_eq
  intro i h
  have h1 : 56 + i < 64 := by omega
  have h2 : ¬ 56 + i < 24 := by omega
  have h3 : b.getLsbD (56 + i) = false := BitVec.getLsbD_of_ge b _ (by omega)
  have h4 : a.getLsbD (56 + i - 24) = false := BitVec.getLsbD_of_ge a _ (by omega)
  simp [opcField, packWord, h, h1, h2, h3, h4]

@[simp] theorem aField_packWord (o : BitVec 8) (a : Word32) (b : BitVec 24) : aField (packWord o a b) = a := by
  apply BitVec.eq_of_getLsbD_eq
  intro i h
  have h1 : 24 + i < 64 := by omega
  have h2 : 24 + i < 56 := by omega
  simp [aField, packWord, h, h1, h2]

@[simp] theorem bField_packWord (o : BitVec 8) (a : Word32) (b : BitVec 24) : bField (packWord o a b) = b := by
  apply BitVec.eq_of_getLsbD_eq
  intro i h
  have h1 : i < 64 := by omega
  have h2 : i < 56 := by omega
  simp [bField, packWord, h, h1, h2]

/-- A word is made of its three fields: they overlap nowhere and leave no bit out (30_encoding.md R91). -/
theorem packWord_fields (w : CommandWord) : packWord (opcField w) (aField w) (bField w) = w := by
  apply BitVec.eq_of_getLsbD_eq
  intro i h
  simp only [opcField, packWord, aField, bField, BitVec.getLsbD_or, BitVec.getLsbD_shiftLeft, BitVec.getLsbD_setWidth,
    BitVec.getLsbD_extractLsb']
  by_cases h1 : i < 24
  · have h2 : i < 56 := by omega
    simp [h, h1, h2]
  · by_cases h2 : i < 56
    · have h3 : i - 24 < 64 := by omega
      have h4 : i - 24 < 32 := by omega
      have h5 : 24 + (i - 24) = i := by omega
      simp [h, h1, h2, h3, h4, h5]
    · have h3 : i - 56 < 64 := by omega
      have h4 : ¬ i - 24 < 32 := by omega
      have h5 : 56 + (i - 56) = i := by omega
      have h6 : i - 56 < 8 := by omega
      simp [h, h1, h2, h3, h4, h5, h6]

/-! ## Operands -/

/-- No bit of a Color is lost (20_memory.md R62). -/
@[simp] theorem unpackColor_packColor (c : Color) : unpackColor (packColor c) = c := by
  obtain ⟨r, g, b⟩ := c
  unfold unpackColor packColor
  congr 1 <;> (apply BitVec.eq_of_getLsbD_eq; intro i h)
  · have h1 : 16 + i < 24 := by omega
    have h2 : ¬ 16 + i < 8 := by omega
    have h3 : b.getLsbD (16 + i) = false := BitVec.getLsbD_of_ge b _ (by omega)
    have h4 : g.getLsbD (16 + i - 8) = false := BitVec.getLsbD_of_ge g _ (by omega)
    simp [h, h1, h2, h3, h4]
  · have h1 : 8 + i < 24 := by omega
    have h2 : 8 + i < 16 := by omega
    simp [h, h1, h2]
  · have h1 : i < 24 := by omega
    have h2 : i < 16 := by omega
    simp [h, h1, h2]

/-- Every 24-bit value is a Color (20_memory.md R62). -/
@[simp] theorem packColor_unpackColor (v : BitVec 24) : packColor (unpackColor v) = v := by
  apply BitVec.eq_of_getLsbD_eq
  intro i h
  simp only [packColor, unpackColor, BitVec.getLsbD_or, BitVec.getLsbD_shiftLeft, BitVec.getLsbD_setWidth,
    BitVec.getLsbD_extractLsb']
  by_cases h1 : i < 8
  · have h2 : i < 16 := by omega
    simp [h, h1, h2]
  · by_cases h2 : i < 16
    · have h3 : i - 8 < 24 := by omega
      have h4 : i - 8 < 8 := by omega
      have h5 : 8 + (i - 8) = i := by omega
      simp [h, h1, h2, h3, h4, h5]
    · have h3 : i - 16 < 24 := by omega
      have h4 : ¬ i - 8 < 8 := by omega
      have h5 : 16 + (i - 16) = i := by omega
      have h6 : i - 16 < 8 := by omega
      simp [h, h1, h2, h3, h4, h5, h6]

@[simp] theorem unpackDir_packDir (d : Direction) : unpackDir (packDir d) = d := by
  cases d <;> decide

/-- A B field whose bits above 0 are zero is a direction (30_encoding.md R95). -/
theorem packDir_unpackDir {b : BitVec 24} (h : b >>> 1 = 0#24) : packDir (unpackDir b) = b := by
  have hb : ∀ i, 0 < i → b.getLsbD i = false := by
    intro i hi
    have := congrArg (fun v => v.getLsbD (i - 1)) h
    simpa [show 1 + (i - 1) = i by omega] using this
  apply BitVec.eq_of_getLsbD_eq
  intro i _
  unfold unpackDir
  by_cases h0 : i = 0
  · subst h0; split <;> simp_all [packDir]
  · rw [hb i (by omega)]
    split
    · simp [packDir, h0]
    · simp [packDir]

/-! ## Operation codes -/

@[simp] theorem ofByte_byte (o : Opcode) : Opcode.ofByte o.byte = some o := by
  cases o <;> rfl

/-- An OPC value selects at most one operation (30_encoding.md R93). -/
theorem byte_of_ofByte {v : BitVec 8} {o : Opcode} (h : Opcode.ofByte v = some o) : o.byte = v := by
  revert v o; decide

@[simp] theorem assemble_opcode (o : Opcode) (w : CommandWord) : (assemble o w).opcode = o := by
  cases o <;> rfl

/-- When decoding answers an operation (30_encoding.md R108). -/
theorem decode_eq_ok {w : CommandWord} {i : Instr} :
    decode w = .ok i ↔ ∃ o, Opcode.ofByte (opcField w) = some o ∧ reservedZero o.format w = true ∧ assemble o w = i := by
  unfold decode
  cases h : Opcode.ofByte (opcField w) with
  | none => simp
  | some o => by_cases hr : reservedZero o.format w = true <;> simp [hr]

end Sys2Proof
end

