-- ==== Sys2Proof/Laws/PerInstr.lean ====
section
/-!
SUPPORT. What holds of the syntax of every instruction, one lemma per constructor: the fields of its command word
(30_encoding.md R91 to R96).
-/

namespace Sys2Proof.Laws.EncodedFields

open Sys2Proof

/-- The command word of an instruction has its operation's OPC, its operands in A and B, and zero in every field its format
does not use (30_encoding.md R92, R94, R95, R96). -/
def Statement (i : Instr) : Prop :=
  opcField (encode i) = i.opcode.byte ∧ aField (encode i) = i.operandA ∧ bField (encode i) = i.operandB ∧
    reservedZero i.opcode.format (encode i) = true

theorem arm (period : Word32) : Statement (.arm period) := by
  simp [Statement, encode, Instr.opcode, Opcode.format, reservedZero, Instr.operandB]

theorem wait : Statement .wait := by
  simp [Statement, encode, Instr.opcode, Opcode.format, reservedZero, Instr.operandA, Instr.operandB]

theorem setl (id : Word32) : Statement (.setl id) := by
  simp [Statement, encode, Instr.opcode, Opcode.format, reservedZero, Instr.operandB]

theorem seth (id : Word32) : Statement (.seth id) := by
  simp [Statement, encode, Instr.opcode, Opcode.format, reservedZero, Instr.operandB]

theorem enc (strip : Word32) (dir : Direction) : Statement (.enc strip dir) := by
  cases dir <;> simp [Statement, encode, Instr.opcode, Opcode.format, reservedZero, Instr.operandB, packDir]

theorem tx (strip : Word32) : Statement (.tx strip) := by
  simp [Statement, encode, Instr.opcode, Opcode.format, reservedZero, Instr.operandB]

theorem setc (idx : Word32) (color : Color) : Statement (.setc idx color) := by
  simp [Statement, encode, Instr.opcode, Opcode.format, reservedZero]

theorem fill (color : Color) : Statement (.fill color) := by
  simp [Statement, encode, Instr.opcode, Opcode.format, reservedZero, Instr.operandA]

theorem txall : Statement .txall := by
  simp [Statement, encode, Instr.opcode, Opcode.format, reservedZero, Instr.operandA, Instr.operandB]

end Sys2Proof.Laws.EncodedFields
end

