-- ==== Sys2Proof/Tests/Slice0.lean ====
section
/-!
SUPPORT. Tests: ill-formed terms the checks refuse; words written out from the spec's encodings; one step of every
instruction on vectors of 95_test_vectors.md (numbered V and X there); and for every obligation with hypotheses a witness
that meets them together. Expected values are the spec's.
-/

namespace Sys2Proof.Tests

open Sys2Proof Sys2Proof.Machine

/-! ## Configurations and states -/

/-- CFG-A of 95_test_vectors.md section 0. -/
def cfgA : Cfg where
  strips := [⟨2#32, 0#8, false, 0#3⟩]
  lines := [.driven]
  zeroHigh := 10#32
  oneHigh := 20#32
  fullCycle := 30#32
  latchMin := 40
  timeUnit := 1
  resetTicks := 4
  cbufLen := 2
  scratchBytes := 6

/-- CFG-B. -/
def cfgB : Cfg := Config.board

/-- CFG-D: a strip without LEDs, and two strips on one line. -/
def cfgD : Cfg := { cfgA with
  strips := [⟨0#32, 0#8, false, 0#3⟩, ⟨1#32, 0#8, true, 2#3⟩], cbufLen := 1, scratchBytes := 3 }

/-- A ready engine with configuration `c` and nothing free in it. -/
def idle (c : Cfg) : State where
  cfg := c
  cbuf := []
  scr := []
  timer := ⟨true, true, 10#32, 3#32, false⟩
  lvl := c.drivenIds.map fun id => (id, true)
  k := 0#32
  off := 0#32
  n := 0#32
  i := 0#32
  j := 0#37
  dir := .forward
  tc := 0
  cmd := 0#64
  upc := 0
  busy := false
  fault := .noFault
  wire := []
  agenda := []
  pace := []
  unitsLeft := none
  draws := 0

/-- The command `i` in flight at position 0. -/
def running (i : Instr) (s : State) : State := { s with cmd := encode i, busy := true }

/-- `p` holds of the next state. -/
def after (o : Host.Outcome State Fault Refusal) (p : State → Bool) : Bool :=
  match o with
  | .next t => p t
  | .fault _ => false
  | .refused _ => false

/-- `p` holds after the word `w` is issued. -/
def issued (s : State) (w : Nat) (p : State → Bool) : Bool := after (step (s.withFetchWord 64 w)) p

theorem exists_next {o : Host.Outcome State Fault Refusal} {p : State → Bool} (h : after o p = true) :
    ∃ t, o = .next t ∧ p t = true := by
  cases o with
  | next t => exact ⟨t, rfl, h⟩
  | fault r => cases h
  | refused r => cases h

/-! ## Ill-formed instructions -/

theorem test_wf_arm_period_zero : (Instr.arm 0#32).WellFormed cfgB = false := by decide
theorem test_wf_setl_line_outside : (Instr.setl 3#32).WellFormed cfgB = false := by decide
theorem test_wf_seth_line_outside : (Instr.seth 3#32).WellFormed cfgB = false := by decide
theorem test_wf_enc_strip_outside : (Instr.enc 3#32 .forward).WellFormed cfgB = false := by decide
theorem test_wf_tx_strip_outside : (Instr.tx 3#32).WellFormed cfgB = false := by decide
theorem test_wf_setc_index_outside : (Instr.setc 9#32 .black).WellFormed cfgB = false := by decide

/-- The last operands in range. -/
theorem test_wf_boundaries : (Instr.arm 1#32).WellFormed cfgB ∧ (Instr.setl 2#32).WellFormed cfgB ∧
    (Instr.seth 2#32).WellFormed cfgB ∧ (Instr.enc 2#32 .reverse).WellFormed cfgB ∧
    (Instr.tx 2#32).WellFormed cfgB ∧ (Instr.setc 8#32 .black).WellFormed cfgB := by decide

/-! ## Ill-formed configurations (00_scope.md R10; CFG-C1 to CFG-C5) -/

theorem test_cfg_well_formed : cfgA.wf ∧ cfgB.wf ∧ cfgD.wf := by decide
theorem test_w1 : ({ cfgA with strips := [], cbufLen := 0 } : Cfg).wf = false := by decide
/-- CFG-C1. -/
theorem test_w2 : ({ cfgB with cbufLen := 8 } : Cfg).wf = false := by decide
/-- CFG-C2. -/
theorem test_w3 : ({ cfgB with scratchBytes := 11 } : Cfg).wf = false := by decide
/-- CFG-C3. -/
theorem test_w4 : ({ cfgA with strips := [⟨2#32, 0#8, false, 6#3⟩] } : Cfg).wf = false := by decide
theorem test_w5 : ({ cfgA with strips := [⟨2#32, 1#8, false, 0#3⟩] } : Cfg).wf = false := by decide
/-- CFG-C4 and CFG-C5. -/
theorem test_w6 : ({ cfgA with fullCycle := 31#32 } : Cfg).wf = false ∧
    ({ cfgA with zeroHigh := 20#32, oneHigh := 10#32 } : Cfg).wf = false := by decide
theorem test_w7 : ({ cfgA with resetTicks := 0 } : Cfg).wf = false := by decide
theorem test_w8 : ({ cfgA with scratchBytes := 2 ^ 32 } : Cfg).wf = false := by decide

/-- The DESC words of CFG-B and CFG-C3. -/
theorem test_desc_words : cfgB.strips.map Strip.desc =
    [0x0000000000000003#64, 0x0000050100000004#64, 0x00000A0200000002#64] ∧
    Strip.ofDesc 0x00000C0000000002#64 = ⟨2#32, 0#8, false, 6#3⟩ := by decide

/-! ## Decoding: words written out from 30_encoding.md R91 to R95 -/

/-- `OPC = 0x01, A = 5` (V96). -/
theorem test_decode_arm : decode 0x0100000005000000#64 = .ok (.arm 5#32) := by decide
/-- `OPC = 0x02` (V14). -/
theorem test_decode_wait : decode 0x0200000000000000#64 = .ok .wait := by decide
/-- `OPC = 0x03, A = 1` (V20). -/
theorem test_decode_setl : decode 0x0300000001000000#64 = .ok (.setl 1#32) := by decide
/-- `OPC = 0x04, A = 2` (V23). -/
theorem test_decode_seth : decode 0x0400000002000000#64 = .ok (.seth 2#32) := by decide
/-- `OPC = 0x05, A = 1, B = 1` and `B = 0` (V98, V36). -/
theorem test_decode_enc : decode 0x0500000001000001#64 = .ok (.enc 1#32 .reverse) ∧
    decode 0x0500000001000000#64 = .ok (.enc 1#32 .forward) := by decide
/-- `OPC = 0x06, A = 2` (V59). -/
theorem test_decode_tx : decode 0x0600000002000000#64 = .ok (.tx 2#32) := by decide
/-- `OPC = 0x07, A = 1, B = 04 05 06` (V97). -/
theorem test_decode_setc : decode 0x0700000001040506#64 = .ok (.setc 1#32 ⟨4#8, 5#8, 6#8⟩) := by decide
/-- `OPC = 0x08, B = 10 20 30` (V76). -/
theorem test_decode_fill : decode 0x0800000000102030#64 = .ok (.fill ⟨16#8, 32#8, 48#8⟩) := by decide
/-- `OPC = 0x09` (V99). -/
theorem test_decode_txall : decode 0x0900000000000000#64 = .ok .txall := by decide

/-- V90, V91, V92 and the word of the priority note of section 2.6. -/
theorem test_unknown_opcodes : decode 0x0000000000000000#64 = .error .unknownOpcode ∧
    decode 0x0A00000000000000#64 = .error .unknownOpcode ∧ decode 0xFF00000000000000#64 = .error .unknownOpcode ∧
    decode 0x0A00000000FFFFFF#64 = .error .unknownOpcode := by decide
/-- V93, V94, V95, V40, V79. -/
theorem test_reserved_fields : decode 0x0200000000000001#64 = .error .reservedField ∧
    decode 0x0900000001000000#64 = .error .reservedField ∧ decode 0x0300000000000001#64 = .error .reservedField ∧
    decode 0x0500000001000002#64 = .error .reservedField ∧
    decode 0x0800000001102030#64 = .error .reservedField := by decide
/-- The encoder gives the words of V13, V26, V37 and V74. -/
theorem test_encode_words : encode (.arm 4294967295#32) = 0x01FFFFFFFF000000#64 ∧
    encode (.setl 4294967295#32) = 0x03FFFFFFFF000000#64 ∧ encode (.enc 1#32 .reverse) = 0x0500000001000001#64 ∧
    encode (.setc 4294967295#32 ⟨1#8, 2#8, 3#8⟩) = 0x07FFFFFFFF010203#64 := by decide
/-- V80. -/
theorem test_pack_color : packColor ⟨0x12#8, 0x34#8, 0x56#8⟩ = 0x123456#24 := by decide
theorem test_decodeTableWord : decodeTableWord 64 0x0600000002000000 = some (.tx 2#32) := by decide

/-! ## The timer (section 2.1) -/

/-- V1, V2, V3, V4. -/
theorem test_timer_steps : Timer.step ⟨true, false, 5#32, 0#32, false⟩ = ⟨true, false, 5#32, 1#32, false⟩ ∧
    Timer.step ⟨true, false, 5#32, 4#32, false⟩ = ⟨true, false, 5#32, 0#32, true⟩ ∧
    Timer.step ⟨true, false, 5#32, 4#32, true⟩ = ⟨true, false, 5#32, 0#32, true⟩ ∧
    Timer.step ⟨false, true, 5#32, 4#32, false⟩ = ⟨false, true, 5#32, 4#32, false⟩ := by decide
/-- V5, V6, V7, V8. -/
theorem test_timer_corners : Timer.step ⟨true, false, 1#32, 0#32, false⟩ = ⟨true, false, 1#32, 0#32, true⟩ ∧
    Timer.step ⟨true, false, 5#32, 7#32, false⟩ = ⟨true, false, 5#32, 8#32, false⟩ ∧
    Timer.step ⟨true, false, 5#32, 0xFFFFFFFF#32, false⟩ = ⟨true, false, 5#32, 0#32, false⟩ ∧
    Timer.step ⟨true, false, 0#32, 0xFFFFFFFF#32, false⟩ = ⟨true, false, 0#32, 0#32, true⟩ := by decide
/-- V6: from T_CNT = 7 the match of period 5 comes 2^32 - 2 steps later. -/
theorem test_timer_wrap : Timer.stepsToMatch ⟨true, false, 5#32, 7#32, false⟩ = 2 ^ 32 - 2 := by decide
/-- V16: after ARM 5 and 12 steps T_CNT = 2 and T_MATCH = 1. -/
theorem test_timer_twelve : (Timer.armed 5#32).advance 12 = ⟨true, true, 5#32, 2#32, true⟩ := by decide

/-! ## One step of every instruction -/

/-- V9, V10: ARM 5 over a pending match. -/
theorem test_arm : issued { idle cfgB with timer := ⟨true, true, 9#32, 3#32, true⟩ } 0x0100000005000000 (fun t =>
    t.timer = ⟨true, true, 5#32, 0#32, false⟩ ∧ t.wire = [.arm 5#32] ∧ t.busy = false) = true := by decide
/-- V12: ARM 0. -/
theorem test_arm_zero : issued (idle cfgB) 0x0100000000000000 (fun t =>
    t.fault = .illegal ∧ t.wire = [.fatal .illegal] ∧ t.timer = (idle cfgB).timer) = true := by decide
/-- V15: ARM 5 and 4 steps: the WAIT holds for the fifth. -/
theorem test_wait : issued { idle cfgB with timer := ⟨true, true, 5#32, 4#32, false⟩, unitsLeft := some 1 }
    0x0200000000000000 (fun t =>
    t.timer = ⟨true, true, 5#32, 0#32, false⟩ ∧ t.wire = [.tick] ∧ t.busy = false ∧ t.unitsLeft = some 0) = true := by
  decide
/-- V17: a stopped timer without a match: BUSY = 1, FAULT = 0, WIRE unchanged. -/
theorem test_wait_hangs : issued { idle cfgB with timer := ⟨false, true, 5#32, 4#32, false⟩ } 0x0200000000000000
    (fun t => t.busy = true ∧ t.fault = .noFault ∧ t.wire = []) = true := by decide
/-- V20: SETL 1. -/
theorem test_setl : issued { idle cfgB with lvl := [(0, true), (1, true)] } 0x0300000001000000 (fun t =>
    t.lvl = [(0, true), (1, false)] ∧ t.wire = [.set 1 false]) = true := by decide
/-- V24, V26: SETL of a sink and of a line outside the set. -/
theorem test_setl_elsewhere : issued (idle cfgB) 0x0300000002000000 (fun t =>
      t.lvl = (idle cfgB).lvl ∧ t.wire = [] ∧ t.fault = .noFault ∧ t.busy = false) = true ∧
    issued (idle cfgB) 0x03FFFFFFFF000000 (fun t => t.fault = .illegal ∧ t.busy = false) = true := by decide
/-- V21: SETH 0. -/
theorem test_seth : issued { idle cfgB with lvl := [(0, false), (1, false)] } 0x0400000000000000 (fun t =>
    t.lvl = [(0, true), (1, false)] ∧ t.wire = [.set 0 true]) = true := by decide
/-- V23, V25: SETH of a sink and of a line outside the set. -/
theorem test_seth_elsewhere : issued (idle cfgB) 0x0400000002000000 (fun t =>
      t.lvl = (idle cfgB).lvl ∧ t.wire = [] ∧ t.fault = .noFault ∧ t.busy = false) = true ∧
    issued (idle cfgB) 0x0400000003000000 (fun t => t.fault = .illegal ∧ t.wire = [.fatal .illegal]) = true := by
  decide

/-- The colour buffer of V36 and V37. -/
def encStart : State := { idle cfgB with
  cbuf := [(3, ⟨1#8, 2#8, 3#8⟩), (4, ⟨4#8, 5#8, 6#8⟩), (5, ⟨7#8, 8#8, 9#8⟩), (6, ⟨10#8, 11#8, 12#8⟩)] }

/-- V36: ENC 1, fwd. -/
theorem test_enc_forward : issued encStart 0x0500000001000000 (fun t =>
    t.readBytes 12 = [2#8, 1#8, 3#8, 5#8, 4#8, 6#8, 8#8, 7#8, 9#8, 11#8, 10#8, 12#8] ∧ t.k = 1#32 ∧ t.n = 4#32 ∧
    t.off = 3#32 ∧ t.dir = .forward ∧ t.wire = []) = true := by decide +kernel
/-- V37: ENC 1, rev. -/
theorem test_enc_reverse : issued encStart 0x0500000001000001 (fun t =>
    t.readBytes 12 = [11#8, 10#8, 12#8, 8#8, 7#8, 9#8, 5#8, 4#8, 6#8, 2#8, 1#8, 3#8] ∧ t.dir = .reverse) = true := by
  decide +kernel
/-- V39, V60: ENC 3 and TX 3. -/
theorem test_strip_outside : issued encStart 0x0500000003000000 (fun t => t.fault = .illegal ∧ t.scr = []) = true ∧
    issued encStart 0x0600000003000000 (fun t =>
      t.fault = .illegal ∧ t.wire = [.fatal .illegal] ∧ t.timer = encStart.timer ∧ t.lvl = encStart.lvl) = true := by
  decide +kernel
/-- V58: TX of a strip without LEDs, the timer stopped with a stale match. -/
theorem test_tx_zero_leds : issued { idle cfgD with timer := ⟨false, false, 0#32, 0#32, true⟩ } 0x0600000000000000
    (fun t => t.wire = [.arm 10#32, .set 0 false, .tick, .tick, .tick, .tick] ∧ t.lvl = [(0, false)] ∧
      t.busy = false) = true := by decide +kernel
/-- V55, V56, V51: TX 1 of CFG-D with SCR = 55 AA FF, as the waveform of P4. -/
theorem test_tx_one_led : issued { idle cfgD with scr := [(0, 0x55#8), (1, 0xAA#8), (2, 0xFF#8)] } 0x0600000001000000
    (fun t => wave 0 true t.wire = frameLevels cfgD
      [false, true, false, true, false, true, false, true, true, false, true, false, true, false, true, false,
       true, true, true, true, true, true, true, true]) = true := by decide +kernel
/-- V70. -/
theorem test_setc : issued (idle cfgB) 0x0700000005070809 (fun t => t.readColor 5 = ⟨7#8, 8#8, 9#8⟩ ∧
    t.readColor 4 = .black ∧ t.readColor 6 = .black ∧ t.wire = []) = true := by decide +kernel
/-- V72, V73: the last index inside and the first outside. -/
theorem test_setc_boundary : issued (idle cfgB) 0x0700000008FFFFFF (fun t =>
      t.fault = .noFault ∧ t.cbuf = [(8, ⟨255#8, 255#8, 255#8⟩)]) = true ∧
    issued (idle cfgB) 0x0700000009000000 (fun t => t.fault = .index ∧ t.wire = [.fatal .index] ∧ t.cbuf = []) = true := by
  decide +kernel
/-- V76. -/
theorem test_fill : issued (idle cfgB) 0x0800000000102030 (fun t => (List.range 9).map (fun a => t.readColor a) =
    List.replicate 9 ⟨16#8, 32#8, 48#8⟩) = true := by decide +kernel
/-- V78. -/
theorem test_fill_black : issued encStart 0x0800000000000000 (fun t => t.cbuf = []) = true := by decide +kernel
/-- P4, command 3: TXALL on CFG-D. -/
theorem test_txall : issued { idle cfgD with
      cbuf := [(0, ⟨0xAA#8, 0x55#8, 0xFF#8⟩)], timer := ⟨false, false, 0#32, 0#32, true⟩ } 0x0900000000000000 (fun t =>
    t.wire.length = 132 ∧ t.wire.count .tick = 80 ∧ t.scr = [(0, 0x55#8), (1, 0xAA#8), (2, 0xFF#8)] ∧
    t.lvl = [(0, false)] ∧ (wave 0 true t.wire).count true = 40 ∧ t.timer.matched = false) = true := by decide +kernel

/-! ## The encoder, the bits and the partition -/

/-- V30 to V35. -/
theorem test_encode_orders : [ChannelOrder.rgb, .rbg, .grb, .gbr, .brg, .bgr].map
      (fun o => encodeColors o [⟨10#8, 20#8, 30#8⟩]) =
    [[10#8, 20#8, 30#8], [10#8, 30#8, 20#8], [20#8, 10#8, 30#8], [20#8, 30#8, 10#8], [30#8, 10#8, 20#8],
     [30#8, 20#8, 10#8]] := by decide
/-- V54: 0xA5 is 1 0 1 0 0 1 0 1. -/
theorem test_bits : bitsOf [0xA5#8] = [true, false, true, false, false, true, false, true] := by decide
/-- The locate table of section 2.5 and 90_conflicts.md C11. -/
theorem test_locate : [0, 2, 3, 5, 6, 7, 8, 9].map cfgB.locate =
    [some (0, 0), some (0, 2), some (1, 0), some (1, 2), some (1, 3), some (2, 0), some (2, 1), none] := by decide
/-- Section 2.5: of strip 1, global 5 is sent second, global 6 first, global 3 last. -/
theorem test_wirePosition : [2, 3, 0].map (wirePosition true 4) = [1, 0, 3] := by decide
/-- V111: reset under CFG-C1. -/
theorem test_reset_config : (State.powerUp { cfgB with cbufLen := 8 } 0).fault = .config ∧
    (State.powerUp { cfgB with cbufLen := 8 } 0).wire = [.fatal .config] := by decide

/-- V62: the timer agent stops after 25 units: two ticks and then the third reset WAIT holds. -/
theorem test_tx_hangs : issued { idle cfgD with unitsLeft := some 25 } 0x0600000001000000 (fun t =>
    t.wire = [.arm 10#32, .set 0 false, .tick, .tick] ∧ t.busy = true ∧ t.fault = .noFault ∧ t.upc = 4 ∧
    t.lvl = [(0, false)]) = true := by decide +kernel
/-- R226 and R227: under KEEPS_UP the four ticks of TX 0 take 40 units, and a poll one unit late loses a tick. -/
theorem test_keeps_up : after (exec (.tx 0#32) { idle cfgD with
      unitsLeft := some 100, pace := [.run 25, .run 5, .run 4, .run 9] }) (fun t => t.unitsLeft = some 35) = true ∧
    after (exec (.tx 0#32) { idle cfgD with unitsLeft := some 100, pace := [.run 25, .run 5, .run 15] })
      (fun t => t.wire.count .tick = 4 ∧ t.unitsLeft = some 25) = true ∧
    ({ idle cfgD with pace := [.run 25, .run 5, .run 15] } : State).keepsUp (.tx 0#32) = false := by decide +kernel
/-- R226: a pause counts before the same poll as the slot after it. -/
theorem test_keeps_up_pause :
    ({ idle cfgD with pace := [.run 0, .run 0, .pause 9, .run 9] } : State).keepsUp (.tx 0#32) = false ∧
    ({ idle cfgD with pace := [.run 0, .run 0, .pause 4, .run 5] } : State).keepsUp (.tx 0#32) = true := by decide
/-- R29, R34: at the SETH of bit 1 (position 2 + RESET_TICKS + 5) J is 1, and TC is 0 before that line write. -/
theorem test_bit_position : after (exec (.tx 1#32) { idle cfgD with
      scr := [(0, 0x55#8), (1, 0xAA#8), (2, 0xFF#8)], pace := List.replicate 11 (.run 0) ++ [.pause 0] })
    (fun t => t.upc = 11 ∧ t.j = 1#37 ∧ t.tc = 0 ∧ t.busy = true) = true := by decide +kernel
/-- R225 and P3: the run ends badly at command 2, and command 3 is never issued. -/
theorem test_run_ends_badly : after (runAll [.setc 8#32 ⟨255#8, 255#8, 255#8⟩, .setc 9#32 .black, .fill .black] (idle cfgB))
    (fun t => t.fault = .index ∧ t.endedBadly = true ∧ t.cbuf = [(8, ⟨255#8, 255#8, 255#8⟩)] ∧
      t.wire = [.fatal .index]) = true := by decide +kernel
/-- R225: each command waits for BUSY = 0: two WAITs over a pause take two ticks, and a hang keeps the run from ending. -/
theorem test_run_waits : after (runAll [.wait, .wait] { idle cfgB with pace := [.pause 0, .run 0] })
      (fun t => t.wire = [.tick, .tick] ∧ t.endedWell = true) = true ∧
    after (runAll [.wait, .arm 5#32] { idle cfgB with unitsLeft := some 6 })
      (fun t => t.busy = true ∧ t.fault = .noFault ∧ t.wire = []) = true := by decide +kernel
/-- V116: reset leaves the fatal state. -/
theorem test_reset_after_fatal : after (step { idle cfgB with fault := .index, agenda := [.reset], wire := [.fatal .index] })
    (fun t => t.fault = .noFault ∧ t.wire = [] ∧ t.busy = false ∧ t.upc = 0 ∧ t.cbuf = []) = true := by decide +kernel

/-! ## Witnesses: every obligation's hypotheses are met together

Each uses the configuration CFG-B of 95_test_vectors.md (three strips of 3, 4 and 2 LEDs, lines 0 and 1 driven, line 2 a
sink, 9 colours, 12 scratch bytes) or CFG-D, and where an obligation has several clauses one value at the boundary of each. -/

/-- The ready state of the witnesses. -/
def ready : State := idle cfgB

theorem witness_EveryLegalWordIsItsEncoding : decode 0x0500000001000001#64 = .ok (.enc 1#32 .reverse) := by decide
theorem witness_DecoderFollowsTheOpcodeTable :
    (⟨.enc, 0x0500000000000000#64, 0xFF00000000FFFFFE#64⟩ : Row) ∈ opcodeTable ∧
    Row.selects ⟨.enc, 0x0500000000000000#64, 0xFF00000000FFFFFE#64⟩ 0x0500000001000001#64 = true ∧
    Row.selects ⟨.enc, 0x0500000000000000#64, 0xFF00000000FFFFFE#64⟩ 0x0500000001000002#64 = false := by decide
/-- Each clause at its boundaries: OPC 0x00, 0x0A, 0xFF; a bit in A or B of each format; B = 1 and B = 2 of ENC. -/
theorem witness_DecodingRejectsByName :
    [0x0000000000000000#64, 0x0A00000000000000#64, 0xFF00000000000000#64].all
      (fun w => decode w == .error .unknownOpcode) = true ∧
    [0x0200000000000001#64, 0x0900000001000000#64, 0x0100000000000001#64, 0x0600000000800000#64, 0x0500000000000002#64,
      0x0800000001000000#64].all (fun w => decode w == .error .reservedField) = true ∧
    decode 0x0500000000000001#64 = .ok (.enc 0#32 .reverse) := by decide

theorem witness_StepRunsTheDecodedCommand :
    (ready.busy = false ∧ ({ ready with agenda := [.command 0x0200000000000000#64] } : State).agenda =
      .command 0x0200000000000000#64 :: [] ∧ decode 0x0200000000000000#64 = .ok .wait) ∧
    ((running .wait ready).busy = true ∧ (running .wait ready).resetDue = false ∧
      decode (running .wait ready).cmd = .ok .wait) := by decide
/-- One word for each kind: the first OPC above 0x09, and the formats Z, A, AD and C with a reserved bit. -/
theorem witness_IllegalWordIsFatal : ready.ready = true ∧
    ({ ready with agenda := [.command 0x0A00000000000000#64] } : State).agenda =
      .command 0x0A00000000000000#64 :: [] ∧ 0x0A ≤ (opcField 0x0A00000000000000#64).toNat ∧
    (opcField 0x0000000000000000#64).toNat = 0 ∧
    ((opcField 0x0900000001000000#64).toNat ∈ [0x02, 0x09] ∧ aField 0x0900000001000000#64 ≠ 0#32) ∧
    ((opcField 0x0300000000000001#64).toNat ∈ [0x01, 0x03, 0x04, 0x06] ∧ bField 0x0300000000000001#64 ≠ 0#24) ∧
    ((opcField 0x0500000001000002#64).toNat = 0x05 ∧ 2 ≤ (bField 0x0500000001000002#64).toNat) ∧
    ((opcField 0x0800000001102030#64).toNat = 0x08 ∧ aField 0x0800000001102030#64 ≠ 0#32) := by decide
theorem witness_NoCommandIsAcceptedWhenHaltedOrBusy :
    (({ ready with fault := .index, agenda := [.command 0x0200000000000000#64] } : State).busy = false ∧
      ({ ready with fault := .index } : State).fault ≠ .noFault) ∧
    (ready.fault = .noFault ∧ (running .wait ready).busy = true ∧ (running .wait ready).cmd ≠ encode (.arm 5#32)) := by
  decide
theorem witness_IdleEngineWaitsForTheHost : ready.busy = false ∧ ready.agenda = [] := by decide
theorem witness_OtherTimerUserTouchesOnlyTheTimer : ready.busy = false ∧
    ({ ready with agenda := [.otherTimer (Timer.armed 7#32)] } : State).agenda = .otherTimer (Timer.armed 7#32) :: [] := by
  decide
/-- In the middle of a command, and under a configuration that is not well formed. -/
theorem witness_ResetLeavesTheStatedValues :
    ({ running .wait ready with agenda := [.reset] } : State).agenda = .reset :: [] ∧
    ({ ready with agenda := [.reset], fault := .index } : State).agenda = .reset :: [] ∧ cfgB.wf = true ∧
    ({ cfgB with cbufLen := 8 } : Cfg).wf = false := by decide

theorem ready_inv : ready.Inv where
  cfgChecked := by decide
  fatalIdle := by decide
  idleAtZero := by decide
  busyInside := by decide
  cbufForm := by decide
  scrForm := by decide
  lvlForm := by decide

theorem running_inv : (running .wait ready).Inv where
  cfgChecked := by decide
  fatalIdle := by decide
  idleAtZero := by decide
  busyInside := by decide
  cbufForm := by decide
  scrForm := by decide
  lvlForm := by decide

theorem witness_EveryStepKeepsTheInvariant : (running .wait ready).Inv ∧ ∃ t, step (running .wait ready) = .next t :=
  ⟨running_inv, (exists_next (p := fun _ => true) (by decide)).imp fun _ h => h.1⟩
theorem witness_FatalStateIsFinal : ({ ready with fault := .index } : State).fault ≠ .noFault ∧
    ({ ready with fault := .index } : State).resetDue = false ∧
    ∃ t, step { ready with fault := .index, agenda := [.time 3] } = .next t :=
  ⟨by decide, by decide, (exists_next (p := fun _ => true) (by decide)).imp fun _ h => h.1⟩
theorem witness_NoStepWritesTheConfiguration : ∃ t, step ready = .next t := ⟨_, rfl⟩

/-- Used for OnlySetcAndFillWriteTheColourBuffer, OnlyEncAndTxallWriteTheScratchBuffer and CommandsLeaveEveryOtherLine: SETL 0
is none of the named commands, completes, and does not name line 1. -/
theorem witness_OnlySetcAndFillWriteTheColourBuffer : (Instr.setl 0#32).opcode ≠ .setc ∧
    (Instr.setl 0#32).opcode ≠ .fill ∧ ∃ t, exec (.setl 0#32) ready = .next t :=
  ⟨by decide, by decide, (exists_next (p := fun _ => true) (by decide)).imp fun _ h => h.1⟩
theorem witness_OnlyEncAndTxallWriteTheScratchBuffer : (Instr.setl 0#32).opcode ≠ .enc ∧
    (Instr.setl 0#32).opcode ≠ .txall ∧ ∃ t, exec (.setl 0#32) ready = .next t :=
  ⟨by decide, by decide, (exists_next (p := fun _ => true) (by decide)).imp fun _ h => h.1⟩
theorem witness_CommandsLeaveEveryOtherLine : 1 ∉ linesWritten ready.cfg (.setl 0#32) ∧
    1 ∉ linesWritten ready.cfg (.tx 0#32) ∧ ∃ t, exec (.setl 0#32) ready = .next t :=
  ⟨by decide, by decide, (exists_next (p := fun _ => true) (by decide)).imp fun _ h => h.1⟩

theorem witness_EveryCommandIsCarriedOut : ready.cfg.wf = true ∧ ready.ready = true := by decide
theorem witness_WellFormedCommandsNeverEndFatally : ready.cfg.wf = true ∧
    (Instr.setc 8#32 .black).WellFormed ready.cfg = true ∧ ∃ t, exec (.setc 8#32 .black) ready = .next t :=
  ⟨by decide, by decide, (exists_next (p := fun _ => true) (by decide)).imp fun _ h => h.1⟩
theorem witness_FatalErrorsArePrecise : ready.cfg.wf = true ∧ ready.ready = true ∧
    ∃ t, exec (.setc 9#32 .black) ready = .next t ∧ t.fault ≠ .noFault :=
  ⟨by decide, by decide, (exists_next (p := fun t => t.fault ≠ .noFault) (by decide)).imp fun _ h =>
    ⟨h.1, by simpa using h.2⟩⟩

/-- Both outcomes: TX and TXALL one further, TXALL at position 1 of its first strip, and a WAIT that holds. -/
theorem witness_PositionAdvancesByOne :
    (∃ t, exec (.tx 0#32) { running (.tx 0#32) ready with pace := [.run 0, .pause 0] } = .next t ∧ t.busy = true) ∧
    (∃ t, exec .txall { running .txall ready with pace := [.run 0, .pause 0] } = .next t ∧
      (t.busy && t.upc == (([] : List Strip).map fun e => 3 + 4 + 120 * e.leds).sum + 1) = true) ∧
    (∃ t, exec .wait { running .wait ready with pace := [.run 0, .pause 0], unitsLeft := some 0 } = .next t ∧
      t.busy = true) :=
  ⟨exists_next (p := fun t => t.busy) (by decide +kernel),
    exists_next (p := fun t => t.busy && t.upc == (([] : List Strip).map fun e => 3 + 4 + 120 * e.leds).sum + 1)
      (by decide +kernel),
    exists_next (p := fun t => t.busy) (by decide +kernel)⟩
/-- The first strip, the list split before the last, and before the second. -/
theorem witness_WorkingRegistersAfterACommand : ready.cfg.wf = true ∧ ready.ready = true ∧ ready.timerLive = true ∧
    ready.unpaused = true ∧ ready.cfg.strips[(0#32 : Word32).toNat]? = some ⟨3#32, 0#8, false, 0#3⟩ ∧
    ready.cfg.strips = [⟨3#32, 0#8, false, 0#3⟩, ⟨4#32, 1#8, true, 2#3⟩] ++ [⟨2#32, 2#8, false, 5#3⟩] ∧
    (⟨2#32, 2#8, false, 5#3⟩ : Strip).leds ≠ 0 ∧
    (∀ e ∈ ({ idle cfgD with cfg := { cfgD with strips := [⟨0#32, 0#8, false, 0#3⟩], cbufLen := 0 } } : State).cfg.strips,
      e.leds = 0) ∧
    ({ cfgD with strips := [⟨0#32, 0#8, false, 0#3⟩], cbufLen := 0 } : Cfg).wf = true := by decide

theorem paused_inv : ({ ready with pace := [.pause 0] } : State).Inv where
  cfgChecked := by decide
  fatalIdle := by decide
  idleAtZero := by decide
  busyInside := by decide
  cbufForm := by decide
  scrForm := by decide
  lvlForm := by decide

theorem witness_PausingIsInvisible : ({ ready with pace := [.pause 0] } : State).Inv ∧
    ∃ t, exec (.tx 0#32) { ready with pace := [.pause 0] } = .next t ∧ t.fault = .noFault :=
  ⟨paused_inv, (exists_next (p := fun t => t.fault = .noFault) (by decide +kernel)).imp fun _ h => ⟨h.1, by simpa using h.2⟩⟩

/-- Three units, and one unit of a stopped timer, of one that matches and of one that counts. -/
theorem witness_TimePassingIsTimerSteps : ready.busy = false ∧ ready.unitsLeft = none ∧
    ({ ready with agenda := [.time 3] } : State).agenda = .time 3 :: [] ∧
    ({ ready with agenda := [.time 1] } : State).agenda = .time 1 :: [] ∧
    (Timer.mk false true 5#32 4#32 false).en = false ∧ (4#32 : Word32) + 1#32 = 5#32 ∧
    ready.timer.cnt + 1#32 ≠ ready.timer.period := by decide
/-- Period 3 with a WAIT after the second step: the third step matches, as does every step of period 1. -/
theorem witness_MatchesComeEveryPeriod : (3#32 : Word32) ≠ 0#32 ∧ (3#32 : Word32).toNat ∣ [false, true].length + 1 ∧
    (1#32 : Word32) ≠ 0#32 ∧ (1#32 : Word32).toNat ∣ [true].length + 1 := by decide
theorem witness_MissedMatchesMergeIntoOne : (5#32 : Word32) ≠ 0#32 ∧ 1 ≤ 2 := by decide
theorem witness_ArmOverwritesTheTimer : ready.ready = true ∧ ready.nextSlot.isPause = false ∧
    (1#32 : Word32) ≠ 0#32 := by decide
/-- A pending match; a counting timer without one, unbounded, with exactly the 7 units to the match and with one less; and a
stopped timer without one. -/
theorem witness_WaitConsumesTheMatch : ready.ready = true ∧ ready.nextSlot.isPause = false ∧
    ({ ready with timer := ⟨false, true, 10#32, 3#32, true⟩ } : State).takeSlot.timer.matched = true ∧
    ready.takeSlot.timer.matched = false ∧ ready.takeSlot.timer.en = true ∧ ready.unitsLeft = none ∧
    ({ ready with unitsLeft := some 7 } : State).takeSlot.unitsLeft = some 7 ∧
    ready.takeSlot.timer.stepsToMatch ≤ 7 ∧ 6 < ready.takeSlot.timer.stepsToMatch ∧
    ({ ready with timer := ⟨false, true, 10#32, 3#32, false⟩ } : State).takeSlot.timer.matched = false ∧
    ({ ready with timer := ⟨false, true, 10#32, 3#32, false⟩ } : State).takeSlot.timer.en = false := by decide
theorem witness_WaitEndsAtTheFirstMatch : ready.timer.en = true ∧ ready.timer.matched = false ∧
    0 < ready.timer.stepsToMatch := by decide
/-- A stopped timer, and a timer agent one unit short of the match; the WAIT alone, and the third micro-operation of TX. -/
theorem witness_StalledWaitHoldsForever :
    let s : State := { running .wait ready with timer := ⟨false, true, 10#32, 3#32, false⟩ }
    let r : State := { running (.tx 0#32) ready with upc := 2, unitsLeft := some 6 }
    (s.cfg.wf = true ∧ s.busy = true ∧ s.fault = .noFault ∧ s.resetDue = false ∧ decode s.cmd = .ok .wait ∧
      (expand .wait s)[s.upc]? = some .wait ∧ s.timer.matched = false ∧ s.timer.en = false) ∧
    (r.cfg.wf = true ∧ r.busy = true ∧ r.fault = .noFault ∧ r.resetDue = false ∧ decode r.cmd = .ok (.tx 0#32) ∧
      (expand (.tx 0#32) r)[r.upc]? = some .wait ∧ r.timer.matched = false ∧
      ∃ b, r.unitsLeft = some b ∧ b < r.timer.stepsToMatch) := by
  refine ⟨by decide, by decide, by decide, by decide, by decide, by decide, ?_, by decide, 6, by decide, by decide⟩
  rfl

/-- The first and the last driven line, the sink, and the first and the last id outside the set. -/
theorem witness_SetlAndSethWriteTheLine : ready.ready = true ∧ ready.nextSlot.isPause = false ∧
    ready.cfg.lines[(0#32 : Word32).toNat]? = some .driven ∧ ready.cfg.lines[(1#32 : Word32).toNat]? = some .driven ∧
    ready.cfg.lines[(2#32 : Word32).toNat]? = some .sink ∧
    ready.cfg.nLines ≤ (3#32 : Word32).toNat ∧ ready.cfg.nLines ≤ (4294967295#32 : Word32).toNat := by decide

theorem witness_EncoderPlacesTheChannels : 1 < [Color.black, ⟨1#8, 2#8, 3#8⟩].length := by decide
theorem witness_EncoderSizesAndInjectivity : encodeColors .grb [⟨1#8, 2#8, 3#8⟩] = encodeColors .grb [⟨1#8, 2#8, 3#8⟩] := rfl
theorem witness_BitsAreMostSignificantFirst : 15 / 8 < [0x80#8, 0x01#8].length := by decide
/-- The first and the last strip, the first strip number outside, and a strip that needs one byte more than there is
(CFG-C2). -/
theorem witness_EncWritesTheStripsBytes : ready.cfg.wf = true ∧ ready.ready = true ∧ ready.nextSlot.isPause = false ∧
    ready.cfg.strips[(0#32 : Word32).toNat]? = some ⟨3#32, 0#8, false, 0#3⟩ ∧
    (⟨3#32, 0#8, false, 0#3⟩ : Strip).channelOrder = some .rgb ∧
    ready.cfg.strips[(2#32 : Word32).toNat]? = some ⟨2#32, 2#8, false, 5#3⟩ ∧
    (⟨2#32, 2#8, false, 5#3⟩ : Strip).channelOrder = some .bgr ∧ ready.cfg.nStrips ≤ (3#32 : Word32).toNat ∧
    (let s := idle { cfgB with scratchBytes := 11 }
     s.ready = true ∧ s.nextSlot.isPause = false ∧ s.cfg.strips[(1#32 : Word32).toNat]? = some ⟨4#32, 1#8, true, 2#3⟩ ∧
       s.cfg.scratchBytes < 3 * (⟨4#32, 1#8, true, 2#3⟩ : Strip).leds) := by decide
/-- X5: A, B, C and C, B, A; a strip that is reversed and one that is not. -/
theorem witness_ReversalReversesTheSlice :
    let s : State := { ready with cbuf := [(0, ⟨1#8, 2#8, 3#8⟩), (1, ⟨4#8, 5#8, 6#8⟩), (2, ⟨7#8, 8#8, 9#8⟩)] }
    let t : State := { ready with cbuf := [(0, ⟨7#8, 8#8, 9#8⟩), (1, ⟨4#8, 5#8, 6#8⟩), (2, ⟨1#8, 2#8, 3#8⟩)] }
    (∀ i, i < (⟨3#32, 0#8, true, 2#3⟩ : Strip).leds → t.readColor (0 + i) = s.readColor (0 + (3 - 1 - i))) ∧
    (⟨3#32, 0#8, true, 2#3⟩ : Strip).channelOrder = some .grb ∧
    (⟨3#32, 0#8, true, 2#3⟩ : Strip).reversed = true ∧ (⟨3#32, 0#8, false, 2#3⟩ : Strip).reversed = false := by decide

/-- A strip on a driven line, one on a sink, the first strip number outside, and a strip that does not fit (CFG-C2). -/
theorem witness_TxSendsTheFrame : ready.cfg.wf = true ∧ ready.ready = true ∧ ready.timerLive = true ∧
    ready.unpaused = true ∧ ready.cfg.strips[(0#32 : Word32).toNat]? = some ⟨3#32, 0#8, false, 0#3⟩ ∧
    ready.cfg.strips[(2#32 : Word32).toNat]? = some ⟨2#32, 2#8, false, 5#3⟩ ∧
    ready.cfg.nStrips ≤ (3#32 : Word32).toNat ∧
    (let s := idle { cfgB with scratchBytes := 11 }
     s.ready = true ∧ s.cfg.strips[(1#32 : Word32).toNat]? = some ⟨4#32, 1#8, true, 2#3⟩ ∧
       s.cfg.scratchBytes < 3 * (⟨4#32, 1#8, true, 2#3⟩ : Strip).leds) := by decide
/-- A strip on a driven line, and another line than it. -/
theorem witness_TxWaveform : ready.cfg.wf = true ∧ ready.ready = true ∧ ready.timerLive = true ∧ ready.unpaused = true ∧
    ready.cfg.strips[(1#32 : Word32).toNat]? = some ⟨4#32, 1#8, true, 2#3⟩ ∧
    ready.cfg.driven (⟨4#32, 1#8, true, 2#3⟩ : Strip).lineId = true ∧
    (0 : Nat) ≠ (⟨4#32, 1#8, true, 2#3⟩ : Strip).lineId := by decide
theorem witness_TransmitTickCounts : (List.replicate 48 true).length = 24 * 2 ∧ cfgB.driven 0 = true := by decide
/-- TX 0 of CFG-D takes 4 ticks of 10 units after 25 units before the ARM, exactly as many as there are; 9 units pass before
the first poll, one short of a tick. -/
theorem witness_TransmitTakesItsTicks :
    let s : State := { idle cfgD with unitsLeft := some 65, pace := [.run 25, .run 5, .run 4, .run 9] }
    s.cfg.wf = true ∧ s.ready = true ∧ s.unpaused = true ∧ s.keepsUp (.tx 0#32) = true ∧ s.unitsLeft = some 65 ∧
    s.cfg.strips[(0#32 : Word32).toNat]? = some ⟨0#32, 0#8, false, 0#3⟩ ∧
    s.nextSlot.units + frameTicks s.cfg (⟨0#32, 0#8, false, 0#3⟩ : Strip).leds * s.cfg.tick.toNat ≤ 65 := by decide

/-- The last index inside, and the first and the last outside. -/
theorem witness_SetcWritesOneColor : ready.cfg.wf = true ∧ ready.ready = true ∧ ready.nextSlot.isPause = false ∧
    (8#32 : Word32).toNat < ready.cfg.totalLeds ∧ ready.cfg.totalLeds ≤ (9#32 : Word32).toNat ∧
    ready.cfg.totalLeds ≤ (4294967295#32 : Word32).toNat := by decide
theorem witness_FillWritesEveryColor : ready.ready = true ∧ ready.nextSlot.isPause = false ∧ 8 < ready.cfg.cbufLen ∧
    ready.cfg.cbufLen ≤ 9 := by decide
theorem witness_FillIsSetcOfEveryIndex : ready.cfg.wf = true ∧ ready.ready = true ∧ ready.unpaused = true := by decide
theorem witness_FillIsIdempotent :
    (Memory.wf (listedColor cfgB) [(8, ⟨1#8, 2#8, 3#8⟩)] ∧
      ∀ a, (Memory.find a [(8, (⟨1#8, 2#8, 3#8⟩ : Color))]).getD .black =
        (Memory.find a [(8, (⟨1#8, 2#8, 3#8⟩ : Color))]).getD .black) ∧
    ready.Inv ∧ ready.ready = true ∧ ready.unpaused = true ∧
    ∃ t, exec (.fill ⟨1#8, 2#8, 3#8⟩) ready = .next t ∧ ∃ u, exec (.fill ⟨1#8, 2#8, 3#8⟩) t = .next u := by
  refine ⟨⟨by decide, fun _ => rfl⟩, ready_inv, by decide, by decide, ?_⟩
  obtain ⟨t, h1, h2⟩ := exists_next (o := exec (.fill ⟨1#8, 2#8, 3#8⟩) ready)
    (p := fun t => after (exec (.fill ⟨1#8, 2#8, 3#8⟩) t) fun _ => true) (by decide +kernel)
  exact ⟨t, h1, (exists_next h2).imp fun _ h => h.1⟩

theorem witness_TxallTicks : ready.cfg.wf = true ∧ ready.ready = true ∧ ready.timerLive = true ∧
    ready.unpaused = true := by decide
/-- Byte 5 is the last strip's, byte 6 (the first it does not write) and byte 11 are those of the strip before, byte 12 is no
strip's. -/
theorem witness_TxallSendsEveryFrameInOrder : ready.cfg.wf = true ∧ ready.ready = true ∧ ready.timerLive = true ∧
    ready.unpaused = true ∧ ready.cfg.strips =
      [⟨3#32, 0#8, false, 0#3⟩, ⟨4#32, 1#8, true, 2#3⟩] ++ [⟨2#32, 2#8, false, 5#3⟩] ∧
    5 < 3 * (⟨2#32, 2#8, false, 5#3⟩ : Strip).leds ∧ 3 * (⟨2#32, 2#8, false, 5#3⟩ : Strip).leds ≤ 6 ∧
    11 < 3 * (⟨4#32, 1#8, true, 2#3⟩ : Strip).leds ∧ (∀ e ∈ ready.cfg.strips, 3 * e.leds ≤ 12) := by decide
theorem witness_TxallIsEncAndTxOfEveryStrip : ready.cfg.wf = true ∧ ready.ready = true ∧ ready.timerLive = true ∧
    ready.unpaused = true ∧ ready.cfg.nStrips ≤ 2 ^ 32 := by decide
/-- Where strips meet, and the first index outside. -/
theorem witness_StripsPartitionTheBuffer : cfgB.locate 2 = some (0, 2) ∧ cfgB.locate 3 = some (1, 0) ∧
    cfgB.locate 8 = some (2, 1) ∧ cfgB.locate 9 = none ∧ cfgB.totalLeds ≤ 9 ∧ cfgD.locate 0 = some (1, 0) := by decide
/-- A strip that is not reversed, and one that is. -/
theorem witness_ColorsGoToTheirWirePosition :
    (ready.cfg.locate 2 = some (0, 2) ∧ ready.cfg.strips[0]? = some ⟨3#32, 0#8, false, 0#3⟩ ∧
      (⟨3#32, 0#8, false, 0#3⟩ : Strip).channelOrder = some .rgb) ∧
    (ready.cfg.locate 5 = some (1, 2) ∧ ready.cfg.strips[1]? = some ⟨4#32, 1#8, true, 2#3⟩ ∧
      (⟨4#32, 1#8, true, 2#3⟩ : Strip).channelOrder = some .grb) := by decide

end Sys2Proof.Tests
end

section
/-!
The descriptor word of a strip, read bit by bit, then field by field (10_state.md R22).
-/

namespace Sys2Proof

/-- Each bit of the descriptor word is a bit of one field only: the fields overlap nowhere, and no field reaches
bits 63:44. -/
theorem Strip.getLsbD_desc (d : Strip) (i : Nat) :
    d.desc.getLsbD i =
      if i < 32 then d.ledCount.getLsbD i
      else if i < 40 then d.line.getLsbD (i - 32)
      else if i = 40 then d.reversed
      else d.order.getLsbD (i - 41) := by
  simp only [Strip.desc, BitVec.getLsbD_or, BitVec.getLsbD_shiftLeft, BitVec.getLsbD_setWidth, BitVec.getLsbD_ofBool]
  split_ifs with hled hline hrev
  · simp [hled, show i < 40 by omega, show i < 41 by omega, show i < 64 by omega]
  · simp [hled, hline, show i < 41 by omega, show i < 64 by omega, show i - 32 < 64 by omega,
      BitVec.getLsbD_of_ge d.ledCount i (by omega)]
  · simp [hrev]
  · have hledCount : d.ledCount.getLsbD i = false := BitVec.getLsbD_of_ge _ _ (by omega)
    have hlineBit : d.line.getLsbD (i - 32) = false := BitVec.getLsbD_of_ge _ _ (by omega)
    by_cases hi : i < 64
    · simp [hi, hledCount, hlineBit, show ¬ i < 41 by omega, show i - 40 ≠ 0 by omega, show i - 41 < 64 by omega]
    · simp [hi, hledCount, BitVec.getLsbD_of_ge d.order (i - 41) (by omega)]

@[simp] theorem Strip.ledCount_desc (d : Strip) : d.desc.extractLsb' 0 32 = d.ledCount := by
  apply BitVec.eq_of_getLsbD_eq
  intro i hi
  simp [getLsbD_desc, hi]

@[simp] theorem Strip.line_desc (d : Strip) : d.desc.extractLsb' 32 8 = d.line := by
  apply BitVec.eq_of_getLsbD_eq
  intro i hi
  simp [getLsbD_desc, hi, show 32 + i < 40 by omega]

theorem Strip.reversed_desc (d : Strip) : d.desc.getLsbD 40 = d.reversed :=
  d.getLsbD_desc 40

@[simp] theorem Strip.order_desc (d : Strip) : d.desc.extractLsb' 41 3 = d.order := by
  apply BitVec.eq_of_getLsbD_eq
  intro i hi
  simp [getLsbD_desc, hi, show ¬ 41 + i < 32 by omega, show ¬ 41 + i < 40 by omega, show 41 + i ≠ 40 by omega]

@[simp] theorem Strip.reserved_desc (d : Strip) : d.desc.extractLsb' 44 20 = 0#20 := by
  apply BitVec.eq_of_getLsbD_eq
  intro i hi
  simp [getLsbD_desc, hi, show ¬ 44 + i < 32 by omega, show ¬ 44 + i < 40 by omega, show 44 + i ≠ 40 by omega,
    BitVec.getLsbD_of_ge d.order (44 + i - 41) (by omega)]

/-- The word determines the strip. -/
@[simp] theorem Strip.ofDesc_desc (d : Strip) : Strip.ofDesc d.desc = d := by
  simp only [ofDesc, ledCount_desc, line_desc, reversed_desc, order_desc]

/-- Settles O7: each field is read off the bit-by-bit reading of the word. -/
theorem descriptorWordLayout : Obligations.DescriptorWordLayout :=
  fun d => ⟨d.ledCount_desc, d.line_desc, d.reversed_desc, d.order_desc, d.reserved_desc, d.ofDesc_desc⟩

end Sys2Proof
end

section
/-!
`locate` and the partition of the colour buffer (20_memory.md R72, R73): induction over the strips, for any number
of the first one.
-/

namespace Sys2Proof

@[simp] theorem ledsOf_nil : ledsOf [] = 0 := rfl

@[simp] theorem ledsOf_cons (d : Strip) (ds : List Strip) : ledsOf (d :: ds) = d.leds + ledsOf ds := by
  simp [ledsOf]

theorem locateFrom_cons_of_lt {g : Nat} {d : Strip} (h : g < d.leds) (k : Nat) (ds : List Strip) :
    locateFrom k g (d :: ds) = some (k, g) := by
  simp [locateFrom, h]

theorem locateFrom_cons_of_le {g : Nat} {d : Strip} (h : d.leds ≤ g) (k : Nat) (ds : List Strip) :
    locateFrom k g (d :: ds) = locateFrom (k + 1) (g - d.leds) ds := by
  simp [locateFrom, Nat.not_lt.2 h]

/-- An index is in no strip exactly when it is past the last one. -/
theorem locateFrom_eq_none_iff (k g : Nat) (ds : List Strip) :
    locateFrom k g ds = none ↔ ledsOf ds ≤ g := by
  induction ds generalizing k g with
  | nil => simp [locateFrom]
  | cons d ds ih =>
    rcases Nat.lt_or_ge g d.leds with hlt | hge
    · rw [locateFrom_cons_of_lt hlt, ledsOf_cons]
      simp only [reduceCtorEq, false_iff]
      omega
    · rw [locateFrom_cons_of_le hge, ih, ledsOf_cons]
      omega

/-- What `locateFrom` answers lies in a strip of the list, `i` strips on, at the local index. -/
theorem locateFrom_sound {k g j l : Nat} {ds : List Strip} (h : locateFrom k g ds = some (j, l)) :
    ∃ i d, j = k + i ∧ ds[i]? = some d ∧ l < d.leds ∧ g = ledsOf (ds.take i) + l := by
  induction ds generalizing k g with
  | nil => simp [locateFrom] at h
  | cons d ds ih =>
    rcases Nat.lt_or_ge g d.leds with hlt | hge
    · rw [locateFrom_cons_of_lt hlt] at h
      obtain ⟨rfl, rfl⟩ : k = j ∧ g = l := by simpa using h
      exact ⟨0, d, rfl, rfl, hlt, by simp⟩
    · rw [locateFrom_cons_of_le hge] at h
      obtain ⟨i, e, rfl, he, hl, hg⟩ := ih h
      exact ⟨i + 1, e, by omega, by simpa using he, hl, by simp; omega⟩

/-- Index `l` of strip `i` of the list is found there, so it lies in no other strip. -/
theorem locateFrom_complete {l i : Nat} {d : Strip} {ds : List Strip} (hd : ds[i]? = some d) (hl : l < d.leds)
    (k : Nat) : locateFrom k (ledsOf (ds.take i) + l) ds = some (k + i, l) := by
  induction ds generalizing k i with
  | nil => simp at hd
  | cons e ds ih =>
    cases i with
    | zero =>
      obtain rfl : e = d := by simpa using hd
      simpa using locateFrom_cons_of_lt hl k ds
    | succ i =>
      have hrest := ih (i := i) (by simpa using hd) (k + 1)
      rw [List.take_succ_cons, ledsOf_cons, locateFrom_cons_of_le (by omega), Nat.add_assoc, Nat.add_sub_cancel_left,
        hrest, Nat.add_right_comm k, Nat.add_assoc k]

theorem locate_eq_some_iff (c : Cfg) (g k l : Nat) :
    c.locate g = some (k, l) ↔ ∃ d, c.strips[k]? = some d ∧ l < d.leds ∧ g = c.start k + l := by
  constructor
  · intro h
    obtain ⟨i, d, rfl, hd, hl, hg⟩ := locateFrom_sound h
    rw [Nat.zero_add]
    exact ⟨d, hd, hl, hg⟩
  · rintro ⟨d, hd, hl, rfl⟩
    have hfound := locateFrom_complete hd hl 0
    rw [Nat.zero_add] at hfound
    exact hfound

theorem locate_eq_none_iff (c : Cfg) (g : Nat) : c.locate g = none ↔ c.totalLeds ≤ g :=
  locateFrom_eq_none_iff 0 g c.strips

/-- Settles O52: `locate` finds an index where it lies, and only there, and none at or past the end. -/
theorem stripsPartitionTheBuffer : Obligations.StripsPartitionTheBuffer :=
  fun c g => ⟨locate_eq_some_iff c g, locate_eq_none_iff c g⟩

end Sys2Proof
end

section
/-!
What decoding rejects, and what a word that decodes to no operation does (30_encoding.md R96, R97, R108).
-/

namespace Sys2Proof

/-! ## Which OPC has which format -/

/-- The OPC values without an operation (30_encoding.md R97). -/
theorem ofByte_eq_none_iff (v : BitVec 8) : Opcode.ofByte v = none ↔ v.toNat = 0 ∨ 0x0A ≤ v.toNat := by
  revert v; decide

theorem format_ofByte_z_iff (v : BitVec 8) :
    (Opcode.ofByte v).map Opcode.format = some .z ↔ v.toNat ∈ [0x02, 0x09] := by
  revert v; decide

theorem format_ofByte_a_iff (v : BitVec 8) :
    (Opcode.ofByte v).map Opcode.format = some .a ↔ v.toNat ∈ [0x01, 0x03, 0x04, 0x06] := by
  revert v; decide

theorem format_ofByte_ad_iff (v : BitVec 8) : (Opcode.ofByte v).map Opcode.format = some .ad ↔ v.toNat = 0x05 := by
  revert v; decide

theorem format_ofByte_c_iff (v : BitVec 8) : (Opcode.ofByte v).map Opcode.format = some .c ↔ v.toNat = 0x08 := by
  revert v; decide

/-! ## When a format's reserved fields are not zero -/

theorem reservedZero_z_eq_false (w : CommandWord) :
    reservedZero .z w = false ↔ aField w ≠ 0#32 ∨ bField w ≠ 0#24 := by
  simp [reservedZero, imp_iff_not_or]

theorem reservedZero_a_eq_false (w : CommandWord) : reservedZero .a w = false ↔ bField w ≠ 0#24 := by
  simp [reservedZero]

/-- Some bit of B above bit 0 is set exactly when B is at least 2. -/
theorem reservedZero_ad_eq_false (w : CommandWord) : reservedZero .ad w = false ↔ 2 ≤ (bField w).toNat := by
  simp only [reservedZero, beq_eq_false_iff_ne, ne_eq, ← BitVec.toNat_inj, BitVec.toNat_ushiftRight,
    Nat.shiftRight_one, BitVec.toNat_ofNat, Nat.zero_mod]
  omega

@[simp] theorem reservedZero_ac (w : CommandWord) : reservedZero .ac w = true := rfl

theorem reservedZero_c_eq_false (w : CommandWord) : reservedZero .c w = false ↔ aField w ≠ 0#32 := by
  simp [reservedZero]

/-! ## When decoding answers an error -/

theorem decode_eq_unknownOpcode {w : CommandWord} :
    decode w = .error .unknownOpcode ↔ Opcode.ofByte (opcField w) = none := by
  unfold decode
  cases Opcode.ofByte (opcField w) with
  | none => simp
  | some o => cases hr : reservedZero o.format w <;> simp [hr]

theorem decode_eq_reservedField {w : CommandWord} :
    decode w = .error .reservedField ↔
      ∃ f, (Opcode.ofByte (opcField w)).map Opcode.format = some f ∧ reservedZero f w = false := by
  unfold decode
  cases Opcode.ofByte (opcField w) with
  | none => simp
  | some o => cases hr : reservedZero o.format w <;> simp [hr]

theorem Format.exists_iff {p : Format → Prop} : (∃ f, p f) ↔ p .z ∨ p .a ∨ p .ad ∨ p .ac ∨ p .c := by
  constructor
  · rintro ⟨f, hf⟩
    cases f <;> simp [hf]
  · rintro (h | h | h | h | h) <;> exact ⟨_, h⟩

/-- The OPC values that decoding rejects (30_encoding.md R97). -/
theorem decode_unknownOpcode_iff (w : CommandWord) :
    decode w = .error .unknownOpcode ↔ (opcField w).toNat = 0 ∨ 0x0A ≤ (opcField w).toNat :=
  decode_eq_unknownOpcode.trans (ofByte_eq_none_iff _)

/-- The reserved fields that decoding rejects, format by format; SETC has none (30_encoding.md R96). -/
theorem decode_reservedField_iff (w : CommandWord) :
    decode w = .error .reservedField ↔
      ((opcField w).toNat ∈ [0x02, 0x09] ∧ (aField w ≠ 0#32 ∨ bField w ≠ 0#24)) ∨
      ((opcField w).toNat ∈ [0x01, 0x03, 0x04, 0x06] ∧ bField w ≠ 0#24) ∨
      ((opcField w).toNat = 0x05 ∧ 2 ≤ (bField w).toNat) ∨
      ((opcField w).toNat = 0x08 ∧ aField w ≠ 0#32) := by
  rw [decode_eq_reservedField, Format.exists_iff]
  simp only [format_ofByte_z_iff, format_ofByte_a_iff, format_ofByte_ad_iff, format_ofByte_c_iff,
    reservedZero_z_eq_false, reservedZero_a_eq_false, reservedZero_ad_eq_false, reservedZero_ac,
    reservedZero_c_eq_false, Bool.true_eq_false, and_false, false_or]

end Sys2Proof

namespace Sys2Proof.Machine

/-! ## A step on a command word -/

/-- An idle engine takes the word off the plan and runs it (30_encoding.md R90). -/
theorem step_command {s : State} {w : CommandWord} {ms : List Move} (hb : s.busy = false)
    (ha : s.agenda = .command w :: ms) : step s = runWord w { s with agenda := ms } := by
  simp [step, State.resetDue, State.dropMove, hb, ha]

/-- A ready engine accepts a word that decodes to no operation, and ends fatally (30_encoding.md R96, R97). -/
theorem runWord_of_decode_error {s : State} {w : CommandWord} {e : Illegal} (hs : s.ready = true)
    (hd : decode w = .error e) :
    runWord w s = .next { s with
      cmd := w, upc := 0, busy := false, fault := .illegal, wire := s.wire ++ [.fatal .illegal] } := by
  obtain ⟨hb, hf⟩ := ready_iff.1 hs
  simp [runWord, hd, hf, State.illegalCommand, accept_of_idle hb, State.fatal]

/-- Settles O9: each kind of illegal word has its error of the decoder, and either error is fatal. -/
theorem illegalWordIsFatal : Obligations.IllegalWordIsFatal := by
  intro s w ms hs ha h
  have herror : ∃ e, decode w = .error e := by
    rcases h with h0 | hA | hfield
    · exact ⟨_, (decode_unknownOpcode_iff w).2 (.inl h0)⟩
    · exact ⟨_, (decode_unknownOpcode_iff w).2 (.inr hA)⟩
    · exact ⟨_, (decode_reservedField_iff w).2 hfield⟩
  obtain ⟨e, hd⟩ := herror
  have hready : ({ s with agenda := ms } : State).ready = true := hs
  rw [step_command (ready_iff.1 hs).1 ha, runWord_of_decode_error hready hd]

end Sys2Proof.Machine
end

section
/-!
The six channel orders (30_encoding.md R104), order by order.
-/

namespace Sys2Proof

@[simp] theorem ChannelOrder.ofCode_code (o : ChannelOrder) : ofCode o.code = some o := by
  cases o <;> rfl

/-- Each of the three channels has its own offset (30_encoding.md R104). -/
theorem ChannelOrder.offsets_perm (o : ChannelOrder) : [o.red, o.green, o.blue].Perm [0, 1, 2] := by
  cases o <;> decide

/-- Settles O6: the table of the eight codes is closed, and the rest holds order by order. -/
theorem channelOrdersArePermutations : Obligations.ChannelOrdersArePermutations :=
  ⟨by decide, fun o => ⟨o.ofCode_code, o.offsets_perm⟩⟩

end Sys2Proof
end

section
/-!
The timer surface: the moves of the other timer user (40_timer_pin_surface.md R132), the match that comes once a period
(R120, R128), and the host commands that need no match: ARM (R121), SETL and SETH (R123 to R125).
-/

namespace Sys2Proof.Machine

/-! ## The other timer user -/

/-- An idle engine takes the other timer user's move off the plan, whatever FAULT is (40_timer_pin_surface.md R132). -/
theorem step_otherTimer {s : State} {t : Timer} {ms : List Move} (hb : s.busy = false)
    (ha : s.agenda = .otherTimer t :: ms) : step s = .next (s.dropMove.otherTimerUser t) := by
  simp [step, State.resetDue, hb, ha]

/-- Settles O12: the move is the next one, and what it leaves is the plan without it and the new timer. -/
theorem otherTimerUserTouchesOnlyTheTimer : Obligations.OtherTimerUserTouchesOnlyTheTimer := by
  intro s t ms hb ha
  rw [step_otherTimer hb ha]
  simp [State.otherTimerUser, State.dropMove, ha]

/-! ## One match a period -/

/-- A count of the numbers modulo `p`: at `p` it starts again at 0. -/
theorem add_one_mod_eq_ite {p : Nat} (hp : 0 < p) (n : Nat) :
    (n + 1) % p = if n % p + 1 = p then 0 else n % p + 1 := by
  have hlt : n % p < p := Nat.mod_lt n hp
  rw [← Nat.mod_add_mod]
  split_ifs with h
  · rw [h, Nat.mod_self]
  · exact Nat.mod_eq_of_lt (by omega)

theorem dvd_add_one_iff {p : Nat} (hp : 0 < p) (n : Nat) : p ∣ n + 1 ↔ n % p + 1 = p := by
  rw [Nat.dvd_iff_mod_eq_zero, add_one_mod_eq_ite hp]
  split_ifs with h <;> simp [h]

/-- The timer counts with period `p`, and `n` of its steps have passed since the ARM (40_timer_pin_surface.md R128). It
says nothing about T_MATCH: a WAIT may have consumed any match. -/
structure Timer.StepsSinceArm (p : Word32) (n : Nat) (t : Timer) : Prop where
  en : t.en = true
  period : t.period = p
  cnt : t.cnt.toNat = n % p.toNat

namespace Timer.StepsSinceArm

variable {p : Word32} {n : Nat} {t : Timer}

theorem armed (p : Word32) : StepsSinceArm p 0 (Timer.armed p) :=
  ⟨rfl, rfl, (Nat.zero_mod _).symm⟩

theorem consume (h : StepsSinceArm p n t) : StepsSinceArm p n t.consume :=
  ⟨h.en, h.period, h.cnt⟩

theorem toNat_cnt_succ (h : StepsSinceArm p n t) (hp : 0 < p.toNat) : (t.cnt + 1#32).toNat = n % p.toNat + 1 := by
  have hlt : n % p.toNat < p.toNat := Nat.mod_lt n hp
  have hbound := p.isLt
  rw [BitVec.toNat_add, h.cnt, BitVec.toNat_ofNat]
  omega

/-- The next step reaches the period exactly when the count is about to start again (40_timer_pin_surface.md R120). -/
theorem cnt_succ_eq_period_iff (h : StepsSinceArm p n t) (hp : 0 < p.toNat) :
    t.cnt + 1#32 = t.period ↔ n % p.toNat + 1 = p.toNat := by
  rw [h.period, ← BitVec.toNat_inj, h.toNat_cnt_succ hp]

theorem step (h : StepsSinceArm p n t) (hp : 0 < p.toNat) : StepsSinceArm p (n + 1) t.step := by
  refine ⟨(step_en t).trans h.en, (step_period t).trans h.period, ?_⟩
  have hlast := h.cnt_succ_eq_period_iff hp
  rw [add_one_mod_eq_ite hp]
  by_cases hmatch : t.cnt + 1#32 = t.period
  · simp [Timer.step, h.en, hmatch, hlast.1 hmatch]
  · simp only [Timer.step, h.en, if_true, if_neg hmatch, if_neg (hmatch ∘ hlast.2), h.toNat_cnt_succ hp]

/-- Whatever WAITs consume between the steps, the count goes on. -/
theorem foldl_step (h : StepsSinceArm p n t) (hp : 0 < p.toNat) (ws : List Bool) :
    StepsSinceArm p (n + ws.length)
      (ws.foldl (fun t consumed => if consumed then t.step.consume else t.step) t) := by
  induction ws generalizing n t with
  | nil => exact h
  | cons consumed ws ih =>
    rw [List.length_cons, Nat.add_comm ws.length, ← Nat.add_assoc, List.foldl_cons]
    cases consumed with
    | true => exact ih (h.step hp).consume
    | false => exact ih (h.step hp)

end Timer.StepsSinceArm

/-- A counting timer without a pending match gets one from the step that reaches the period, and from no other
(40_timer_pin_surface.md R120). -/
theorem consume_step_matched {t : Timer} (h : t.en = true) :
    t.consume.step.matched = true ↔ t.cnt + 1#32 = t.period := by
  by_cases hmatch : t.cnt + 1#32 = t.period <;> simp [Timer.step, Timer.consume, h, hmatch]

/-- Settles O28: the count since the ARM is the number of the steps modulo the period. -/
theorem matchesComeEveryPeriod : Obligations.MatchesComeEveryPeriod := by
  intro p ws hp t
  have hpos : 0 < p.toNat := Nat.pos_of_ne_zero fun h0 => hp (BitVec.eq_of_toNat_eq (by simpa using h0))
  have ht : t.StepsSinceArm p ws.length := by
    simpa using (Timer.StepsSinceArm.armed p).foldl_step hpos ws
  rw [consume_step_matched ht.en, ht.cnt_succ_eq_period_iff hpos, dvd_add_one_iff hpos]

/-! ## ARM, SETL and SETH -/

theorem armTimer_of_ne_zero {p : Word32} (h : p ≠ 0#32) (s : State) :
    s.armTimer p = { s with timer := Timer.armed p, wire := s.wire ++ [.arm p] } := by
  simp [State.armTimer, h]

@[simp] theorem armTimer_zero (s : State) : s.armTimer 0#32 = s.fatal .illegal := by
  simp [State.armTimer]

theorem setLine_of_driven {s : State} {id : Nat} (h : s.cfg.lines[id]? = some .driven) (level : Bool) :
    s.setLine id level = { s with lvl := Memory.insert id level s.lvl, wire := s.wire ++ [.set id level] } := by
  simp [State.setLine, h]

theorem setLine_of_sink {s : State} {id : Nat} (h : s.cfg.lines[id]? = some .sink) (level : Bool) :
    s.setLine id level = s := by
  simp [State.setLine, h]

theorem setLine_of_outside {s : State} {id : Nat} (h : s.cfg.nLines ≤ id) (level : Bool) :
    s.setLine id level = s.fatal .illegal := by
  have hnone : s.cfg.lines[id]? = none := List.getElem?_eq_none h
  simp [State.setLine, hnone]

/-- Command `i` accepted and its first slot taken: the state its first micro-operation finds. -/
def State.accepted (i : Instr) (s : State) : State := { s.takeSlot with cmd := encode i, busy := true, upc := 0 }

/-- A command's only micro-operation is done: it completes, unless that was fatal. -/
def State.completeUnlessFatal (s : State) : State := if s.fault = .noFault then s.complete else s

theorem completeUnlessFatal_of_noFault {s : State} (h : s.fault = .noFault) : s.completeUnlessFatal = s.complete :=
  if_pos h

theorem completeUnlessFatal_fatal_illegal (s : State) :
    (s.fatal .illegal).completeUnlessFatal = s.fatal .illegal :=
  if_neg (by simp)

theorem exec_arm_eq {s : State} (hs : s.ready = true) (hp : s.nextSlot.isPause = false) (p : Word32) :
    exec (.arm p) s = .next ((s.accepted (.arm p)).armTimer p).completeUnlessFatal :=
  (issue_ready hs _ _).trans (carry_one (.arm p) (.arm p) hp rfl)

/-- SETL and SETH are one line write, of level low and high. -/
theorem exec_setLine_eq {s : State} (hs : s.ready = true) (hp : s.nextSlot.isPause = false) {id : Word32}
    {c : Instr × Bool} (hc : c ∈ [(Instr.setl id, false), (Instr.seth id, true)]) :
    exec c.1 s = .next ((s.accepted c.1).setLine id.toNat c.2).completeUnlessFatal := by
  obtain rfl | rfl : c = (.setl id, false) ∨ c = (.seth id, true) := by simpa using hc
  · exact (issue_ready hs _ _).trans (carry_one (.setl id) (.setl id.toNat) hp rfl)
  · exact (issue_ready hs _ _).trans (carry_one (.seth id) (.seth id.toNat) hp rfl)

/-- Settles O30: a period of at least 1 arms and completes, period 0 is fatal. -/
theorem armOverwritesTheTimer : Obligations.ArmOverwritesTheTimer := by
  intro s hs hp
  have hf : s.fault = .noFault := (ready_iff.1 hs).2
  constructor
  · intro p hperiod
    rw [exec_arm_eq hs hp, armTimer_of_ne_zero hperiod]
    exact congrArg Host.Outcome.next (completeUnlessFatal_of_noFault hf)
  · rw [exec_arm_eq hs hp, armTimer_zero, completeUnlessFatal_fatal_illegal]
    rfl

/-- Settles O34: the three kinds of line id, for either level. -/
theorem setlAndSethWriteTheLine : Obligations.SetlAndSethWriteTheLine := by
  intro s id hs hp c hc
  have hf : s.fault = .noFault := (ready_iff.1 hs).2
  rw [exec_setLine_eq hs hp hc]
  refine ⟨fun hdriven => ⟨Memory.insert id.toNat c.2 s.lvl, ?_, ?_, ?_⟩, fun hsink => ?_, fun houtside => ?_⟩
  · rw [setLine_of_driven (s := s.accepted c.1) hdriven]
    exact congrArg Host.Outcome.next (completeUnlessFatal_of_noFault hf)
  · rw [find_insert, if_pos rfl]
  · intro q hq
    rw [find_insert, if_neg hq]
    rfl
  · rw [setLine_of_sink (s := s.accepted c.1) hsink]
    exact congrArg Host.Outcome.next (completeUnlessFatal_of_noFault hf)
  · rw [setLine_of_outside (s := s.accepted c.1) houtside, completeUnlessFatal_fatal_illegal]
    rfl

end Sys2Proof.Machine
end

section
/-!
A list of bytes or bits that is put together from pieces of one length: the encoder (41_physical_strip.md R141,
R142) and the bit sequence (R144).
-/

namespace Sys2Proof.Machine

/-! ## Lists put together from pieces of one length -/

section Pieces

variable {α β : Type} {n : Nat} {f g : α → List β}

theorem length_flatMap_of_length (hf : ∀ a, (f a).length = n) (as : List α) :
    (as.flatMap f).length = n * as.length := by
  simp [List.length_flatMap, hf, Nat.mul_comm]

/-- Position `p` of piece `i`. -/
theorem getElem?_flatMap_of_length (hf : ∀ a, (f a).length = n) {as : List α} {i p : Nat} {a : α}
    (ha : as[i]? = some a) (hp : p < n) : (as.flatMap f)[n * i + p]? = (f a)[p]? := by
  induction as generalizing i with
  | nil => simp at ha
  | cons b as ih =>
    rw [List.flatMap_cons]
    cases i with
    | zero =>
      obtain rfl : b = a := by simpa using ha
      rw [Nat.mul_zero, Nat.zero_add, List.getElem?_append_left (by rwa [hf])]
    | succ i =>
      have hskip : n * (i + 1) + p = n + (n * i + p) := by rw [Nat.mul_succ]; omega
      rw [hskip, List.getElem?_append_right (by rw [hf]; omega), hf, Nat.add_sub_cancel_left]
      exact ih (by simpa using ha)

/-- Two such lists are equal exactly when they are equal piece by piece. -/
theorem flatMap_eq_flatMap_iff (hn : 0 < n) (hf : ∀ a, (f a).length = n) (hg : ∀ a, (g a).length = n)
    (as bs : List α) : as.flatMap f = bs.flatMap g ↔ List.Forall₂ (fun a b => f a = g b) as bs := by
  have hfne : ∀ a, f a ≠ [] := fun a => List.ne_nil_of_length_pos (by rwa [hf])
  have hgne : ∀ b, g b ≠ [] := fun b => List.ne_nil_of_length_pos (by rwa [hg])
  induction as generalizing bs with
  | nil => cases bs <;> simp [hgne]
  | cons a as ih =>
    cases bs with
    | nil => simp [hfne]
    | cons b bs =>
      have hlen : (f a).length = (g b).length := (hf a).trans (hg b).symm
      rw [List.flatMap_cons, List.flatMap_cons, List.forall₂_cons]
      exact ⟨fun h => (List.append_inj h hlen).imp_right (ih bs).1, fun ⟨ha, has⟩ => by rw [ha, (ih bs).2 has]⟩

end Pieces

/-! ## The bytes of a Color -/

@[simp] theorem length_wireBytes (o : ChannelOrder) (c : Color) : (wireBytes o c).length = 3 := by
  simp [wireBytes]

theorem getElem?_wireBytes_red (o : ChannelOrder) (c : Color) : (wireBytes o c)[o.red]? = some c.r := by
  cases o <;> rfl

theorem getElem?_wireBytes_green (o : ChannelOrder) (c : Color) : (wireBytes o c)[o.green]? = some c.g := by
  cases o <;> rfl

theorem getElem?_wireBytes_blue (o : ChannelOrder) (c : Color) : (wireBytes o c)[o.blue]? = some c.b := by
  cases o <;> rfl

/-- No byte of a Color is lost: each channel can be read off at its own offset (41_physical_strip.md R142). -/
theorem wireBytes_injective (o : ChannelOrder) : Function.Injective (wireBytes o) := by
  intro c d h
  have hr := getElem?_wireBytes_red o c
  have hg := getElem?_wireBytes_green o c
  have hb := getElem?_wireBytes_blue o c
  simp only [h, getElem?_wireBytes_red, getElem?_wireBytes_green, getElem?_wireBytes_blue, Option.some.injEq]
    at hr hg hb
  cases c
  cases d
  simp_all

theorem offsets_lt (o : ChannelOrder) : o.red < 3 ∧ o.green < 3 ∧ o.blue < 3 := by
  cases o <;> decide

/-! ## The encoder -/

@[simp] theorem length_encodeColors (o : ChannelOrder) (cs : List Color) :
    (encodeColors o cs).length = 3 * cs.length :=
  length_flatMap_of_length (length_wireBytes o) cs

/-- The three bytes of Color `i` (41_physical_strip.md R141). -/
theorem getElem?_encodeColors (o : ChannelOrder) {cs : List Color} {i : Nat} {c : Color} (hc : cs[i]? = some c) :
    (encodeColors o cs)[3 * i + o.red]? = some c.r ∧ (encodeColors o cs)[3 * i + o.green]? = some c.g ∧
      (encodeColors o cs)[3 * i + o.blue]? = some c.b := by
  obtain ⟨hr, hg, hb⟩ := offsets_lt o
  exact ⟨(getElem?_flatMap_of_length (length_wireBytes o) hc hr).trans (getElem?_wireBytes_red o c),
    (getElem?_flatMap_of_length (length_wireBytes o) hc hg).trans (getElem?_wireBytes_green o c),
    (getElem?_flatMap_of_length (length_wireBytes o) hc hb).trans (getElem?_wireBytes_blue o c)⟩

theorem encodeColors_eq_iff (o p : ChannelOrder) (cs ds : List Color) :
    encodeColors o cs = encodeColors p ds ↔ List.Forall₂ (fun c d => wireBytes o c = wireBytes p d) cs ds :=
  flatMap_eq_flatMap_iff (by decide) (length_wireBytes o) (length_wireBytes p) cs ds

theorem encodeColors_injective (o : ChannelOrder) : Function.Injective (encodeColors o) := by
  intro cs ds h
  rw [encodeColors_eq_iff] at h
  exact List.forall₂_eq_eq_eq ▸ h.imp fun _ _ hcd => wireBytes_injective o hcd

/-- Settles O35: Color `i` is in the `i`th of the pieces of 3 bytes. -/
theorem encoderPlacesTheChannels : Obligations.EncoderPlacesTheChannels :=
  fun o cs => ⟨length_encodeColors o cs, fun _ hi => getElem?_encodeColors o (List.getElem?_eq_getElem hi)⟩

/-! ## The bits -/

@[simp] theorem length_byteBits (b : Byte) : (byteBits b).length = 8 := by
  simp [byteBits]

theorem getElem?_byteBits (b : Byte) {i : Nat} (hi : i < 8) : (byteBits b)[i]? = some (b.getLsbD (7 - i)) := by
  simp [byteBits, hi]

@[simp] theorem length_bitsOf (bytes : List Byte) : (bitsOf bytes).length = 8 * bytes.length :=
  length_flatMap_of_length length_byteBits bytes

/-- Bit `J` is in the piece of byte `J / 8` (41_physical_strip.md R144). -/
theorem getElem?_bitsOf {bytes : List Byte} {J : Nat} (hJ : J / 8 < bytes.length) :
    (bitsOf bytes)[J]? = some (bytes[J / 8].getLsbD (7 - J % 8)) := by
  have hmod : J % 8 < 8 := Nat.mod_lt J (by decide)
  have hpiece := getElem?_flatMap_of_length length_byteBits (List.getElem?_eq_getElem hJ) hmod
  rw [Nat.div_add_mod, getElem?_byteBits _ hmod] at hpiece
  exact hpiece

/-- Settles O36: sizes piece by piece, and equal lists have equal pieces. -/
theorem encoderSizesAndInjectivity : Obligations.EncoderSizesAndInjectivity := by
  refine ⟨fun o cs => ⟨length_encodeColors o cs, ?_⟩, fun _ => rfl, fun o _ _ h => encodeColors_injective o h,
    fun o p cs => ?_⟩
  · rw [length_bitsOf, length_encodeColors, ← Nat.mul_assoc]
  · rw [encodeColors_eq_iff, List.forall₂_same]

/-- Settles O37: bit `J` is in the piece of byte `J / 8`. -/
theorem bitsAreMostSignificantFirst : Obligations.BitsAreMostSignificantFirst :=
  fun bytes => ⟨length_bitsOf bytes, fun _ hJ => getElem?_bitsOf hJ⟩

end Sys2Proof.Machine
end

section
/-!
ENC (41_physical_strip.md R143): a strip that does not exist, one that is larger than the scratch buffer, and one that
fits.
-/

namespace Sys2Proof.Machine

/-! ## The Colors of a strip in transmission order -/

@[simp] theorem length_slice (off n : Nat) (s : State) : (s.slice off n).length = n := by
  simp [State.slice]

theorem getElem?_slice (off : Nat) {n i : Nat} (hi : i < n) (s : State) :
    (s.slice off n)[i]? = some (s.readColor (off + i)) := by
  simp [State.slice, hi]

@[simp] theorem length_transmissionOrder (off n : Nat) (dir : Direction) (s : State) :
    (s.transmissionOrder off n dir).length = n := by
  cases dir <;> simp [State.transmissionOrder]

/-- LED `i` on the wire has the slice's Color `i`, counted from the slice's other end in reverse. -/
theorem getElem?_transmissionOrder (off : Nat) {n i : Nat} (hi : i < n) (dir : Direction) (s : State) :
    (s.transmissionOrder off n dir)[i]? =
      some (s.readColor (off + if dir = .forward then i else n - 1 - i)) := by
  cases dir with
  | forward => exact getElem?_slice off hi s
  | reverse =>
    rw [State.transmissionOrder, List.getElem?_reverse (by rwa [length_slice]), length_slice]
    exact getElem?_slice off (by omega) s

/-! ## The bytes of a strip -/

theorem encodedBytes_of_order {d : Strip} {o : ChannelOrder} (ho : d.channelOrder = some o) (off : Nat)
    (dir : Direction) (s : State) :
    s.encodedBytes off d dir = encodeColors o (s.transmissionOrder off d.leds dir) := by
  simp [State.encodedBytes, ho]

theorem length_encodedBytes {d : Strip} {o : ChannelOrder} (ho : d.channelOrder = some o) (off : Nat)
    (dir : Direction) (s : State) : (s.encodedBytes off d dir).length = 3 * d.leds := by
  rw [encodedBytes_of_order ho, length_encodeColors, length_transmissionOrder]

/-- The three bytes of LED `i` (41_physical_strip.md R143). -/
theorem getElem?_encodedBytes {d : Strip} {o : ChannelOrder} (ho : d.channelOrder = some o) (off : Nat) {i : Nat}
    (hi : i < d.leds) (dir : Direction) (s : State) :
    let c := s.readColor (off + if dir = .forward then i else d.leds - 1 - i)
    (s.encodedBytes off d dir)[3 * i + o.red]? = some c.r ∧
      (s.encodedBytes off d dir)[3 * i + o.green]? = some c.g ∧
      (s.encodedBytes off d dir)[3 * i + o.blue]? = some c.b := by
  rw [encodedBytes_of_order ho]
  exact getElem?_encodeColors o (getElem?_transmissionOrder off hi dir s)

/-- A byte that is written reads back. -/
theorem readByte_writeBytes_of_getElem? {out : List Byte} {b : Nat} {x : Byte} (h : out[b]? = some x) (s : State) :
    (s.writeBytes out).readByte b = x := by
  obtain ⟨hb, hx⟩ := List.getElem?_eq_some_iff.1 h
  rw [readByte_writeBytes, dif_pos hb, hx]

theorem readByte_writeBytes_of_le {out : List Byte} {b : Nat} (h : out.length ≤ b) (s : State) :
    (s.writeBytes out).readByte b = s.readByte b := by
  rw [readByte_writeBytes, dif_neg (Nat.not_lt.2 h)]

/-! ## ENCODE and ENC -/

/-- K, N, OFF and DIR as ENCODE writes them, before it checks the strip's size (41_physical_strip.md R143). -/
def State.chooseStrip (k : Nat) (d : Strip) (dir : Direction) (s : State) : State :=
  { s.selectStrip k d with off := BitVec.ofNat 32 (s.cfg.start k), dir := dir }

theorem encodeStrip_of_missing {s : State} {k : Nat} (h : s.cfg.strips[k]? = none) (dir : Direction) :
    s.encodeStrip k dir = s.fatal .illegal := by
  simp [State.encodeStrip, h]

theorem encodeStrip_of_oversized {s : State} {k : Nat} {d : Strip} (hd : s.cfg.strips[k]? = some d)
    (h : s.cfg.scratchBytes < 3 * d.leds) (dir : Direction) :
    s.encodeStrip k dir = (s.chooseStrip k d dir).fatal .config := by
  simp [State.encodeStrip, State.chooseStrip, hd, h]

/-- A strip that fits; what I becomes is left open (log entry 15). -/
theorem encodeStrip_of_fits {s : State} {k : Nat} {d : Strip} (hd : s.cfg.strips[k]? = some d)
    (h : 3 * d.leds ≤ s.cfg.scratchBytes) (dir : Direction) :
    ∃ i, s.encodeStrip k dir =
      State.writeBytes (s.encodedBytes (s.cfg.start k) d dir) { s.chooseStrip k d dir with i := i } := by
  simp only [State.encodeStrip, hd, if_neg (Nat.not_lt.2 h)]
  exact ⟨_, rfl⟩

/-- ENC of a strip that does not exist is issued: it ends fatally before it reads. -/
theorem whenEncodable_of_missing {c : Cfg} {k : Nat} (h : c.strips[k]? = none)
    (body : Host.Outcome State Fault Refusal) : whenEncodable [k] c body = body := by
  simp [whenEncodable, Cfg.sliceExists, Cfg.orderExists, h]

/-- ENC of a strip that does not fit the scratch buffer is issued: it ends fatally before it reads. -/
theorem whenEncodable_of_oversized {c : Cfg} {k : Nat} {d : Strip} (hd : c.strips[k]? = some d)
    (h : c.scratchBytes < 3 * d.leds) (body : Host.Outcome State Fault Refusal) :
    whenEncodable [k] c body = body := by
  simp [whenEncodable, Cfg.sliceExists, Cfg.orderExists, hd, h]

theorem completeUnlessFatal_fatal_config (s : State) : (s.fatal .config).completeUnlessFatal = s.fatal .config :=
  if_neg (by simp)

/-- ENC is its one ENCODE, where the strip can be encoded or ENCODE ends fatally on it. -/
theorem exec_enc_eq {s : State} (hs : s.ready = true) (hp : s.nextSlot.isPause = false) {strip : Word32}
    (hencodable : ∀ body, whenEncodable [strip.toNat] s.cfg body = body) (dir : Direction) :
    exec (.enc strip dir) s =
      .next ((s.accepted (.enc strip dir)).encodeStrip strip.toNat dir).completeUnlessFatal := by
  have hexec : exec (.enc strip dir) s = execEnc strip dir s := rfl
  rw [hexec, execEnc, issue_ready hs, hencodable]
  exact carry_one (.enc strip dir) (.encode strip.toNat dir) hp rfl

theorem exec_enc_of_missing {s : State} (hs : s.ready = true) (hp : s.nextSlot.isPause = false) {strip : Word32}
    (h : s.cfg.strips[strip.toNat]? = none) (dir : Direction) :
    exec (.enc strip dir) s = .next ((s.accepted (.enc strip dir)).fatal .illegal) := by
  rw [exec_enc_eq hs hp (whenEncodable_of_missing h),
    encodeStrip_of_missing (s := s.accepted (.enc strip dir)) h, completeUnlessFatal_fatal_illegal]

theorem exec_enc_of_oversized {s : State} (hs : s.ready = true) (hp : s.nextSlot.isPause = false) {strip : Word32}
    {d : Strip} (hd : s.cfg.strips[strip.toNat]? = some d) (h : s.cfg.scratchBytes < 3 * d.leds) (dir : Direction) :
    exec (.enc strip dir) s =
      .next (((s.accepted (.enc strip dir)).chooseStrip strip.toNat d dir).fatal .config) := by
  rw [exec_enc_eq hs hp (whenEncodable_of_oversized hd h),
    encodeStrip_of_oversized (s := s.accepted (.enc strip dir)) hd h, completeUnlessFatal_fatal_config]

/-- ENC of a strip of a well-formed configuration completes with the strip's bytes written. -/
theorem exec_enc_of_wf {s : State} (hs : s.ready = true) (hp : s.nextSlot.isPause = false) (hwf : s.cfg.wf = true)
    {strip : Word32} {d : Strip} (hd : s.cfg.strips[strip.toNat]? = some d) (dir : Direction) :
    ∃ i, exec (.enc strip dir) s = .next (State.complete (State.writeBytes
      (s.encodedBytes (s.cfg.start strip.toNat) d dir)
      { (s.accepted (.enc strip dir)).chooseStrip strip.toNat d dir with i := i })) := by
  have hf : s.fault = .noFault := (ready_iff.1 hs).2
  have hfits : 3 * d.leds ≤ s.cfg.scratchBytes := (wf_strip hwf (List.mem_of_getElem? hd)).1
  obtain ⟨i, hi⟩ := encodeStrip_of_fits (s := s.accepted (.enc strip dir)) hd hfits dir
  refine ⟨i, ?_⟩
  rw [exec_enc_eq hs hp (whenEncodable_wf hwf _), hi]
  exact congrArg Host.Outcome.next (completeUnlessFatal_of_noFault hf)

/-- Settles O38: each of the three cases as ENCODE has it, and the bytes of an LED as the encoder places them. -/
theorem encWritesTheStripsBytes : Obligations.EncWritesTheStripsBytes := by
  intro s strip dir hs hp
  refine ⟨fun hmissing => ?_, fun d hd hbig => ?_, fun d o hwf hd ho => ?_⟩
  · rw [exec_enc_of_missing hs hp (List.getElem?_eq_none hmissing)]
    rfl
  · rw [exec_enc_of_oversized hs hp hd hbig]
    simp [State.fatal, State.chooseStrip, State.selectStrip, State.accepted]
  · obtain ⟨i, hexec⟩ := exec_enc_of_wf hs hp hwf hd dir
    refine ⟨_, hexec, ?_, fun j hj => ?_, fun b hb => ?_⟩
    · simp [State.complete, State.writeBytes, State.chooseStrip, State.selectStrip, State.accepted]
    · obtain ⟨hr, hg, hb⟩ := getElem?_encodedBytes ho (s.cfg.start strip.toNat) hj dir s
      exact ⟨readByte_writeBytes_of_getElem? hr _, readByte_writeBytes_of_getElem? hg _,
        readByte_writeBytes_of_getElem? hb _⟩
    · exact readByte_writeBytes_of_le (by rwa [length_encodedBytes ho]) _

end Sys2Proof.Machine
end

section
/-!
What a transmit counts up to and what it puts on the lines (41_physical_strip.md R147, R149, R150).
-/

namespace Sys2Proof.Machine

/-! ## Micro-operations of a transmit -/

/-- Pieces that each hold a value the same number of times. -/
theorem count_flatMap_of_count {α β : Type} [BEq β] {f : α → List β} {x : β} {n : Nat}
    (hf : ∀ a, (f a).count x = n) (as : List α) : (as.flatMap f).count x = n * as.length := by
  simp [List.count_flatMap, Function.comp_def, hf, Nat.mul_comm]

theorem length_cell (ln : Nat) (b : Bool) : (cell ln b).length = 5 := by
  cases b <;> rfl

theorem count_arm_cell (p : Word32) (ln : Nat) (b : Bool) : (cell ln b).count (.arm p) = 0 := by
  cases b <;> simp [cell]

theorem count_wait_cell (ln : Nat) (b : Bool) : (cell ln b).count .wait = 3 := by
  cases b <;> simp [cell]

theorem count_seth_cell (ln : Nat) (b : Bool) : (cell ln b).count (.seth ln) = 1 := by
  cases b <;> simp [cell]

theorem count_setl_cell (ln : Nat) (b : Bool) : (cell ln b).count (.setl ln) = 1 := by
  cases b <;> simp [cell]

theorem length_txExpand (c : Cfg) (ln : Nat) (bs : List Bool) :
    (txExpand c ln bs).length = 2 + c.resetTicks + 5 * bs.length := by
  simp only [txExpand, List.length_append, List.length_cons, List.length_nil, List.length_replicate,
    length_flatMap_of_length (length_cell ln)]

theorem count_arm_txExpand (c : Cfg) (ln : Nat) (bs : List Bool) : (txExpand c ln bs).count (.arm c.tick) = 1 := by
  simp [txExpand, count_flatMap_of_count (count_arm_cell c.tick ln), List.count_replicate]

theorem count_wait_txExpand (c : Cfg) (ln : Nat) (bs : List Bool) :
    (txExpand c ln bs).count .wait = c.resetTicks + 3 * bs.length := by
  simp [txExpand, count_flatMap_of_count (count_wait_cell ln)]

theorem count_seth_txExpand (c : Cfg) (ln : Nat) (bs : List Bool) :
    (txExpand c ln bs).count (.seth ln) = bs.length := by
  simp [txExpand, count_flatMap_of_count (count_seth_cell ln), List.count_replicate]

theorem count_setl_txExpand (c : Cfg) (ln : Nat) (bs : List Bool) :
    (txExpand c ln bs).count (.setl ln) = 1 + bs.length := by
  simp [txExpand, count_flatMap_of_count (count_setl_cell ln), List.count_replicate, Nat.add_comm]

/-! ## Waveforms -/

/-- The second part of a segment finds the level the first one leaves (10_state.md R45). -/
theorem wave_append (id : Nat) (l : Bool) (es fs : List Event) :
    wave id l (es ++ fs) = wave id l es ++ wave id (levelAfter id l es) fs := by
  induction es generalizing l with
  | nil => rfl
  | cons e es ih => cases e <;> simp [wave, levelAfter, ih]

@[simp] theorem wave_replicate_tick (id : Nat) (l : Bool) (n : Nat) :
    wave id l (List.replicate n .tick) = List.replicate n l := by
  induction n with
  | zero => rfl
  | succ n ih => simp [List.replicate_succ, wave, ih]

@[simp] theorem levelAfter_replicate_tick (id : Nat) (l : Bool) (n : Nat) :
    levelAfter id l (List.replicate n .tick) = l := by
  induction n with
  | zero => rfl
  | succ n ih => simp [List.replicate_succ, levelAfter, ih]

/-- On a line that a segment does not write every tick has the level before. -/
theorem wave_of_no_set {id : Nat} {es : List Event} (h : ∀ level, .set id level ∉ es) (l : Bool) :
    wave id l es = List.replicate (es.count .tick) l := by
  induction es with
  | nil => rfl
  | cons e es ih =>
    have hes : ∀ level, .set id level ∉ es := fun level hmem => h level (List.mem_cons_of_mem e hmem)
    cases e with
    | set ln level =>
      have hln : ln ≠ id := by
        rintro rfl
        exact h level List.mem_cons_self
      simpa [wave, hln] using ih hes
    | tick => simpa [wave, List.replicate_succ] using ih hes
    | arm => simpa [wave] using ih hes
    | fatal => simpa [wave] using ih hes

/-! ## The frame on its own line -/

section Driven

variable {c : Cfg} {ln : Nat}

/-- `HHL` for a 1 and `HLL` for a 0, whatever the level before (30_encoding.md R105). -/
theorem wave_cellEvents (h : c.driven ln = true) (l b : Bool) : wave ln l (cellEvents c ln b) = cellLevels b := by
  cases b <;> simp [cellEvents, cellLevels, setEvents, h, wave, List.replicate]

theorem wave_flatMap_cellEvents (h : c.driven ln = true) (l : Bool) (bs : List Bool) :
    wave ln l (bs.flatMap (cellEvents c ln)) = bs.flatMap cellLevels := by
  induction bs generalizing l with
  | nil => rfl
  | cons b bs ih => rw [List.flatMap_cons, List.flatMap_cons, wave_append, wave_cellEvents h, ih]

/-- The SETL before the first WAIT makes the waveform independent of the level before (41_physical_strip.md R150). -/
theorem wave_frameEvents (h : c.driven ln = true) (l : Bool) (bs : List Bool) :
    wave ln l (frameEvents c ln bs) = frameLevels c bs := by
  simp [frameEvents, frameLevels, setEvents, h, wave, wave_append, wave_flatMap_cellEvents h]

end Driven

theorem count_true_flatMap_cellLevels (bs : List Bool) :
    (bs.flatMap cellLevels).count true = bs.length + bs.count true := by
  induction bs with
  | nil => rfl
  | cons b bs ih => cases b <;> simp [cellLevels, ih] <;> omega

theorem count_false_flatMap_cellLevels (bs : List Bool) :
    (bs.flatMap cellLevels).count false + bs.count true = 2 * bs.length := by
  induction bs with
  | nil => rfl
  | cons b bs ih => cases b <;> simp [cellLevels] <;> omega

theorem count_true_frameLevels (c : Cfg) (bs : List Bool) :
    (frameLevels c bs).count true = bs.length + bs.count true := by
  simp [frameLevels, List.count_replicate, count_true_flatMap_cellLevels]

theorem count_false_frameLevels (c : Cfg) (bs : List Bool) :
    (frameLevels c bs).count false + bs.count true = c.resetTicks + 2 * bs.length := by
  simp [frameLevels, Nat.add_assoc, count_false_flatMap_cellLevels]

/-- Settles O40: the counts of one bit, as often as there are bits. -/
theorem transmitTickCounts : Obligations.TransmitTickCounts := by
  intro c ln n bs hbs
  refine ⟨?_, count_arm_txExpand c ln bs, ?_, ?_, ?_, fun hdriven l => ?_⟩
  · rw [length_txExpand, hbs]
    omega
  · rw [count_wait_txExpand, hbs]
    omega
  · rw [count_seth_txExpand, hbs]
  · rw [count_setl_txExpand, hbs]
  · rw [wave_frameEvents hdriven, count_true_frameLevels, count_false_frameLevels, hbs]
    omega

/-! ## The frame on every other line -/

theorem mem_setEvents {c : Cfg} {ln : Nat} {level : Bool} {e : Event} (h : e ∈ setEvents c ln level) :
    e = .set ln level := by
  unfold setEvents at h
  split at h <;> simp_all

/-- A frame writes no line but its own (41_physical_strip.md R150). -/
theorem set_notMem_frameEvents {c : Cfg} {ln id : Nat} (h : id ≠ ln) (bs : List Bool) (level : Bool) :
    .set id level ∉ frameEvents c ln bs := by
  have hset : ∀ v, Event.set id level ∉ setEvents c ln v := fun v hmem => by
    cases mem_setEvents hmem
    exact h rfl
  simp [frameEvents, cellEvents, hset, List.mem_replicate]

theorem count_tick_setEvents (c : Cfg) (ln : Nat) (level : Bool) : (setEvents c ln level).count .tick = 0 := by
  unfold setEvents
  split <;> simp

theorem count_tick_cellEvents (c : Cfg) (ln : Nat) (b : Bool) : (cellEvents c ln b).count .tick = 3 := by
  cases b <;> simp [cellEvents, count_tick_setEvents]

/-- The ticks of a frame, on a driven line and on a sink (30_encoding.md R106). -/
theorem count_tick_frameEvents (c : Cfg) (ln : Nat) (bs : List Bool) :
    (frameEvents c ln bs).count .tick = c.resetTicks + 3 * bs.length := by
  simp [frameEvents, count_tick_setEvents, count_flatMap_of_count (count_tick_cellEvents c ln)]

theorem wave_frameEvents_other {c : Cfg} {ln id : Nat} (h : id ≠ ln) (l : Bool) (bs : List Bool) :
    wave id l (frameEvents c ln bs) = List.replicate (c.resetTicks + 3 * bs.length) l := by
  rw [wave_of_no_set (set_notMem_frameEvents h bs), count_tick_frameEvents]

end Sys2Proof.Machine
end

section
/-!
TX (41_physical_strip.md R148, R150, R152): its two fatal ends before the ARM, and the frame of a strip that fits.
-/

namespace Sys2Proof.Machine

/-- What `Carried` does not speak of are the fields a run of micro-operations may change. -/
theorem Carried.eq_update {s t : State} (h : Carried s t) : t = { s with
    timer := t.timer, lvl := t.lvl, j := t.j, tc := t.tc, upc := t.upc, wire := t.wire, pace := t.pace,
    unitsLeft := t.unitsLeft } := by
  obtain ⟨hcfg, hcbuf, hscr, hk, hoff, hn, hi, hdir, hcmd, hbusy, hfault, hagenda, hdraws⟩ := h
  cases t
  simp_all

theorem timer_eq {t : Timer} {en mie matched : Bool} {period : Word32} (hen : t.en = en) (hmie : t.mie = mie)
    (hperiod : t.period = period) (hmatched : t.matched = matched) : t = ⟨en, mie, period, t.cnt, matched⟩ := by
  subst hen hmie hperiod hmatched
  rfl

@[simp] theorem length_readBytes (n : Nat) (s : State) : (s.readBytes n).length = n := by
  simp [State.readBytes]

/-! ## The EvArm of a frame -/

theorem frameEvents_eq_cons (c : Cfg) (ln : Nat) (bs : List Bool) :
    frameEvents c ln bs = .arm c.tick :: (frameEvents c ln bs).tail := rfl

theorem wave_tail_frameEvents (c : Cfg) (ln id : Nat) (l : Bool) (bs : List Bool) :
    wave id l (frameEvents c ln bs).tail = wave id l (frameEvents c ln bs) := rfl

/-! ## TX -/

/-- TX accepted, with K and N written: the state its ARM finds. -/
def State.txAccepted (strip : Word32) (d : Strip) (s : State) : State :=
  State.selectStrip strip.toNat d { s with cmd := encode (.tx strip), busy := true, upc := 0 }

/-- TX of a strip that does not exist ends fatally, its command accepted and nothing done. -/
theorem exec_tx_of_missing {s : State} (hs : s.ready = true) {strip : Word32}
    (h : s.cfg.strips[strip.toNat]? = none) :
    exec (.tx strip) s =
      .next (State.fatal .illegal { s with cmd := encode (.tx strip), busy := true, upc := 0 }) := by
  have hexec : exec (.tx strip) s = execTx strip s := rfl
  rw [hexec, execTx, issue_ready hs]
  simp only [h]

/-- TX of a strip that does not fit the scratch buffer ends fatally with K and N written. -/
theorem exec_tx_of_oversized {s : State} (hs : s.ready = true) {strip : Word32} {d : Strip}
    (hd : s.cfg.strips[strip.toNat]? = some d) (h : s.cfg.scratchBytes < 3 * d.leds) :
    exec (.tx strip) s = .next ((s.txAccepted strip d).fatal .config) := by
  have hexec : exec (.tx strip) s = execTx strip s := rfl
  rw [hexec, execTx, issue_ready hs]
  simp only [hd, if_pos h]
  rfl

/-- TX of a strip that fits is the transmit of the bits of its bytes. -/
theorem exec_tx_of_fits {s : State} (hs : s.ready = true) {strip : Word32} {d : Strip}
    (hd : s.cfg.strips[strip.toNat]? = some d) (h : 3 * d.leds ≤ s.cfg.scratchBytes) :
    exec (.tx strip) s = .next (drive (.tx strip) (txExpand s.cfg d.lineId (bitsOf (s.readBytes (3 * d.leds))))
      (s.txAccepted strip d)) := by
  have hexec : exec (.tx strip) s = execTx strip s := rfl
  rw [hexec, execTx, issue_ready hs]
  simp only [hd, if_neg (Nat.not_lt.2 h), carryOut, if_true, selectStrip_upc, List.drop_zero]
  rfl

/-- The latch of a transmit's own line (41_physical_strip.md R152; on a sink 40_timer_pin_surface.md R125). -/
theorem find_txLatches_self (c : Cfg) (ln : Nat) (bs : List Bool) (l : List (Nat × Bool)) :
    Memory.find ln (txLatches c ln bs l) = if c.driven ln then some false else Memory.find ln l := by
  cases hdriven : c.driven ln with
  | true => exact txLatches_driven hdriven bs l
  | false => rw [txLatches_sink hdriven]; rfl

/-- A TX that nothing stops (41_physical_strip.md R148, R152). -/
theorem exec_tx_of_calm {s : State} (hs : s.ready = true) (hc : s.Calm) (hwf : s.cfg.wf = true) {strip : Word32}
    {d : Strip} (hd : s.cfg.strips[strip.toNat]? = some d) :
    ∃ t, exec (.tx strip) s = .next t ∧
      t = { s with
        cmd := encode (.tx strip), busy := false, upc := 0, k := strip, n := d.ledCount,
        wire := s.wire ++ frameEvents s.cfg d.lineId (bitsOf (s.readBytes (3 * d.leds))),
        timer := { en := true, mie := true, period := s.cfg.tick, cnt := t.timer.cnt, matched := false },
        lvl := txLatches s.cfg d.lineId (bitsOf (s.readBytes (3 * d.leds))) s.lvl,
        j := t.j, tc := t.tc, pace := t.pace } := by
  obtain ⟨hfits, -, hline⟩ := wf_strip hwf (List.mem_of_getElem? hd)
  obtain ⟨t, hdrive, hcarried, hcalm, hen, hmie, hperiod, hmatched, hlvl, hwire⟩ :=
    transmit_run (s := s.txAccepted strip d) (.tx strip) (bitsOf (s.readBytes (3 * d.leds))) [] ⟨hc.live, hc.steady⟩
      (ready_iff.1 hs).2 (wf_tick hwf) hline (wf_resetTicks hwf)
  rw [List.append_nil] at hdrive
  refine ⟨t.complete, (exec_tx_of_fits hs hd hfits).trans (congrArg _ hdrive), ?_⟩
  have hunits : t.unitsLeft = s.unitsLeft := hcalm.live.trans hc.live.symm
  have htimer : t.timer = ⟨true, true, s.cfg.tick, t.timer.cnt, false⟩ := timer_eq hen hmie hperiod hmatched
  have ht := hcarried.eq_update
  rw [htimer, hlvl, hwire, hunits] at ht
  rw [ht]
  simp [State.complete, State.txAccepted, State.selectStrip]

/-- Settles O42: the two fatal ends, and the transmit whose own latch ends low. -/
theorem txSendsTheFrame : Obligations.TxSendsTheFrame := by
  intro s strip hs
  refine ⟨fun hmissing => ?_, fun d hd hbig => ?_, fun d hwf hlive hsteady hd => ?_⟩
  · rw [exec_tx_of_missing hs (List.getElem?_eq_none hmissing)]
    rfl
  · rw [exec_tx_of_oversized hs hd hbig]
    simp [State.fatal, State.txAccepted, State.selectStrip]
  · obtain ⟨t, hexec, ht⟩ := exec_tx_of_calm hs ⟨Option.isNone_iff_eq_none.1 hlive, hsteady⟩ hwf hd
    have hlvl : t.lvl = txLatches s.cfg d.lineId (bitsOf (s.readBytes (3 * d.leds))) s.lvl := by rw [ht]
    refine ⟨t, hexec, hlvl ▸ ht, ?_, fun q hq => ?_⟩
    · rw [State.level, hlvl, find_txLatches_self]
      rfl
    · rw [State.level, hlvl, txLatches_other hq]
      rfl

/-- Settles O43: WIRE gains the frame, whose first event is the EvArm, which no waveform shows. -/
theorem txWaveform : Obligations.TxWaveform := by
  intro s strip d hwf hs hlive hsteady hd
  obtain ⟨t, hexec, ht⟩ := exec_tx_of_calm hs ⟨Option.isNone_iff_eq_none.1 hlive, hsteady⟩ hwf hd
  have hlen : (bitsOf (s.readBytes (3 * d.leds))).length = 24 * d.leds := by
    rw [length_bitsOf, length_readBytes, ← Nat.mul_assoc]
  refine ⟨t, (frameEvents s.cfg d.lineId (bitsOf (s.readBytes (3 * d.leds)))).tail, hexec, ?_, fun hdriven l => ?_,
    fun id l hid => ?_⟩
  · rw [ht, ← frameEvents_eq_cons]
  · rw [wave_tail_frameEvents]
    exact wave_frameEvents hdriven l _
  · rw [wave_tail_frameEvents, wave_frameEvents_other hid, hlen, ← Nat.mul_assoc]

end Sys2Proof.Machine
end

section
/-!
SETC and FILL (42_logical_strip.md R160, R161): each is its one micro-operation.
-/

namespace Sys2Proof.Machine

/-! ## SETC -/

theorem setColor_of_lt {s : State} {idx : Nat} (h : idx < s.cfg.totalLeds) (c : Color) :
    s.setColor idx c = s.writeColor idx c :=
  if_neg (Nat.not_le.2 h)

theorem setColor_of_le {s : State} {idx : Nat} (h : s.cfg.totalLeds ≤ idx) (c : Color) :
    s.setColor idx c = s.fatal .index :=
  if_pos h

theorem completeUnlessFatal_fatal_index (s : State) : (s.fatal .index).completeUnlessFatal = s.fatal .index :=
  if_neg (by simp)

/-- SETC is its one SETCOLOR, unless the index lies inside TOTAL_LEDS and outside the buffer (log entry 14). -/
theorem exec_setc_eq {s : State} (hs : s.ready = true) (hp : s.nextSlot.isPause = false) {idx : Word32}
    (h : ¬ (idx.toNat < s.cfg.totalLeds ∧ s.cfg.cbufLen ≤ idx.toNat)) (c : Color) :
    exec (.setc idx c) s = .next ((s.accepted (.setc idx c)).setColor idx.toNat c).completeUnlessFatal := by
  have hexec : exec (.setc idx c) s = execSetc idx c s := rfl
  rw [hexec, execSetc, issue_ready hs]
  exact (if_neg h).trans (carry_one (.setc idx c) (.setColor idx.toNat c) hp rfl)

/-- SETC of a well-formed configuration's index completes with the entry written. -/
theorem exec_setc_of_lt {s : State} (hs : s.ready = true) (hp : s.nextSlot.isPause = false) (hwf : s.cfg.wf = true)
    {idx : Word32} (h : idx.toNat < s.cfg.totalLeds) (c : Color) :
    exec (.setc idx c) s = .next ((s.accepted (.setc idx c)).writeColor idx.toNat c).complete := by
  have hf : s.fault = .noFault := (ready_iff.1 hs).2
  have hlen : s.cfg.cbufLen = s.cfg.totalLeds := wf_cbufLen hwf
  rw [exec_setc_eq hs hp (by omega), setColor_of_lt (s := s.accepted (.setc idx c)) h]
  exact congrArg Host.Outcome.next (completeUnlessFatal_of_noFault hf)

theorem exec_setc_of_le {s : State} (hs : s.ready = true) (hp : s.nextSlot.isPause = false) {idx : Word32}
    (h : s.cfg.totalLeds ≤ idx.toNat) (c : Color) :
    exec (.setc idx c) s = .next ((s.accepted (.setc idx c)).fatal .index) := by
  rw [exec_setc_eq hs hp (by omega), setColor_of_le (s := s.accepted (.setc idx c)) h,
    completeUnlessFatal_fatal_index]

/-- Settles O45: an index below TOTAL_LEDS is one write of the buffer, any other is fatal. -/
theorem setcWritesOneColor : Obligations.SetcWritesOneColor := by
  intro s idx c hs hp
  refine ⟨fun hwf hlt => ⟨_, exec_setc_of_lt hs hp hwf hlt c, rfl, ?_, fun a ha => ?_⟩, fun hle => ?_⟩
  · exact (readColor_writeColor _ _ _ c).trans (if_pos rfl)
  · exact (readColor_writeColor _ _ _ c).trans (if_neg ha)
  · rw [exec_setc_of_le hs hp hle]
    rfl

/-! ## FILL -/

/-- FILL is its one write of the whole buffer, and completes. -/
theorem exec_fill_eq {s : State} (hs : s.ready = true) (hp : s.nextSlot.isPause = false) (c : Color) :
    exec (.fill c) s = .next ((s.accepted (.fill c)).fillColors c).complete := by
  have hf : s.fault = .noFault := (ready_iff.1 hs).2
  have hexec : exec (.fill c) s = .next ((s.accepted (.fill c)).fillColors c).completeUnlessFatal :=
    (issue_ready hs _ _).trans (carry_one (.fill c) (.fillAll c) hp rfl)
  rw [hexec]
  exact congrArg Host.Outcome.next (completeUnlessFatal_of_noFault hf)

/-- Settles O46: FILL's write reads as the Color below CBUF_LEN and as before from there on. -/
theorem fillWritesEveryColor : Obligations.FillWritesEveryColor := by
  intro s c hs hp
  refine ⟨_, exec_fill_eq hs hp c, rfl, fun a ha => ?_, fun a ha => ?_⟩
  · exact (readColor_fillColors _ a c).trans (if_pos ha)
  · exact (readColor_fillColors _ a c).trans (if_neg (Nat.not_lt.2 ha))

end Sys2Proof.Machine
end

section
/-!
The bytes of a strip in its own direction (42_logical_strip.md R164, R167), and that they are made of the colour buffer
alone.
-/

namespace Sys2Proof.Machine

theorem direction_of_reversed {d : Strip} (h : d.reversed = true) : d.direction = .reverse :=
  if_pos h

theorem direction_of_not_reversed {d : Strip} (h : d.reversed = false) : d.direction = .forward :=
  if_neg (by simp [h])

/-- Only the Colors in transmission order and the strip's channel order make the bytes. -/
theorem encodedBytes_congr {s t : State} {off : Nat} {d : Strip} {dir dir' : Direction}
    (h : s.transmissionOrder off d.leds dir = t.transmissionOrder off d.leds dir') :
    s.encodedBytes off d dir = t.encodedBytes off d dir' := by
  simp only [State.encodedBytes, h]

/-- Two slices that are the reverse of one another, one read in reverse and one forward. -/
theorem transmissionOrder_reverse_eq_forward {s t : State} {off n : Nat}
    (h : ∀ i, i < n → t.readColor (off + i) = s.readColor (off + (n - 1 - i))) :
    s.transmissionOrder off n .reverse = t.transmissionOrder off n .forward := by
  apply List.ext_getElem?
  intro i
  by_cases hi : i < n
  · rw [getElem?_transmissionOrder off hi, getElem?_transmissionOrder off hi]
    simp [h i hi]
  · rw [List.getElem?_eq_none (by simpa using hi), List.getElem?_eq_none (by simpa using hi)]

/-- Settles O39: a strip's direction is its reversed bit, and the bytes are made of the Colors in transmission order. -/
theorem reversalReversesTheSlice : Obligations.ReversalReversesTheSlice := by
  refine ⟨fun s off d o ho => ⟨fun hrev => ?_, fun hfwd => ?_⟩, fun s t off d h => ?_⟩
  · rw [direction_of_reversed hrev, encodedBytes_of_order ho]
    rfl
  · rw [direction_of_not_reversed hfwd, encodedBytes_of_order ho]
    rfl
  · exact encodedBytes_congr (d := d) (transmissionOrder_reverse_eq_forward h)

end Sys2Proof.Machine
end

section
/-!
TXALL (42_logical_strip.md R165, R168): what the service of one strip leaves, the induction over the strips, and the
command.
-/

namespace Sys2Proof.Machine

/-! ## Everything a TXALL sends is made of the configuration and the colour buffer -/

/-- The micro-operations of TXALL for strip `d` with number `k`, whose slice starts at `off`. -/
def State.stripProgram (s : State) (k off : Nat) (d : Strip) : List Micro :=
  .encode k d.direction :: txExpand s.cfg d.lineId (s.stripBits off d)

theorem txallProgram_cons (s : State) (k off : Nat) (d : Strip) (ds : List Strip) :
    txallProgram s k off (d :: ds) = s.stripProgram k off d ++ txallProgram s (k + 1) (off + d.leds) ds := rfl

theorem txallProgram_concat (s : State) (k off : Nat) (ds : List Strip) (d : Strip) :
    txallProgram s k off (ds ++ [d]) =
      txallProgram s k off ds ++ s.stripProgram (k + ds.length) (off + ledsOf ds) d := by
  induction ds generalizing k off with
  | nil => simp [txallProgram, State.stripProgram, State.stripBits]
  | cons e ds ih =>
    rw [List.cons_append, txallProgram_cons, txallProgram_cons, ih, List.append_assoc, ledsOf_cons, List.length_cons]
    congr 3 <;> omega

theorem txallEvents_concat (s : State) (off : Nat) (ds : List Strip) (d : Strip) :
    txallEvents s off (ds ++ [d]) =
      txallEvents s off ds ++ frameEvents s.cfg d.lineId (s.stripBits (off + ledsOf ds) d) := by
  induction ds generalizing off with
  | nil => simp [txallEvents]
  | cons e ds ih => rw [List.cons_append, txallEvents, txallEvents, ih, ledsOf_cons, List.append_assoc, Nat.add_assoc]

section Congruence

variable {s t : State}

theorem encodedBytes_of_cbuf_eq (h : t.cbuf = s.cbuf) (off : Nat) (d : Strip) (dir : Direction) :
    t.encodedBytes off d dir = s.encodedBytes off d dir := by
  have hslice : t.slice off d.leds = s.slice off d.leds := by
    simp only [State.slice, State.readColor, h]
  exact encodedBytes_congr (by simp only [State.transmissionOrder, hslice])

theorem stripBits_of_cbuf_eq (h : t.cbuf = s.cbuf) (off : Nat) (d : Strip) : t.stripBits off d = s.stripBits off d :=
  congrArg bitsOf (encodedBytes_of_cbuf_eq h off d d.direction)

theorem stripProgram_congr (hcfg : t.cfg = s.cfg) (hcbuf : t.cbuf = s.cbuf) (k off : Nat) (d : Strip) :
    t.stripProgram k off d = s.stripProgram k off d := by
  rw [State.stripProgram, hcfg, stripBits_of_cbuf_eq hcbuf, State.stripProgram]

theorem txallProgram_congr (hcfg : t.cfg = s.cfg) (hcbuf : t.cbuf = s.cbuf) (k off : Nat) (ds : List Strip) :
    txallProgram t k off ds = txallProgram s k off ds := by
  induction ds generalizing k off with
  | nil => rfl
  | cons d ds ih => rw [txallProgram_cons, txallProgram_cons, stripProgram_congr hcfg hcbuf, ih]

theorem txallEvents_congr (hcfg : t.cfg = s.cfg) (hcbuf : t.cbuf = s.cbuf) (off : Nat) (ds : List Strip) :
    txallEvents t off ds = txallEvents s off ds := by
  induction ds generalizing off with
  | nil => rfl
  | cons d ds ih => rw [txallEvents, txallEvents, hcfg, stripBits_of_cbuf_eq hcbuf, ih]

theorem readByte_congr (hscr : t.scr = s.scr) (hdraws : t.draws = s.draws) (b : Nat) : t.readByte b = s.readByte b := by
  rw [State.readByte, hscr, hdraws, State.readByte]

end Congruence

/-! ## The length of the expansion -/

theorem length_stripProgram {d : Strip} (h : d.channelOrder.isSome = true) (s : State) (k off : Nat) :
    (s.stripProgram k off d).length = 3 + s.cfg.resetTicks + 120 * d.leds := by
  obtain ⟨o, ho⟩ := Option.isSome_iff_exists.1 h
  rw [State.stripProgram, List.length_cons, length_txExpand, State.stripBits, length_bitsOf, length_encodedBytes ho]
  omega

theorem length_txallProgram {s : State} {ds : List Strip} (h : ∀ d ∈ ds, d.channelOrder.isSome = true) (k off : Nat) :
    (txallProgram s k off ds).length = (ds.map fun d => 3 + s.cfg.resetTicks + 120 * d.leds).sum := by
  induction ds generalizing k off with
  | nil => rfl
  | cons d ds ih =>
    rw [txallProgram_cons, List.length_append, length_stripProgram (h d List.mem_cons_self),
      ih fun e he => h e (List.mem_cons_of_mem d he), List.map_cons, List.sum_cons]

/-! ## The service of one strip -/

/-- What a TXALL leaves as it is, strip after strip. -/
structure TxallKeeps (s t : State) : Prop where
  cfg : t.cfg = s.cfg
  cbuf : t.cbuf = s.cbuf
  cmd : t.cmd = s.cmd
  fault : t.fault = s.fault
  agenda : t.agenda = s.agenda
  draws : t.draws = s.draws

theorem TxallKeeps.refl (s : State) : TxallKeeps s s := ⟨rfl, rfl, rfl, rfl, rfl, rfl⟩

theorem TxallKeeps.trans {s t u : State} (h : TxallKeeps s t) (g : TxallKeeps t u) : TxallKeeps s u :=
  ⟨g.cfg.trans h.cfg, g.cbuf.trans h.cbuf, g.cmd.trans h.cmd, g.fault.trans h.fault, g.agenda.trans h.agenda,
    g.draws.trans h.draws⟩

theorem Carried.txallKeeps {s t : State} (h : Carried s t) : TxallKeeps s t :=
  ⟨h.cfg, h.cbuf, h.cmd, h.fault, h.agenda, h.draws⟩

/-- Strip `d` with number `k` has been encoded and transmitted. -/
structure StripSent (s t : State) (k : Nat) (d : Strip) : Prop where
  keeps : TxallKeeps s t
  calm : t.Calm
  scr : t.scr = putBytes 0 (s.encodedBytes (s.cfg.start k) d d.direction) s.scr
  lvl : t.lvl = txLatches s.cfg d.lineId (s.stripBits (s.cfg.start k) d) s.lvl
  wire : t.wire = s.wire ++ frameEvents s.cfg d.lineId (s.stripBits (s.cfg.start k) d)
  timer : t.timer = ⟨true, true, s.cfg.tick, t.timer.cnt, false⟩
  k : t.k = BitVec.ofNat 32 k
  n : t.n = d.ledCount
  dir : t.dir = d.direction

/-- The ENCODE of a strip that fits, in a calm state. -/
theorem encode_turn (rest : List Micro) {s : State} (hc : s.Calm) (hf : s.fault = .noFault) {k : Nat} {d : Strip}
    (hd : s.cfg.strips[k]? = some d) (hfits : 3 * d.leds ≤ s.cfg.scratchBytes) :
    ∃ t, drive .txall (.encode k d.direction :: rest) s = drive .txall rest t ∧ TxallKeeps s t ∧ t.Calm ∧
      t.scr = putBytes 0 (s.encodedBytes (s.cfg.start k) d d.direction) s.scr ∧ t.lvl = s.lvl ∧ t.wire = s.wire ∧
      t.k = BitVec.ofNat 32 k ∧ t.n = d.ledCount ∧ t.dir = d.direction := by
  obtain ⟨i, hencode⟩ := encodeStrip_of_fits (s := s.takeSlot) hd hfits d.direction
  have hfault : (Micro.perform (.encode k d.direction) s.takeSlot).fault = .noFault := by
    rw [Micro.perform, hencode]
    exact hf
  have hturn := hc.drive_cons .txall rest rfl hfault
  rw [Micro.perform, hencode] at hturn
  exact ⟨_, hturn, ⟨rfl, rfl, rfl, rfl, rfl, rfl⟩, ⟨hc.takeSlot.live, hc.takeSlot.steady⟩, rfl, rfl, rfl, rfl,
    ofNat_leds d, rfl⟩

/-- The service of one strip: its ENCODE and its transmit (42_logical_strip.md R165). -/
theorem strip_run (rest : List Micro) {s : State} (hc : s.Calm) (hf : s.fault = .noFault)
    (hwf : s.cfg.wf = true) {k : Nat} {d : Strip} (hd : s.cfg.strips[k]? = some d) :
    ∃ t, drive .txall (s.stripProgram k (s.cfg.start k) d ++ rest) s = drive .txall rest t ∧ StripSent s t k d := by
  obtain ⟨hfits, -, hline⟩ := wf_strip hwf (List.mem_of_getElem? hd)
  obtain ⟨a, henc, hkeeps, hcalm, hscr, hlvl, hwire, hk, hn, hdir⟩ := encode_turn
    (txExpand s.cfg d.lineId (s.stripBits (s.cfg.start k) d) ++ rest) hc hf hd hfits
  have hcfg : a.cfg = s.cfg := hkeeps.cfg
  obtain ⟨t, htx, hcarried, htcalm, hen, hmie, hperiod, hmatched, htlvl, htwire⟩ :=
    transmit_run .txall (s.stripBits (s.cfg.start k) d) rest hcalm (hkeeps.fault.trans hf) (hcfg ▸ wf_tick hwf)
      (hcfg ▸ hline) (hcfg ▸ wf_resetTicks hwf)
  rw [hcfg] at htx hperiod htlvl htwire
  exact ⟨t, henc.trans htx, {
    keeps := hkeeps.trans hcarried.txallKeeps
    calm := htcalm
    scr := hcarried.scr.trans hscr
    lvl := hlvl ▸ htlvl
    wire := hwire ▸ htwire
    timer := timer_eq hen hmie hperiod hmatched
    k := hcarried.k.trans hk
    n := hcarried.n.trans hn
    dir := hcarried.dir.trans hdir }⟩

section StripSent

variable {s t : State} {k : Nat} {d : Strip}

theorem StripSent.readByte (h : StripSent s t k d) (b : Nat) :
    t.readByte b = (s.writeBytes (s.encodedBytes (s.cfg.start k) d d.direction)).readByte b :=
  readByte_congr (s := State.writeBytes _ s) h.scr h.keeps.draws b

/-- The strip's own bytes stand in SCR. -/
theorem StripSent.readByte_of_lt (h : StripSent s t k d) (ho : d.channelOrder.isSome = true) {b : Nat}
    (hb : b < 3 * d.leds) : (s.encodedBytes (s.cfg.start k) d d.direction)[b]? = some (t.readByte b) := by
  obtain ⟨o, ho⟩ := Option.isSome_iff_exists.1 ho
  have hlt : b < (s.encodedBytes (s.cfg.start k) d d.direction).length := by rwa [length_encodedBytes ho]
  rw [h.readByte, readByte_writeBytes_of_getElem? (List.getElem?_eq_getElem hlt), List.getElem?_eq_getElem hlt]

/-- A byte past the strip's own stays. -/
theorem StripSent.readByte_of_le (h : StripSent s t k d) (ho : d.channelOrder.isSome = true) {b : Nat}
    (hb : 3 * d.leds ≤ b) : t.readByte b = s.readByte b := by
  obtain ⟨o, ho⟩ := Option.isSome_iff_exists.1 ho
  rw [h.readByte, readByte_writeBytes_of_le (by rwa [length_encodedBytes ho])]

theorem StripSent.level_self (h : StripSent s t k d) (hd : s.cfg.driven d.lineId = true) :
    t.level d.lineId = some false := by
  rw [State.level, h.lvl, txLatches_driven hd]

theorem StripSent.level_other (h : StripSent s t k d) {q : Nat} (hq : q ≠ d.lineId) : t.level q = s.level q := by
  rw [State.level, h.lvl, txLatches_other hq, State.level]

end StripSent

/-! ## The strips in order -/

/-- The first strips `ds` of the configuration have been encoded and transmitted (42_logical_strip.md R168). -/
structure StripsSent (s t : State) (ds : List Strip) : Prop where
  keeps : TxallKeeps s t
  calm : t.Calm
  wire : t.wire = s.wire ++ txallEvents s 0 ds
  written : ∀ (es fs : List Strip) (e : Strip) (b : Nat), ds = es ++ e :: fs → b < 3 * e.leds →
    (∀ f ∈ fs, 3 * f.leds ≤ b) → (s.encodedBytes (ledsOf es) e e.direction)[b]? = some (t.readByte b)
  unwritten : ∀ b, (∀ e ∈ ds, 3 * e.leds ≤ b) → t.readByte b = s.readByte b
  low : ∀ e ∈ ds, s.cfg.driven e.lineId = true → t.level e.lineId = some false
  otherLines : ∀ q, q ∉ ds.map Strip.lineId → t.level q = s.level q

theorem StripsSent.nil {s : State} (hc : s.Calm) : StripsSent s s [] where
  keeps := .refl s
  calm := hc
  wire := (List.append_nil s.wire).symm
  written es fs e b hsplit := by simp at hsplit
  unwritten _ _ := rfl
  low e he := by simp at he
  otherLines _ _ := rfl

/-- START of the strip that comes after the strips `ds`. -/
theorem start_length {c : Cfg} {ds fs : List Strip} (h : c.strips = ds ++ fs) : c.start ds.length = ledsOf ds := by
  simp [Cfg.start, h]

section Concat

variable {s u t : State} {ds fs : List Strip} {d : Strip}

/-- After one more strip: a byte is the new strip's own, or the new strip does not reach it and it is as before. -/
theorem StripsSent.written_concat (h : StripsSent s u ds) (hstart : u.cfg.start ds.length = ledsOf ds)
    (ho : d.channelOrder.isSome = true) (hd : StripSent u t ds.length d) {es gs : List Strip} {e : Strip} {b : Nat}
    (hsplit : ds ++ [d] = es ++ e :: gs) (hb : b < 3 * e.leds) (hgs : ∀ g ∈ gs, 3 * g.leds ≤ b) :
    (s.encodedBytes (ledsOf es) e e.direction)[b]? = some (t.readByte b) := by
  rcases List.eq_nil_or_concat gs with rfl | ⟨gs, g, rfl⟩
  · obtain ⟨rfl, hde⟩ := List.append_inj' hsplit rfl
    obtain rfl : d = e := List.singleton_inj.1 hde
    rw [← encodedBytes_of_cbuf_eq h.keeps.cbuf, ← hstart]
    exact hd.readByte_of_lt ho hb
  · rw [List.concat_eq_append, ← List.cons_append, ← List.append_assoc] at hsplit
    obtain ⟨hds, hdg⟩ := List.append_inj' hsplit rfl
    obtain rfl : d = g := List.singleton_inj.1 hdg
    rw [hd.readByte_of_le ho (hgs d (by simp))]
    exact h.written es gs e b hds hb fun f hf => hgs f (by simp [hf])

/-- After one more strip: a line is the new strip's own, or it is as before. -/
theorem StripsSent.low_concat (h : StripsSent s u ds) (hd : StripSent u t ds.length d) {e : Strip}
    (he : e ∈ ds ++ [d]) (hdriven : s.cfg.driven e.lineId = true) : t.level e.lineId = some false := by
  by_cases hline : e.lineId = d.lineId
  · rw [hline] at hdriven ⊢
    exact hd.level_self (h.keeps.cfg ▸ hdriven)
  · have hmem : e ∈ ds := by
      refine (List.mem_append.1 he).resolve_right fun hed => hline ?_
      rw [List.mem_singleton.1 hed]
    exact (hd.level_other hline).trans (h.low e hmem hdriven)

/-- One more strip has been served. -/
theorem StripsSent.concat (h : StripsSent s u ds) (hstrips : s.cfg.strips = ds ++ d :: fs)
    (ho : d.channelOrder.isSome = true) (hd : StripSent u t ds.length d) : StripsSent s t (ds ++ [d]) := by
  have hstart : u.cfg.start ds.length = ledsOf ds := start_length (by rw [h.keeps.cfg, hstrips])
  refine ⟨h.keeps.trans hd.keeps, hd.calm, ?_, fun es gs e b => h.written_concat hstart ho hd, fun b hb => ?_,
    fun e => h.low_concat hd, fun q hq => ?_⟩
  · rw [hd.wire, h.wire, hstart, h.keeps.cfg, stripBits_of_cbuf_eq h.keeps.cbuf, txallEvents_concat, Nat.zero_add,
      List.append_assoc]
  · rw [hd.readByte_of_le ho (hb d (by simp))]
    exact h.unwritten b fun e he => hb e (by simp [he])
  · rw [List.map_append, List.mem_append, not_or] at hq
    rw [hd.level_other (by simpa using hq.2)]
    exact h.otherLines q hq.1

end Concat

/-- The next strip is served where the strips before it have been. -/
theorem StripsSent.serve_next {s u : State} {ds fs : List Strip} {d : Strip} (h : StripsSent s u ds)
    (hf : s.fault = .noFault) (hwf : s.cfg.wf = true) (hstrips : s.cfg.strips = ds ++ d :: fs) (rest : List Micro) :
    ∃ t, drive .txall (s.stripProgram ds.length (ledsOf ds) d ++ rest) u = drive .txall rest t ∧
      StripSent u t ds.length d ∧ StripsSent s t (ds ++ [d]) := by
  have ho : d.channelOrder.isSome = true := (wf_strip hwf (d := d) (by simp [hstrips])).2.1
  obtain ⟨t, hrun, hd⟩ := strip_run (k := ds.length) (d := d) rest h.calm (h.keeps.fault.trans hf)
    (h.keeps.cfg ▸ hwf) (by simp [h.keeps.cfg, hstrips])
  rw [stripProgram_congr h.keeps.cfg h.keeps.cbuf, h.keeps.cfg, start_length hstrips] at hrun
  exact ⟨t, hrun, hd, h.concat hstrips ho hd⟩

/-- The induction over the strips, from the first on. -/
theorem strips_run {s : State} (hc : s.Calm) (hf : s.fault = .noFault) (hwf : s.cfg.wf = true) {ds fs : List Strip}
    (hstrips : s.cfg.strips = ds ++ fs) (rest : List Micro) :
    ∃ t, drive .txall (txallProgram s 0 0 ds ++ rest) s = drive .txall rest t ∧ StripsSent s t ds := by
  induction ds using List.reverseRecOn generalizing fs rest with
  | nil => exact ⟨s, rfl, .nil hc⟩
  | append_singleton ds d ih =>
    have hsplit : s.cfg.strips = ds ++ d :: fs := by simpa using hstrips
    obtain ⟨u, hbefore, hu⟩ := ih hsplit (s.stripProgram ds.length (ledsOf ds) d ++ rest)
    obtain ⟨t, hstrip, -, ht⟩ := hu.serve_next hf hwf hsplit rest
    refine ⟨t, ?_, ht⟩
    rw [txallProgram_concat, Nat.zero_add, Nat.zero_add, List.append_assoc]
    exact hbefore.trans hstrip

/-! ## The command -/

/-- TXALL accepted, with OFF at the first strip: the state its first ENCODE finds. -/
def State.txallAccepted (s : State) : State :=
  { s with cmd := encode .txall, busy := true, upc := 0, off := 0#32 }

/-- TXALL under WF is the run of its expansion. -/
theorem exec_txall_eq {s : State} (hs : s.ready = true) (hwf : s.cfg.wf = true) :
    exec .txall s =
      .next (drive .txall (txallProgram s.txallAccepted 0 0 s.cfg.strips) s.txallAccepted) := by
  have hexec : exec .txall s = execTxall s := rfl
  rw [hexec, execTxall, issue_ready hs, whenEncodable_wf hwf]
  have hprogram := txallProgram_congr (t := { s with cmd := encode .txall, busy := true, upc := 0 })
    (s := s.txallAccepted) rfl rfl 0 0 s.cfg.strips
  exact congrArg (carryOut .txall · s.txallAccepted) hprogram

/-- A TXALL that nothing stops: all strips have been served, `d` as the last one, and the command completes. -/
theorem exec_txall_of_calm {s : State} (hs : s.ready = true) (hc : s.Calm) (hwf : s.cfg.wf = true) {ds : List Strip}
    {d : Strip} (hstrips : s.cfg.strips = ds ++ [d]) :
    ∃ u t, exec .txall s = .next (t.finish .txall) ∧ StripsSent s.txallAccepted t s.cfg.strips ∧
      TxallKeeps s.txallAccepted u ∧ StripSent u t ds.length d := by
  have hf : s.fault = .noFault := (ready_iff.1 hs).2
  obtain ⟨u, hbefore, hu⟩ := strips_run (s := s.txallAccepted) ⟨hc.live, hc.steady⟩ hf hwf hstrips
    (s.txallAccepted.stripProgram ds.length (ledsOf ds) d ++ [])
  obtain ⟨t, hlast, hd, ht⟩ := hu.serve_next hf hwf hstrips []
  refine ⟨u, t, ?_, hstrips ▸ ht, hu.keeps, hd⟩
  rw [exec_txall_eq hs hwf, hstrips, txallProgram_concat, Nat.zero_add, Nat.zero_add]
  rw [List.append_nil] at hbefore hlast
  exact congrArg Host.Outcome.next (hbefore.trans hlast)

/-- Settles O50: the buffers, lines and events are those of all strips in order, the registers and the timer those of
the last one. -/
theorem txallSendsEveryFrameInOrder : Obligations.TxallSendsEveryFrameInOrder := by
  intro s ds d hwf hs hlive hsteady hstrips
  have hf : s.fault = .noFault := (ready_iff.1 hs).2
  refine ⟨length_txallProgram (fun e he => (wf_strip hwf he).2.1) 0 0, ?_⟩
  obtain ⟨u, t, hexec, hall, hu, hlast⟩ := exec_txall_of_calm hs ⟨Option.isNone_iff_eq_none.1 hlive, hsteady⟩ hwf hstrips
  obtain ⟨hcfg, hcbuf, hcmd, hfault, hagenda, hdraws⟩ := hall.keeps
  have hwire : t.wire = s.wire ++ txallEvents s 0 s.cfg.strips :=
    hall.wire.trans (congrArg (s.wire ++ ·) (txallEvents_congr (s := s) (t := s.txallAccepted) rfl rfl 0 s.cfg.strips))
  have htimer : t.timer = ⟨true, true, s.cfg.tick, t.timer.cnt, false⟩ := hu.cfg ▸ hlast.timer
  have hoff : (t.finish .txall).off = BitVec.ofNat 32 s.cfg.totalLeds :=
    congrArg (fun c : Cfg => BitVec.ofNat 32 c.totalLeds) hcfg
  exact ⟨t.finish .txall, hexec, hcfg, hcbuf, rfl, rfl, hfault.trans hf, hcmd, hwire, hall.written, hall.unwritten,
    hall.low, hall.otherLines, congrArg Timer.en htimer, congrArg Timer.mie htimer, congrArg Timer.period htimer,
    congrArg Timer.matched htimer, hlast.k, hlast.n, hlast.dir, hoff, hagenda, hdraws, hall.calm.live⟩

end Sys2Proof.Machine
end

section
/-!
The fatal state (60_exceptions.md R188 to R190): a halted engine accepts no word, so that the next move can only be of the
timer.
-/

namespace Sys2Proof.Machine

/-- A halted engine refuses every command (30_encoding.md R90). -/
theorem issue_of_halted {s : State} (hf : s.fault ≠ .noFault) (i : Instr)
    (body : State → Host.Outcome State Fault Refusal) : issue i s body = .refused .halted :=
  if_pos hf

theorem exec_of_halted {s : State} (hf : s.fault ≠ .noFault) (i : Instr) : exec i s = .refused .halted := by
  cases i <;> simp only [exec, execArm, execWait, execSetl, execSeth, execEnc, execTx, execSetc, execFill, execTxall,
    issue_of_halted hf]

/-- A halted engine refuses every word, also one that decodes to no operation. -/
theorem runWord_of_halted {s : State} (hf : s.fault ≠ .noFault) (w : CommandWord) :
    runWord w s = .refused .halted := by
  unfold runWord
  split
  · exact exec_of_halted hf _
  · exact if_neg hf

/-- With no reset due the running command goes on (10_state.md R40). -/
theorem step_of_busy {s : State} (hr : s.resetDue = false) (hb : s.busy = true) : step s = runWord s.cmd s := by
  simp [step, hr, hb]

theorem resetDue_of_reset {s : State} {ms : List Move} (ha : s.agenda = .reset :: ms) : s.resetDue = true := by
  simp [State.resetDue, ha]

theorem step_of_no_move {s : State} (hb : s.busy = false) (ha : s.agenda = []) : step s = .next s := by
  simp [step, State.resetDue, hb, ha]

theorem step_time {s : State} {n : Nat} {ms : List Move} (hb : s.busy = false) (ha : s.agenda = .time n :: ms) :
    step s = .next (s.dropMove.pass n) := by
  simp [step, State.resetDue, hb, ha]

/-- Settles O16: of all moves but reset only the other timer user's and the passing of time have a step. -/
theorem fatalStateIsFinal : Obligations.FatalStateIsFinal := by
  intro s t hf hr h
  rcases s.busy.eq_false_or_eq_true with hb | hb
  · rw [step_of_busy hr hb, runWord_of_halted hf] at h
    cases h
  · cases ha : s.agenda with
    | nil =>
      rw [step_of_no_move hb ha] at h
      cases h
      rfl
    | cons move ms =>
      cases move with
      | command w =>
        rw [step_command hb ha, runWord_of_halted (s := { s with agenda := ms }) hf] at h
        cases h
      | otherTimer timer =>
        rw [step_otherTimer hb ha] at h
        cases h
        rfl
      | time n =>
        rw [step_time hb ha] at h
        cases h
        rfl
      | reset =>
        rw [resetDue_of_reset ha] at hr
        cases hr

end Sys2Proof.Machine
end

section
/-!
The one word of an instruction (30_encoding.md R92, R96): the operands a word decodes to are its A and B fields.
-/

namespace Sys2Proof

theorem operandA_assemble {o : Opcode} {w : CommandWord} (h : reservedZero o.format w = true) :
    (assemble o w).operandA = aField w := by
  cases o <;> simp_all [assemble, Instr.operandA, Opcode.format, reservedZero]

theorem operandB_assemble {o : Opcode} {w : CommandWord} (h : reservedZero o.format w = true) :
    (assemble o w).operandB = bField w := by
  cases o <;> simp_all [assemble, Instr.operandB, Opcode.format, reservedZero, packDir_unpackDir]

/-- A word that decodes to an instruction is that instruction's word. -/
theorem encode_of_decode {w : CommandWord} {i : Instr} (h : decode w = .ok i) : encode i = w := by
  obtain ⟨o, ho, hr, rfl⟩ := decode_eq_ok.1 h
  rw [encode, assemble_opcode, byte_of_ofByte ho, operandA_assemble hr, operandB_assemble hr, packWord_fields]

end Sys2Proof
end

section
/-!
The closed form of the timer agent's steps (40_timer_pin_surface.md R120), and time that passes in two portions.
-/

namespace Sys2Proof.Machine

/-- From count `c` it takes `(p - 1 - c) + 1` steps to the period, and no fewer. -/
theorem cnt_add_one_eq_period_iff {p c : Word32} {n : Nat} (h : n < (p - 1#32 - c).toNat + 1) :
    c + BitVec.ofNat 32 n + 1#32 = p ↔ n + 1 = (p - 1#32 - c).toNat + 1 := by
  have hp := p.isLt
  have hc := c.isLt
  simp only [← BitVec.toNat_inj, BitVec.toNat_add, BitVec.toNat_sub, BitVec.toNat_ofNat] at h ⊢
  omega

/-- From a match it takes a whole cycle to the next. -/
theorem ofNat_add_one_eq_period_iff {t : Timer} {n : Nat} (h : n < t.cycle) :
    BitVec.ofNat 32 n + 1#32 = t.period ↔ n + 1 = t.cycle := by
  have hzero := cnt_add_one_eq_period_iff (p := t.period) (c := 0#32) (n := n)
  rw [BitVec.sub_zero, BitVec.zero_add] at hzero
  exact hzero h

theorem step_stopped {t : Timer} (h : t.en = false) : t.step = t := by
  simp [Timer.step, h]

theorem advance_of_lt {t : Timer} {n : Nat} (h : t.en = true) (hn : n < t.stepsToMatch) :
    t.advance n = { t with cnt := t.cnt + BitVec.ofNat 32 n } := by
  simp [Timer.advance, h, hn]

theorem advance_of_le {t : Timer} {n : Nat} (h : t.en = true) (hn : t.stepsToMatch ≤ n) :
    t.advance n = { t with cnt := BitVec.ofNat 32 ((n - t.stepsToMatch) % t.cycle), matched := true } := by
  simp [Timer.advance, h, Nat.not_lt.2 hn]

/-- One more step: on the way to the first match, at it, or counting round after it. -/
theorem advance_succ (t : Timer) (n : Nat) : t.advance (n + 1) = (t.advance n).step := by
  cases hen : t.en with
  | false => rw [advance_stopped hen, advance_stopped hen, step_stopped hen]
  | true =>
    rcases Nat.lt_or_ge n t.stepsToMatch with hlt | hge
    · have hlast := cnt_add_one_eq_period_iff hlt
      rw [advance_of_lt hen hlt]
      rcases Nat.lt_or_ge (n + 1) t.stepsToMatch with hlt' | hge'
      · have hne : t.cnt + BitVec.ofNat 32 n + 1#32 ≠ t.period := fun h => absurd (hlast.1 h) hlt'.ne
        rw [advance_of_lt hen hlt']
        simp [Timer.step, hen, hne, BitVec.ofNat_add, ← BitVec.add_assoc]
      · have heq : n + 1 = t.stepsToMatch := by omega
        rw [advance_of_le hen hge']
        simp [Timer.step, hen, hlast.2 heq, heq]
    · have hmod : (n - t.stepsToMatch) % t.cycle < t.cycle := Nat.mod_lt _ (cycle_pos t)
      have hlast := ofNat_add_one_eq_period_iff hmod
      rw [advance_of_le hen hge, advance_of_le hen (by omega), Nat.sub_add_comm hge,
        add_one_mod_eq_ite (cycle_pos t)]
      split_ifs with hround
      · simp [Timer.step, hen, hlast.2 hround]
      · have hne : BitVec.ofNat 32 ((n - t.stepsToMatch) % t.cycle) + 1#32 ≠ t.period := hround ∘ hlast.1
        simp [Timer.step, hen, hne, BitVec.ofNat_add]

theorem advance_eq_iterate (t : Timer) (n : Nat) : t.advance n = Timer.step^[n] t := by
  induction n with
  | zero => exact advance_zero t
  | succ n ih => rw [advance_succ, ih, Function.iterate_succ_apply']

theorem advance_add (t : Timer) (m n : Nat) : t.advance (m + n) = (t.advance m).advance n := by
  simp only [advance_eq_iterate, ← Function.iterate_add_apply, Nat.add_comm]

/-- Steps short of the match bring it that much nearer. -/
theorem stepsToMatch_advance {t : Timer} {n : Nat} (h : t.en = true) (hn : n < t.stepsToMatch) :
    (t.advance n).stepsToMatch = t.stepsToMatch - n := by
  have hp := t.period.isLt
  have hc := t.cnt.isLt
  rw [advance_of_lt h hn]
  simp only [Timer.stepsToMatch, BitVec.toNat_add, BitVec.toNat_sub, BitVec.toNat_ofNat] at hn ⊢
  omega

/-- Time that passes in two portions passes as one. -/
theorem pass_pass (s : State) (m n : Nat) : (s.pass m).pass n = s.pass (m + n) := by
  cases hu : s.unitsLeft with
  | none => simp [State.pass, hu, advance_add]
  | some b =>
    have hsum : min (m + n) b = min m b + min n (b - min m b) := by omega
    simp [State.pass, hu, grantedUnits, hsum, advance_add, Nat.sub_sub]

end Sys2Proof.Machine
end

section
/-!
A WAIT whose match never comes (60_exceptions.md R185), alone and inside a transmit.
-/

namespace Sys2Proof.Machine

/-! ## No match can come -/

/-- T_MATCH is 0, and the timer is stopped or its agent short of the units to the next match. -/
structure State.Stalled (s : State) : Prop where
  unmatched : s.timer.matched = false
  short : s.timer.en = false ∨ ∃ b, s.unitsLeft = some b ∧ b < s.timer.stepsToMatch

/-- Where no match can come, a WAIT never gets one. -/
theorem State.Stalled.waitUnits {s : State} (h : s.Stalled) : s.waitUnits = none := by
  rcases h.short with hen | ⟨b, hb, hlt⟩
  · simp [State.waitUnits, h.unmatched, hen]
  · simp [State.waitUnits, h.unmatched, hb, Nat.not_le.2 hlt]

/-- No match can come after any time either. -/
theorem State.Stalled.pass {s : State} (h : s.Stalled) (n : Nat) : (s.pass n).Stalled := by
  cases hen : s.timer.en with
  | false =>
    have htimer : (s.pass n).timer = s.timer := advance_stopped hen _
    exact ⟨htimer ▸ h.unmatched, .inl (htimer ▸ hen)⟩
  | true =>
    obtain ⟨b, hb, hlt⟩ := h.short.resolve_left (by simp [hen])
    have hn : min n b < s.timer.stepsToMatch := (Nat.min_le_right n b).trans_lt hlt
    have htimer : (s.pass n).timer = s.timer.advance (min n b) := by simp [hb, grantedUnits]
    refine ⟨?_, .inr ⟨b - min n b, by simp [hb, grantedUnits], ?_⟩⟩
    · rw [htimer, advance_unmatched hn, h.unmatched]
    · rw [htimer, stepsToMatch_advance hen hn]
      omega

theorem State.Stalled.takeSlot {s : State} (h : s.Stalled) : s.takeSlot.Stalled :=
  State.Stalled.pass (s := { s with pace := s.pace.tail }) ⟨h.unmatched, h.short⟩ _

/-! ## The WAIT holds -/

/-- A pausing slot or none, the WAIT holds: a slot is taken and time passes. -/
theorem drive_wait_of_stalled {s : State} (h : s.Stalled) (i : Instr) (rest : List Micro) :
    ∃ n, drive i (.wait :: rest) s = State.pass n { s with pace := s.pace.tail } := by
  have hnone : Micro.wait.enabledState s.takeSlot = none := by
    simp [Micro.enabledState, h.takeSlot.waitUnits]
  rcases drive_cases i .wait rest s with ⟨-, hd⟩ | ⟨-, -, hd⟩ | ⟨t, -, ht, -⟩ | ⟨t, -, ht, -⟩
  · exact ⟨_, hd⟩
  · obtain ⟨u, hu⟩ := hang_eq s.takeSlot
    exact ⟨_, hd.trans (hu.trans (pass_pass _ _ _))⟩
  · rw [hnone] at ht
    cases ht
  · rw [hnone] at ht
    cases ht

/-- No transmit begins with a WAIT, so that one that stands at a WAIT is past its issue. -/
theorem upc_ne_zero_of_wait_txExpand {c : Cfg} {ln upc : Nat} {bs : List Bool}
    (h : (txExpand c ln bs)[upc]? = some .wait) : upc ≠ 0 := by
  rintro rfl
  simp [txExpand] at h

theorem upc_ne_zero_of_wait_txallProgram {s : State} {k off upc : Nat} {ds : List Strip}
    (h : (txallProgram s k off ds)[upc]? = some .wait) : upc ≠ 0 := by
  rintro rfl
  cases ds <;> simp [txallProgram] at h

/-- A command in flight that stands at a WAIT goes on with its expansion from there. -/
theorem exec_of_running {s : State} {i : Instr} (hwf : s.cfg.wf = true) (hb : s.busy = true) (hf : s.fault = .noFault)
    (hc : s.cmd = encode i) (hwait : (expand i s)[s.upc]? = some .wait) :
    exec i s = carryOut i (expand i s) s := by
  cases i with
  | arm | wait | setl | seth | fill => exact issue_busy hb hf hc _
  | enc strip dir =>
    rw [exec, execEnc, issue_busy hb hf hc, whenEncodable_wf hwf, expand]
  | setc idx color =>
    have hlen := wf_cbufLen hwf
    have hinside : ¬ (idx.toNat < s.cfg.totalLeds ∧ s.cfg.cbufLen ≤ idx.toNat) := by omega
    rw [exec, execSetc, issue_busy hb hf hc, if_neg hinside, expand]
  | tx strip =>
    rw [exec, execTx, issue_busy hb hf hc]
    cases hd : s.cfg.strips[strip.toNat]? with
    | none => simp [expand, hd] at hwait
    | some d =>
      have hfits := (wf_strip hwf (List.mem_of_getElem? hd)).1
      simp only [expand, hd] at hwait ⊢
      rw [if_neg (Nat.not_lt.2 hfits), if_neg (upc_ne_zero_of_wait_txExpand hwait)]
  | txall =>
    rw [exec, execTxall, issue_busy hb hf hc, whenEncodable_wf hwf,
      if_neg (upc_ne_zero_of_wait_txallProgram hwait), expand]

theorem carryOut_of_getElem? {ops : List Micro} {m : Micro} {s : State} (h : ops[s.upc]? = some m) (i : Instr) :
    carryOut i ops s = .next (drive i (m :: ops.drop (s.upc + 1)) s) := by
  obtain ⟨hlt, rfl⟩ := List.getElem?_eq_some_iff.1 h
  rw [carryOut, List.drop_eq_getElem_cons hlt]

/-- A step at a WAIT that gets no match: a slot is taken and time passes. -/
theorem step_of_stalled {s : State} {i : Instr} (hwf : s.cfg.wf = true) (hb : s.busy = true) (hf : s.fault = .noFault)
    (hr : s.resetDue = false) (hdec : decode s.cmd = .ok i) (hwait : (expand i s)[s.upc]? = some .wait)
    (hs : s.Stalled) : ∃ n, step s = .next (State.pass n { s with pace := s.pace.tail }) := by
  have hrun : runWord s.cmd s = exec i s := by simp [runWord, hdec]
  obtain ⟨n, hn⟩ := drive_wait_of_stalled hs i ((expand i s).drop (s.upc + 1))
  refine ⟨n, ?_⟩
  rw [step_of_busy hr hb, hrun, exec_of_running hwf hb hf (encode_of_decode hdec).symm hwait,
    carryOut_of_getElem? hwait, hn]

/-- Settles O33: the step is the passing of time, after which still no match can come. -/
theorem stalledWaitHoldsForever : Obligations.StalledWaitHoldsForever := by
  intro s i hwf hb hf hr hdec hwait hmatched hshort
  have hs : s.Stalled := ⟨hmatched, hshort⟩
  obtain ⟨n, hstep⟩ := step_of_stalled hwf hb hf hr hdec hwait hs
  obtain ⟨hmatched', hshort'⟩ := State.Stalled.pass (s := { s with pace := s.pace.tail }) ⟨hmatched, hshort⟩ n
  refine ⟨_, hstep, rfl, fun hen => advance_stopped hen _, fun b hunits => ?_, hmatched', hshort'⟩
  refine ⟨min n b, Nat.min_le_right n b, ?_, ?_⟩
  · simp [hunits, grantedUnits]
  · simp [hunits, grantedUnits, advance_eq_iterate]

end Sys2Proof.Machine
end

section
/-!
What reset leaves (70_reset_and_hazards.md R210 to R215): a colour buffer that lists nothing reads as black everywhere,
and the latches are listed under exactly the ids of the driven lines.
-/

namespace Sys2Proof

theorem mem_drivenIds {c : Cfg} {id : Nat} : id ∈ c.drivenIds ↔ c.driven id = true := by
  have hline (h : c.driven id = true) : id < c.nLines :=
    (List.getElem?_eq_some_iff.1 (beq_iff_eq.1 h)).1
  simpa [Cfg.drivenIds] using hline

end Sys2Proof

namespace Sys2Proof.Machine

/-- Where the latches listed are those of the driven lines, a line has a latch if and only if it is driven. -/
theorem level_isSome_eq_driven {s : State} (h : s.lvl.map Prod.fst = s.cfg.drivenIds) (id : Nat) :
    (s.level id).isSome = s.cfg.driven id := by
  rw [State.level]
  cases hd : s.cfg.driven id with
  | true => exact find_isSome (h ▸ mem_drivenIds.2 hd)
  | false =>
    have hkey : id ∉ s.lvl.map Prod.fst := by simp [h, mem_drivenIds, hd]
    rw [find_eq_none hkey, Option.isSome_none]

theorem resetNow_lvl_keys (s : State) : s.resetNow.lvl.map Prod.fst = s.resetNow.cfg.drivenIds := by
  simp [Function.comp_def]

theorem readColor_resetNow (s : State) (a : Nat) : s.resetNow.readColor a = .black := by
  simp [State.readColor]

/-- A reset that is due comes first, whatever BUSY and FAULT are (70_reset_and_hazards.md R210). -/
theorem step_of_resetDue {s : State} (h : s.resetDue = true) : step s = .next s.dropMove.resetNow :=
  if_pos h

/-- Settles O13: the step is the reset, whose fields are those of the state when reset is released. -/
theorem resetLeavesTheStatedValues : Obligations.ResetLeavesTheStatedValues := by
  intro s ms ha
  refine ⟨s.dropMove.resetNow, step_of_resetDue (resetDue_of_reset ha), rfl, readColor_resetNow _, rfl, rfl, ?_, ?_,
    level_isSome_eq_driven (resetNow_lvl_keys _)⟩
  · intro hwf
    simp [hwf]
  · intro hwf
    simp [hwf]

end Sys2Proof.Machine
end

section
/-!
The two directions of the round trip of instructions and words, and the rows of the opcode table (30_encoding.md R92, R93,
R96, R108).
-/

namespace Sys2Proof

/-! ## The round trip -/

/-- The fields of an instruction's word, constructor by constructor. -/
theorem encodedFields (i : Instr) : Laws.EncodedFields.Statement i := by
  cases i with
  | arm period => exact Laws.EncodedFields.arm period
  | wait => exact Laws.EncodedFields.wait
  | setl id => exact Laws.EncodedFields.setl id
  | seth id => exact Laws.EncodedFields.seth id
  | enc strip dir => exact Laws.EncodedFields.enc strip dir
  | tx strip => exact Laws.EncodedFields.tx strip
  | setc idx color => exact Laws.EncodedFields.setc idx color
  | fill color => exact Laws.EncodedFields.fill color
  | txall => exact Laws.EncodedFields.txall

/-- A word with an instruction's operands in A and B is put together to that instruction. -/
theorem assemble_of_operands {i : Instr} {w : CommandWord} (ha : aField w = i.operandA) (hb : bField w = i.operandB) :
    assemble i.opcode w = i := by
  cases i <;> simp [assemble, Instr.opcode, ha, hb, Instr.operandA, Instr.operandB]

theorem decode_encode (i : Instr) : decode (encode i) = .ok i := by
  obtain ⟨hopc, ha, hb, hreserved⟩ := encodedFields i
  exact decode_eq_ok.2 ⟨i.opcode, hopc ▸ ofByte_byte i.opcode, hreserved, assemble_of_operands ha hb⟩

/-- Settles O1: the word's fields are the instruction's operation code and operands, and nothing is lost in them. -/
theorem decodeOfEncodeIsTheInstruction : Obligations.DecodeOfEncodeIsTheInstruction :=
  decode_encode

/-- Settles O2: the fields of a word that decodes are those of its instruction's word. -/
theorem everyLegalWordIsItsEncoding : Obligations.EveryLegalWordIsItsEncoding :=
  fun _ _ => encode_of_decode

/-- Settles O4: the two errors of the decoder, each by the fields that give it. -/
theorem decodingRejectsByName : Obligations.DecodingRejectsByName :=
  fun w => ⟨decode_unknownOpcode_iff w, decode_reservedField_iff w⟩

/-- Settles O5: four closed words, decoded. -/
theorem writtenOutWordsDecode : Obligations.WrittenOutWordsDecode :=
  ⟨by decide, by decide, by decide, by decide⟩

/-! ## The rows of the opcode table -/

/-- The bits of A that a format does not use. -/
def Format.reservedA : Format → Word32
  | .z | .c => .allOnes 32
  | .a | .ad | .ac => 0#32

/-- The bits of B that a format does not use. -/
def Format.reservedB : Format → BitVec 24
  | .z | .a => .allOnes 24
  | .ad => 0xFFFFFE#24
  | .ac | .c => 0#24

theorem opcField_and (v w : CommandWord) : opcField (v &&& w) = opcField v &&& opcField w :=
  BitVec.extractLsb'_and

theorem aField_and (v w : CommandWord) : aField (v &&& w) = aField v &&& aField w :=
  BitVec.extractLsb'_and

theorem bField_and (v w : CommandWord) : bField (v &&& w) = bField v &&& bField w :=
  BitVec.extractLsb'_and

/-- Two words are equal when their three fields are. -/
theorem word_eq_iff {v w : CommandWord} :
    v = w ↔ opcField v = opcField w ∧ aField v = aField w ∧ bField v = bField w := by
  refine ⟨fun h => h ▸ ⟨rfl, rfl, rfl⟩, fun ⟨hopc, ha, hb⟩ => ?_⟩
  rw [← packWord_fields v, ← packWord_fields w, hopc, ha, hb]

/-- The table's `match` and `mask` are those of the row's operation: the OPC in full, and the bits its format does not use. -/
theorem row_fields {r : Row} (h : r ∈ opcodeTable) :
    r.bits = packWord r.opcode.byte 0#32 0#24 ∧
      r.mask = packWord 0xFF#8 r.opcode.format.reservedA r.opcode.format.reservedB := by
  revert r
  decide

theorem row_eq_of_opcode_eq {r q : Row} (hr : r ∈ opcodeTable) (hq : q ∈ opcodeTable) (h : r.opcode = q.opcode) :
    r = q :=
  (by decide : ∀ r ∈ opcodeTable, ∀ q ∈ opcodeTable, r.opcode = q.opcode → r = q) r hr q hq h

/-- The bits of the direction's mask. -/
theorem getLsbD_reservedB_ad {i : Nat} (h : i < 24) : (Format.reservedB .ad).getLsbD i = decide (1 ≤ i) := by
  revert i
  decide

/-- No bit above bit 0 is set, seen through the mask and through the shift. -/
theorem and_reservedB_ad_eq_zero_iff (b : BitVec 24) : b &&& Format.reservedB .ad = 0#24 ↔ b >>> 1 = 0#24 := by
  constructor <;> intro h <;> apply BitVec.eq_of_getLsbD_eq <;> intro i hi
  · have hbit := congrArg (fun v => v.getLsbD (1 + i)) h
    by_cases hlast : 1 + i < 24
    · simpa [getLsbD_reservedB_ad hlast] using hbit
    · simp [BitVec.getLsbD_of_ge b (1 + i) (by omega)]
  · have hbit := congrArg (fun v => v.getLsbD (i - 1)) h
    rw [BitVec.getLsbD_and, getLsbD_reservedB_ad hi]
    cases i with
    | zero => simp
    | succ i => simpa [Nat.add_comm 1 i] using hbit

theorem reservedZero_iff (f : Format) (w : CommandWord) :
    reservedZero f w = true ↔ aField w &&& f.reservedA = 0#32 ∧ bField w &&& f.reservedB = 0#24 := by
  cases f with
  | ad => simp [reservedZero, Format.reservedA, and_reservedB_ad_eq_zero_iff]
  | z | a | ac | c =>
    simp only [reservedZero, Format.reservedA, Format.reservedB, BitVec.and_allOnes, BitVec.and_zero, Bool.and_eq_true,
      beq_iff_eq, and_true, true_and]

/-- A row selects the words with its OPC and zero in every bit that its format does not use. -/
theorem selects_iff {r : Row} (h : r ∈ opcodeTable) (w : CommandWord) :
    r.selects w = true ↔ opcField w = r.opcode.byte ∧ reservedZero r.opcode.format w = true := by
  obtain ⟨hbits, hmask⟩ := row_fields h
  have hopc : opcField w &&& 0xFF#8 = opcField w := BitVec.and_allOnes
  rw [Row.selects, beq_iff_eq, word_eq_iff, opcField_and, aField_and, bField_and, hbits, hmask, reservedZero_iff]
  simp only [opcField_packWord, aField_packWord, bField_packWord, hopc]

theorem ofByte_eq_some_iff {v : BitVec 8} {o : Opcode} : Opcode.ofByte v = some o ↔ v = o.byte :=
  ⟨fun h => (byte_of_ofByte h).symm, fun h => h ▸ ofByte_byte o⟩

/-- The decoder's answer by operation (30_encoding.md R93, R108). -/
theorem decode_opcode_iff {w : CommandWord} {o : Opcode} :
    (∃ i, decode w = .ok i ∧ i.opcode = o) ↔ opcField w = o.byte ∧ reservedZero o.format w = true := by
  constructor
  · rintro ⟨i, hdec, rfl⟩
    obtain ⟨o, ho, hreserved, rfl⟩ := decode_eq_ok.1 hdec
    rw [assemble_opcode]
    exact ⟨ofByte_eq_some_iff.1 ho, hreserved⟩
  · rintro ⟨hopc, hreserved⟩
    exact ⟨assemble o w, decode_eq_ok.2 ⟨o, ofByte_eq_some_iff.2 hopc, hreserved, rfl⟩, assemble_opcode o w⟩

/-- Settles O3: a row and the decoder look at the same bits, and rows with one operation are one row. -/
theorem decoderFollowsTheOpcodeTable : Obligations.DecoderFollowsTheOpcodeTable := by
  have hrow (w : CommandWord) (r : Row) (h : r ∈ opcodeTable) :
      r.selects w = true ↔ ∃ i, decode w = .ok i ∧ i.opcode = r.opcode :=
    (selects_iff h w).trans decode_opcode_iff.symm
  refine ⟨hrow, fun w r q hr hq hrw hqw => row_eq_of_opcode_eq hr hq ?_⟩
  obtain ⟨i, hi, hir⟩ := (hrow w r hr).1 hrw
  obtain ⟨j, hj, hjq⟩ := (hrow w q hq).1 hqw
  obtain rfl : i = j := Except.ok.inj (hi.symm.trans hj)
  exact hir.symm.trans hjq

end Sys2Proof
end

section
/-!
A command from its issue to its end, said once for all nine operations: `exec` is the loop over the rest of the expansion, or a
TX that ends fatally before its ARM (30_encoding.md R90, 10_state.md R32, 41_physical_strip.md R148). What a micro-operation can
do and which micro-operations an expansion holds follow, and with them what no command changes.
-/

namespace Sys2Proof.Machine

/-! ## Issue -/

/-- The engine accepts command `i`, or has it in flight (30_encoding.md R90). -/
structure State.Accepts (i : Instr) (s : State) : Prop where
  noFault : s.fault = .noFault
  inFlight : s.busy = true → s.cmd = encode i

theorem issue_of_accepts {i : Instr} {s : State} (h : s.Accepts i) (body : State → Host.Outcome State Fault Refusal) :
    issue i s body = body (s.accept (encode i)) := by
  have hother : ¬ (s.busy = true ∧ s.cmd ≠ encode i) := fun ⟨hb, hc⟩ => hc (h.inFlight hb)
  rw [issue, if_neg (not_not.2 h.noFault), if_neg hother]

/-- A command that has a next state is the one accepted or in flight. -/
theorem accepts_of_issue {i : Instr} {s t : State} {body : State → Host.Outcome State Fault Refusal}
    (h : issue i s body = .next t) : s.Accepts i := by
  unfold issue at h
  split_ifs at h with hf hother
  exact ⟨not_not.1 hf, fun hb => not_not.1 fun hc => hother ⟨hb, hc⟩⟩

theorem accepts_of_ready {s : State} (h : s.ready = true) (i : Instr) : s.Accepts i := by
  obtain ⟨hb, hf⟩ := ready_iff.1 h
  exact ⟨hf, fun hb' => by simp [hb] at hb'⟩

theorem State.Accepts.accept_cmd {i : Instr} {s : State} (h : s.Accepts i) : (s.accept (encode i)).cmd = encode i := by
  cases hb : s.busy with
  | true => rw [accept_of_busy hb, h.inFlight hb]
  | false => rw [accept_of_idle hb]

/-! ## The state in which the loop begins -/

/-- What an accepted command writes before its first micro-operation: K and N of TX, OFF of TXALL (41_physical_strip.md R148,
42_logical_strip.md R165). -/
def State.prepare (i : Instr) (a : State) : State :=
  match i with
  | .tx strip => match a.cfg.strips[strip.toNat]? with
    | none => a
    | some d => if a.upc = 0 then a.selectStrip strip.toNat d else a
  | .txall => if a.upc = 0 then { a with off := 0#32 } else a
  | .arm _ | .wait | .setl _ | .seth _ | .enc _ _ | .setc _ _ | .fill _ => a

theorem prepare_eq (i : Instr) (a : State) :
    a.prepare i = { a with k := (a.prepare i).k, n := (a.prepare i).n, off := (a.prepare i).off } := by
  unfold State.prepare
  split
  case h_1 =>
    split
    · rfl
    · split <;> rfl
  case h_2 => split <;> rfl
  all_goals rfl

@[simp] theorem prepare_cfg (i : Instr) (a : State) : (a.prepare i).cfg = a.cfg := by rw [prepare_eq]
@[simp] theorem prepare_cbuf (i : Instr) (a : State) : (a.prepare i).cbuf = a.cbuf := by rw [prepare_eq]
@[simp] theorem prepare_scr (i : Instr) (a : State) : (a.prepare i).scr = a.scr := by rw [prepare_eq]
@[simp] theorem prepare_timer (i : Instr) (a : State) : (a.prepare i).timer = a.timer := by rw [prepare_eq]
@[simp] theorem prepare_lvl (i : Instr) (a : State) : (a.prepare i).lvl = a.lvl := by rw [prepare_eq]
@[simp] theorem prepare_cmd (i : Instr) (a : State) : (a.prepare i).cmd = a.cmd := by rw [prepare_eq]
@[simp] theorem prepare_upc (i : Instr) (a : State) : (a.prepare i).upc = a.upc := by rw [prepare_eq]
@[simp] theorem prepare_busy (i : Instr) (a : State) : (a.prepare i).busy = a.busy := by rw [prepare_eq]
@[simp] theorem prepare_fault (i : Instr) (a : State) : (a.prepare i).fault = a.fault := by rw [prepare_eq]
@[simp] theorem prepare_wire (i : Instr) (a : State) : (a.prepare i).wire = a.wire := by rw [prepare_eq]
@[simp] theorem prepare_pace (i : Instr) (a : State) : (a.prepare i).pace = a.pace := by rw [prepare_eq]
@[simp] theorem prepare_draws (i : Instr) (a : State) : (a.prepare i).draws = a.draws := by rw [prepare_eq]

/-- Command `i` accepted or in flight, at the point where the loop goes on. -/
def State.begun (i : Instr) (s : State) : State := (s.accept (encode i)).prepare i

@[simp] theorem begun_cfg (i : Instr) (s : State) : (s.begun i).cfg = s.cfg := by simp [State.begun]
@[simp] theorem begun_cbuf (i : Instr) (s : State) : (s.begun i).cbuf = s.cbuf := by simp [State.begun]
@[simp] theorem begun_scr (i : Instr) (s : State) : (s.begun i).scr = s.scr := by simp [State.begun]
@[simp] theorem begun_timer (i : Instr) (s : State) : (s.begun i).timer = s.timer := by simp [State.begun]
@[simp] theorem begun_lvl (i : Instr) (s : State) : (s.begun i).lvl = s.lvl := by simp [State.begun]
@[simp] theorem begun_busy (i : Instr) (s : State) : (s.begun i).busy = true := by simp [State.begun]
@[simp] theorem begun_fault (i : Instr) (s : State) : (s.begun i).fault = s.fault := by simp [State.begun]
@[simp] theorem begun_wire (i : Instr) (s : State) : (s.begun i).wire = s.wire := by simp [State.begun]
@[simp] theorem begun_pace (i : Instr) (s : State) : (s.begun i).pace = s.pace := by simp [State.begun]
@[simp] theorem begun_draws (i : Instr) (s : State) : (s.begun i).draws = s.draws := by simp [State.begun]

theorem State.Accepts.begun_cmd {i : Instr} {s : State} (h : s.Accepts i) : (s.begun i).cmd = encode i := by
  rw [State.begun, prepare_cmd, h.accept_cmd]

theorem begun_upc_of_idle {i : Instr} {s : State} (h : s.busy = false) : (s.begun i).upc = 0 := by
  rw [State.begun, prepare_upc, accept_of_idle h]

theorem begun_upc_of_busy {i : Instr} {s : State} (h : s.busy = true) : (s.begun i).upc = s.upc := by
  rw [State.begun, prepare_upc, accept_of_busy h]

/-- The expansion is made of the configuration and the two memories alone (log entry 16). -/
theorem expand_congr {s t : State} (hcfg : t.cfg = s.cfg) (hcbuf : t.cbuf = s.cbuf) (hscr : t.scr = s.scr)
    (hdraws : t.draws = s.draws) (i : Instr) : expand i t = expand i s := by
  cases i with
  | tx strip =>
    have hbytes (n : Nat) : t.readBytes n = s.readBytes n := by
      simp only [State.readBytes, readByte_congr hscr hdraws]
    simp only [expand, txProgram, hcfg, hbytes]
  | txall => rw [expand, expand, hcfg, txallProgram_congr hcfg hcbuf]
  | arm | wait | setl | seth | enc | setc | fill => rfl

@[simp] theorem expand_accept (i : Instr) (w : CommandWord) (s : State) : expand i (s.accept w) = expand i s :=
  expand_congr (accept_cfg s w) (accept_cbuf s w) (accept_scr s w) (accept_draws s w) i

/-! ## `exec` as the loop -/

/-- Every meaning is one issue (30_encoding.md R90). -/
theorem exec_eq_issue (i : Instr) (s : State) : ∃ body, exec i s = issue i s body := by
  cases i <;> simp only [exec, execArm, execWait, execSetl, execSeth, execEnc, execTx, execSetc, execFill, execTxall] <;>
    exact ⟨_, rfl⟩

theorem accepts_of_exec {i : Instr} {s t : State} (h : exec i s = .next t) : s.Accepts i := by
  obtain ⟨body, hissue⟩ := exec_eq_issue i s
  exact accepts_of_issue (hissue.symm.trans h)

/-- The loop goes on over the rest of the expansion. -/
def State.goesOn (i : Instr) (s : State) : Host.Outcome State Fault Refusal := carryOut i (expand i s) (s.begun i)

theorem exec_enc_of_accepts {strip : Word32} {dir : Direction} {s : State} (h : s.Accepts (.enc strip dir)) :
    exec (.enc strip dir) s = whenEncodable [strip.toNat] s.cfg (s.goesOn (.enc strip dir)) := by
  rw [exec, execEnc, issue_of_accepts h, accept_cfg]
  rfl

theorem exec_setc_of_accepts {idx : Word32} {color : Color} {s : State} (h : s.Accepts (.setc idx color)) :
    exec (.setc idx color) s =
      if idx.toNat < s.cfg.totalLeds ∧ s.cfg.cbufLen ≤ idx.toNat then .fault .outsideColourBuffer
      else s.goesOn (.setc idx color) := by
  rw [exec, execSetc, issue_of_accepts h, accept_cfg]
  rfl

theorem exec_tx_of_accepts_missing {strip : Word32} {s : State} (h : s.Accepts (.tx strip))
    (hd : s.cfg.strips[strip.toNat]? = none) :
    exec (.tx strip) s = .next ((s.accept (encode (.tx strip))).fatal .illegal) := by
  rw [exec, execTx, issue_of_accepts h, accept_cfg]
  simp only [hd]

theorem exec_tx_of_accepts {strip : Word32} {s : State} {d : Strip} (h : s.Accepts (.tx strip))
    (hd : s.cfg.strips[strip.toNat]? = some d) :
    exec (.tx strip) s =
      if s.cfg.scratchBytes < 3 * d.leds then
        .next (((s.accept (encode (.tx strip))).selectStrip strip.toNat d).fatal .config)
      else s.goesOn (.tx strip) := by
  have hbegun : s.begun (.tx strip) = if (s.accept (encode (.tx strip))).upc = 0 then
      (s.accept (encode (.tx strip))).selectStrip strip.toNat d else s.accept (encode (.tx strip)) := by
    simp only [State.begun, State.prepare, accept_cfg, hd]
  have hexpand : expand (.tx strip) s = txProgram d (s.accept (encode (.tx strip))) := by
    rw [← expand_accept (.tx strip) (encode (.tx strip)) s]
    simp only [expand, accept_cfg, hd]
  rw [exec, execTx, issue_of_accepts h, accept_cfg]
  simp only [hd, State.goesOn, hbegun, hexpand]

theorem exec_txall_of_accepts {s : State} (h : s.Accepts .txall) :
    exec .txall s = whenEncodable (List.range s.cfg.nStrips) s.cfg (s.goesOn .txall) := by
  rw [exec, execTxall, issue_of_accepts h, State.goesOn, ← expand_accept .txall (encode .txall) s,
    ← accept_cfg s (encode .txall)]
  rfl

/-- The five commands that nothing but their own micro-operation can stop. -/
theorem exec_of_accepts {i : Instr} {s : State} (h : s.Accepts i)
    (hi : i.opcode ∈ [.arm, .wait, .setl, .seth, .fill]) : exec i s = s.goesOn i := by
  cases i with
  | arm | wait | setl | seth | fill => exact issue_of_accepts h _
  | enc | setc | tx | txall => simp [Instr.opcode] at hi

theorem whenEncodable_next {ks : List Nat} {c : Cfg} {body : Host.Outcome State Fault Refusal} {t : State}
    (h : whenEncodable ks c body = .next t) : body = .next t := by
  unfold whenEncodable at h
  split_ifs at h
  exact h

/-- A TX that ends fatally before its ARM (41_physical_strip.md R148). -/
inductive TxRejected : Instr → State → State → Prop where
  | missing {strip : Word32} {s : State} (h : s.cfg.strips[strip.toNat]? = none) :
    TxRejected (.tx strip) s ((s.accept (encode (.tx strip))).fatal .illegal)
  | oversized {strip : Word32} {s : State} {d : Strip} (hd : s.cfg.strips[strip.toNat]? = some d)
    (h : s.cfg.scratchBytes < 3 * d.leds) :
    TxRejected (.tx strip) s (((s.accept (encode (.tx strip))).selectStrip strip.toNat d).fatal .config)

/-- A next state of an instruction is where its loop ends, unless it is that of a TX that ends before its ARM. -/
theorem goesOn_or_rejected {i : Instr} {s t : State} (h : exec i s = .next t) :
    s.goesOn i = .next t ∨ TxRejected i s t := by
  have ha := accepts_of_exec h
  cases i with
  | arm | wait | setl | seth | fill => exact .inl ((exec_of_accepts ha (by simp [Instr.opcode])).symm.trans h)
  | enc strip dir => exact .inl (whenEncodable_next ((exec_enc_of_accepts ha).symm.trans h))
  | setc idx color =>
    rw [exec_setc_of_accepts ha] at h
    split_ifs at h
    exact .inl h
  | txall => exact .inl (whenEncodable_next ((exec_txall_of_accepts ha).symm.trans h))
  | tx strip =>
    cases hd : s.cfg.strips[strip.toNat]? with
    | none =>
      rw [exec_tx_of_accepts_missing ha hd] at h
      cases h
      exact .inr (.missing hd)
    | some d =>
      rw [exec_tx_of_accepts ha hd] at h
      split_ifs at h with hbig
      · cases h
        exact .inr (.oversized hd hbig)
      · exact .inl h

theorem exec_cases {i : Instr} {s t : State} (h : exec i s = .next t) :
    t = drive i ((expand i s).drop (s.begun i).upc) (s.begun i) ∨ TxRejected i s t :=
  (goesOn_or_rejected h).imp_left fun hg => (Host.Outcome.next.inj hg).symm

/-- Under WF the loop goes on, but for a TX of a strip that does not exist. -/
theorem exec_of_wf {i : Instr} {s : State} (h : s.Accepts i) (hwf : s.cfg.wf = true)
    (hstrip : ∀ strip, i = .tx strip → (s.cfg.strips[strip.toNat]?).isSome = true) : exec i s = s.goesOn i := by
  cases i with
  | arm | wait | setl | seth | fill => exact exec_of_accepts h (by simp [Instr.opcode])
  | enc strip dir => rw [exec_enc_of_accepts h, whenEncodable_wf hwf]
  | setc idx color =>
    have hlen := wf_cbufLen hwf
    rw [exec_setc_of_accepts h, if_neg (by omega)]
  | txall => rw [exec_txall_of_accepts h, whenEncodable_wf hwf]
  | tx strip =>
    obtain ⟨d, hd⟩ := Option.isSome_iff_exists.1 (hstrip strip rfl)
    have hfits := (wf_strip hwf (List.mem_of_getElem? hd)).1
    rw [exec_tx_of_accepts h hd, if_neg (Nat.not_lt.2 hfits)]

end Sys2Proof.Machine
end

section
/-!
What a micro-operation can do and which micro-operations an expansion holds (41_physical_strip.md R147, 42_logical_strip.md
R165); with them what no command changes (10_state.md R21, R24, R25, R27), and when one ends fatally (60_exceptions.md R186, R187).
-/

namespace Sys2Proof.Machine

/-! ## A fatal end -/

/-- The engine has entered the fatal state with one event and nothing else but the working registers changed
(60_exceptions.md R187, R188). -/
structure EndedFatally (s t : State) : Prop where
  fault : t.fault ≠ .noFault
  busy : t.busy = false
  cfg : t.cfg = s.cfg
  cbuf : t.cbuf = s.cbuf
  scr : t.scr = s.scr
  lvl : t.lvl = s.lvl
  timer : t.timer = s.timer
  wire : t.wire = s.wire ++ [.fatal t.fault]

theorem endedFatally_fatal {code : FaultCode} (h : code ≠ .noFault) (s : State) : EndedFatally s (s.fatal code) :=
  ⟨h, rfl, rfl, rfl, rfl, rfl, rfl, rfl⟩

/-- The operands of a micro-operation are in range, so that it has no fatal end. -/
def Micro.Sound (c : Cfg) : Micro → Prop
  | .arm period => period ≠ 0#32
  | .setl id => id < c.nLines
  | .seth id => id < c.nLines
  | .encode strip _ => ∃ d, c.strips[strip]? = some d ∧ 3 * d.leds ≤ c.scratchBytes
  | .setColor idx _ => idx < c.totalLeds
  | .wait | .fillAll _ => True

theorem setLine_endedFatally {s : State} {id : Nat} (h : s.cfg.nLines ≤ id) (level : Bool) :
    EndedFatally s (s.setLine id level) := by
  rw [setLine_of_outside h]
  exact endedFatally_fatal (by decide) s

theorem setLine_fault {s : State} {id : Nat} (h : id < s.cfg.nLines) (level : Bool) :
    (s.setLine id level).fault = s.fault ∧ (s.setLine id level).busy = s.busy := by
  rw [setLine_ran h]
  exact ⟨rfl, rfl⟩

/-- A micro-operation in range leaves FAULT and BUSY; one that is not ends fatally. -/
theorem perform_cases (m : Micro) (s : State) :
    (m.Sound s.cfg ∧ (m.perform s).fault = s.fault ∧ (m.perform s).busy = s.busy) ∨
      (¬ m.Sound s.cfg ∧ EndedFatally s (m.perform s)) := by
  cases m with
  | arm period =>
    by_cases h : period = 0#32
    · subst h
      rw [Micro.perform, armTimer_zero]
      exact .inr ⟨fun hne => hne rfl, endedFatally_fatal (by decide) s⟩
    · rw [Micro.perform, armTimer_of_ne_zero h]
      exact .inl ⟨h, rfl, rfl⟩
  | wait => exact .inl ⟨trivial, rfl, rfl⟩
  | setl id =>
    exact (Nat.lt_or_ge id s.cfg.nLines).imp (fun h => ⟨h, setLine_fault h false⟩)
      fun h => ⟨Nat.not_lt.2 h, setLine_endedFatally h false⟩
  | seth id =>
    exact (Nat.lt_or_ge id s.cfg.nLines).imp (fun h => ⟨h, setLine_fault h true⟩)
      fun h => ⟨Nat.not_lt.2 h, setLine_endedFatally h true⟩
  | encode strip dir =>
    rw [Micro.perform]
    cases hd : s.cfg.strips[strip]? with
    | none =>
      rw [encodeStrip_of_missing hd]
      exact .inr ⟨by simp [Micro.Sound, hd], endedFatally_fatal (by decide) s⟩
    | some d =>
      rcases Nat.lt_or_ge s.cfg.scratchBytes (3 * d.leds) with hbig | hfits
      · rw [encodeStrip_of_oversized hd hbig]
        exact .inr ⟨by simp [Micro.Sound, hd, hbig], ⟨by simp, rfl, rfl, rfl, rfl, rfl, rfl, rfl⟩⟩
      · obtain ⟨i, hi⟩ := encodeStrip_of_fits hd hfits dir
        rw [hi]
        exact .inl ⟨⟨d, hd, hfits⟩, rfl, rfl⟩
  | setColor idx color =>
    rw [Micro.perform]
    rcases Nat.lt_or_ge idx s.cfg.totalLeds with h | h
    · rw [setColor_of_lt h]
      exact .inl ⟨h, rfl, rfl⟩
    · rw [setColor_of_le h]
      exact .inr ⟨Nat.not_lt.2 h, endedFatally_fatal (by decide) s⟩
  | fillAll color => exact .inl ⟨trivial, rfl, rfl⟩

theorem perform_fault_of_sound {m : Micro} {s : State} (h : m.Sound s.cfg) : (m.perform s).fault = s.fault :=
  (perform_cases m s).elim (fun ⟨_, hf, _⟩ => hf) fun ⟨hn, _⟩ => absurd h hn

theorem perform_endedFatally {m : Micro} {s : State} (hs : s.fault = .noFault) (h : (m.perform s).fault ≠ .noFault) :
    EndedFatally s (m.perform s) :=
  (perform_cases m s).elim (fun ⟨_, hf, _⟩ => absurd (hf.trans hs) h) And.right

theorem perform_busy {m : Micro} {s : State} (h : (m.perform s).fault = .noFault) : (m.perform s).busy = s.busy :=
  (perform_cases m s).elim (fun ⟨_, _, hb⟩ => hb) fun ⟨_, hend⟩ => absurd h hend.fault

theorem TxRejected.endedFatally {i : Instr} {s t : State} (h : TxRejected i s t) : EndedFatally s t := by
  cases h with
  | missing _ => constructor <;> simp
  | oversized _ _ => constructor <;> simp

/-! ## The micro-operations of an expansion -/

theorem mem_txExpand {c : Cfg} {ln : Nat} {bs : List Bool} {m : Micro} (h : m ∈ txExpand c ln bs) :
    m = .arm c.tick ∨ m = .wait ∨ m = .setl ln ∨ m = .seth ln := by
  rw [txExpand_eq] at h
  exact (List.mem_cons.1 h).imp_right mem_txTail

/-- A micro-operation of a TXALL is the ENCODE of a strip or of a strip's transmit. -/
theorem mem_txallProgram {s : State} {k off : Nat} {ds : List Strip} {m : Micro} (h : m ∈ txallProgram s k off ds) :
    ∃ j d, ds[j]? = some d ∧ (m = .encode (k + j) d.direction ∨ ∃ bs, m ∈ txExpand s.cfg d.lineId bs) := by
  induction ds generalizing k off with
  | nil => simp [txallProgram] at h
  | cons d ds ih =>
    rw [txallProgram_cons, List.mem_append] at h
    rcases h with h | h
    · exact ⟨0, d, rfl, (List.mem_cons.1 h).imp_right fun h => ⟨_, h⟩⟩
    · obtain ⟨j, e, he, hm⟩ := ih h
      exact ⟨j + 1, e, he, by rwa [Nat.add_comm j, ← Nat.add_assoc]⟩

theorem mem_expand_txall {s : State} {m : Micro} (h : m ∈ expand .txall s) :
    ∃ j d, s.cfg.strips[j]? = some d ∧ (m = .encode j d.direction ∨ ∃ bs, m ∈ txExpand s.cfg d.lineId bs) := by
  simpa using mem_txallProgram h

theorem mem_expand_tx {s : State} {strip : Word32} {m : Micro} (h : m ∈ expand (.tx strip) s) :
    ∃ d bs, s.cfg.strips[strip.toNat]? = some d ∧ m ∈ txExpand s.cfg d.lineId bs := by
  cases hd : s.cfg.strips[strip.toNat]? with
  | none => simp [expand, hd] at h
  | some d => exact ⟨d, _, rfl, by simpa only [expand, hd, txProgram] using h⟩

theorem writesColors_txExpand {c : Cfg} {ln : Nat} {bs : List Bool} {m : Micro} (h : m ∈ txExpand c ln bs) :
    m.writesColors = false := by
  rcases mem_txExpand h with rfl | rfl | rfl | rfl <;> rfl

theorem writesScratch_txExpand {c : Cfg} {ln : Nat} {bs : List Bool} {m : Micro} (h : m ∈ txExpand c ln bs) :
    m.writesScratch = false := by
  rcases mem_txExpand h with rfl | rfl | rfl | rfl <;> rfl

theorem lineWritten_txExpand {c : Cfg} {ln id : Nat} {bs : List Bool} {m : Micro} (h : m ∈ txExpand c ln bs)
    (hid : id ≠ ln) : m.lineWritten ≠ some id := by
  rcases mem_txExpand h with rfl | rfl | rfl | rfl <;> simp [Micro.lineWritten, hid.symm]

theorem sound_txExpand {c : Cfg} (hwf : c.wf = true) {d : Strip} (hd : d ∈ c.strips) {bs : List Bool} {m : Micro}
    (h : m ∈ txExpand c d.lineId bs) : m.Sound c := by
  have hline := (wf_strip hwf hd).2.2
  rcases mem_txExpand h with rfl | rfl | rfl | rfl
  · exact wf_tick hwf
  · exact trivial
  · exact hline
  · exact hline

/-- Only SETC and FILL hold a write of the colour buffer (10_state.md R24). -/
theorem writesColors_expand {i : Instr} (hsetc : i.opcode ≠ .setc) (hfill : i.opcode ≠ .fill) (s : State) :
    ∀ m ∈ expand i s, m.writesColors = false := by
  intro m hm
  cases i with
  | arm | wait | setl | seth | enc =>
    obtain rfl := List.mem_singleton.1 hm
    rfl
  | setc => exact absurd rfl hsetc
  | fill => exact absurd rfl hfill
  | tx =>
    obtain ⟨d, bs, -, hm⟩ := mem_expand_tx hm
    exact writesColors_txExpand hm
  | txall =>
    obtain ⟨j, d, -, rfl | ⟨bs, hm⟩⟩ := mem_expand_txall hm
    · rfl
    · exact writesColors_txExpand hm

/-- Only ENC and TXALL hold a write of the scratch buffer (10_state.md R25). -/
theorem writesScratch_expand {i : Instr} (henc : i.opcode ≠ .enc) (htxall : i.opcode ≠ .txall) (s : State) :
    ∀ m ∈ expand i s, m.writesScratch = false := by
  intro m hm
  cases i with
  | arm | wait | setl | seth | setc | fill =>
    obtain rfl := List.mem_singleton.1 hm
    rfl
  | enc => exact absurd rfl henc
  | txall => exact absurd rfl htxall
  | tx =>
    obtain ⟨d, bs, -, hm⟩ := mem_expand_tx hm
    exact writesScratch_txExpand hm

/-- An expansion writes the command's own lines (10_state.md R27). -/
theorem lineWritten_expand {i : Instr} {s : State} {id : Nat} (h : id ∉ linesWritten s.cfg i) :
    ∀ m ∈ expand i s, m.lineWritten ≠ some id := by
  intro m hm
  cases i with
  | arm | wait | enc | setc | fill =>
    obtain rfl := List.mem_singleton.1 hm
    simp [Micro.lineWritten]
  | setl | seth =>
    obtain rfl := List.mem_singleton.1 hm
    simpa [Micro.lineWritten, linesWritten, eq_comm] using h
  | tx =>
    obtain ⟨d, bs, hd, hm⟩ := mem_expand_tx hm
    exact lineWritten_txExpand hm (by simpa [linesWritten, hd] using h)
  | txall =>
    obtain ⟨j, d, hd, rfl | ⟨bs, hm⟩⟩ := mem_expand_txall hm
    · simp [Micro.lineWritten]
    · refine lineWritten_txExpand hm ?_
      rintro rfl
      exact h (List.mem_map_of_mem (List.mem_of_getElem? hd))

/-- Operands in range give micro-operations in range (60_exceptions.md R186). -/
theorem sound_expand {i : Instr} {s : State} (hwf : s.cfg.wf = true) (hi : i.WellFormed s.cfg = true) :
    ∀ m ∈ expand i s, m.Sound s.cfg := by
  intro m hm
  cases i with
  | wait | fill =>
    obtain rfl := List.mem_singleton.1 hm
    exact trivial
  | setl | seth | setc =>
    obtain rfl := List.mem_singleton.1 hm
    simpa [Instr.WellFormed, Micro.Sound] using hi
  | arm period =>
    obtain rfl := List.mem_singleton.1 hm
    rintro rfl
    simp [Instr.WellFormed] at hi
  | enc strip dir =>
    obtain rfl := List.mem_singleton.1 hm
    have hd : strip.toNat < s.cfg.strips.length := of_decide_eq_true hi
    exact ⟨_, List.getElem?_eq_getElem hd, (wf_strip hwf (List.getElem_mem hd)).1⟩
  | tx =>
    obtain ⟨d, bs, hd, hm⟩ := mem_expand_tx hm
    exact sound_txExpand hwf (List.mem_of_getElem? hd) hm
  | txall =>
    obtain ⟨j, d, hd, rfl | ⟨bs, hm⟩⟩ := mem_expand_txall hm
    · exact ⟨d, hd, (wf_strip hwf (List.mem_of_getElem? hd)).1⟩
    · exact sound_txExpand hwf (List.mem_of_getElem? hd) hm

/-! ## What no command changes -/

theorem exec_cfg {i : Instr} {s t : State} (h : exec i s = .next t) : t.cfg = s.cfg := by
  rcases exec_cases h with rfl | hrejected
  · rw [drive_cfg, begun_cfg]
  · exact hrejected.endedFatally.cfg

theorem runWord_cfg {w : CommandWord} {s t : State} (h : runWord w s = .next t) : t.cfg = s.cfg := by
  unfold runWord at h
  split at h
  · exact exec_cfg h
  · split_ifs at h
    cases h
    simp [State.illegalCommand]

/-- The five things a step can be (log entries 10 to 12). -/
theorem step_cases {s t : State} (h : step s = .next t) :
    t = s ∨ t = s.dropMove.resetNow ∨ (s.busy = true ∧ runWord s.cmd s = .next t) ∨
      (s.busy = false ∧ ∃ w, runWord w s.dropMove = .next t) ∨
      (s.busy = false ∧ ∃ timer, t = s.dropMove.otherTimerUser timer) ∨ (s.busy = false ∧ ∃ n, t = s.dropMove.pass n) := by
  cases hr : s.resetDue with
  | true =>
    rw [step_of_resetDue hr] at h
    cases h
    exact .inr (.inl rfl)
  | false =>
    cases hb : s.busy with
    | true =>
      rw [step_of_busy hr hb] at h
      exact .inr (.inr (.inl ⟨rfl, h⟩))
    | false =>
      cases ha : s.agenda with
      | nil =>
        rw [step_of_no_move hb ha] at h
        cases h
        exact .inl rfl
      | cons move ms =>
        have hdrop : s.dropMove = { s with agenda := ms } := by rw [State.dropMove, ha, List.tail_cons]
        cases move with
        | command w =>
          rw [step_command hb ha, ← hdrop] at h
          exact .inr (.inr (.inr (.inl ⟨rfl, w, h⟩)))
        | otherTimer timer =>
          rw [step_otherTimer hb ha] at h
          cases h
          exact .inr (.inr (.inr (.inr (.inl ⟨rfl, timer, rfl⟩))))
        | time n =>
          rw [step_time hb ha] at h
          cases h
          exact .inr (.inr (.inr (.inr (.inr ⟨rfl, n, rfl⟩))))
        | reset =>
          rw [resetDue_of_reset ha] at hr
          cases hr

/-- Settles O17: no move and no command writes the configuration. -/
theorem noStepWritesTheConfiguration : Obligations.NoStepWritesTheConfiguration := by
  intro s t h
  rcases step_cases h with rfl | rfl | ⟨-, h⟩ | ⟨-, w, h⟩ | ⟨-, timer, rfl⟩ | ⟨-, n, rfl⟩
  · rfl
  · simp
  · exact runWord_cfg h
  · simpa using runWord_cfg h
  · simp
  · simp

/-- Settles O18: the expansion of such a command holds no write of the colour buffer. -/
theorem onlySetcAndFillWriteTheColourBuffer : Obligations.OnlySetcAndFillWriteTheColourBuffer := by
  intro i s t hsetc hfill h
  rcases exec_cases h with rfl | hrejected
  · rw [drive_cbuf i fun m hm => writesColors_expand hsetc hfill s m (List.mem_of_mem_drop hm), begun_cbuf]
  · exact hrejected.endedFatally.cbuf

/-- Settles O19: the expansion of such a command holds no ENCODE. -/
theorem onlyEncAndTxallWriteTheScratchBuffer : Obligations.OnlyEncAndTxallWriteTheScratchBuffer := by
  intro i s t henc htxall h
  rcases exec_cases h with rfl | hrejected
  · rw [drive_scr i fun m hm => writesScratch_expand henc htxall s m (List.mem_of_mem_drop hm), begun_scr]
  · exact hrejected.endedFatally.scr

theorem level_of_lvl_eq {s t : State} (h : t.lvl = s.lvl) (id : Nat) : t.level id = s.level id := by
  rw [State.level, State.level, h]

/-- Settles O20: the expansion holds writes of the command's own lines only. -/
theorem commandsLeaveEveryOtherLine : Obligations.CommandsLeaveEveryOtherLine := by
  intro i s t id hid h
  rcases exec_cases h with rfl | hrejected
  · rw [drive_level i fun m hm => lineWritten_expand hid m (List.mem_of_mem_drop hm)]
    exact level_of_lvl_eq (begun_lvl i s) id
  · exact level_of_lvl_eq hrejected.endedFatally.lvl id

/-! ## When a command ends fatally -/

/-- Settles O21: under WF every command's loop goes on, or TX is one of a strip that does not exist. -/
theorem everyCommandIsCarriedOut : Obligations.EveryCommandIsCarriedOut := by
  intro i s hwf hs
  have ha := accepts_of_ready hs i
  by_cases hstrip : ∀ strip, i = .tx strip → (s.cfg.strips[strip.toNat]?).isSome = true
  · exact ⟨_, exec_of_wf ha hwf hstrip⟩
  · push Not at hstrip
    obtain ⟨strip, rfl, hmissing⟩ := hstrip
    exact ⟨_, exec_tx_of_accepts_missing ha (by simpa using hmissing)⟩

/-- Micro-operations in range leave FAULT, however the loop ends. -/
theorem drive_fault_of_sound (i : Instr) {ops : List Micro} {s : State} (h : ∀ m ∈ ops, m.Sound s.cfg) :
    (drive i ops s).fault = s.fault := by
  refine (drive_keeps (fun t => t.cfg = s.cfg ∧ t.fault = s.fault) i (fun _ h => h) (fun _ _ h => h)
    (fun _ _ t ht => by simpa using ht) (fun t ht => by simpa using ht) ops (fun m hm t ⟨hcfg, hf⟩ => ?_) s
    ⟨rfl, rfl⟩).2
  exact ⟨(perform_cfg m t).trans hcfg, (perform_fault_of_sound (hcfg ▸ h m hm)).trans hf⟩

/-- No TX of a well-formed configuration's strip ends before its ARM. -/
theorem not_txRejected {i : Instr} {s t : State} (hwf : s.cfg.wf = true) (hi : i.WellFormed s.cfg = true) :
    ¬ TxRejected i s t := by
  intro h
  cases h with
  | @missing strip s hd =>
    have hlt : strip.toNat < s.cfg.strips.length := of_decide_eq_true hi
    exact absurd (List.getElem?_eq_none_iff.1 hd) (Nat.not_le.2 hlt)
  | oversized hd hbig => exact absurd (wf_strip hwf (List.mem_of_getElem? hd)).1 (Nat.not_le.2 hbig)

/-- Settles O22: an expansion in range leaves FAULT at 0. -/
theorem wellFormedCommandsNeverEndFatally : Obligations.WellFormedCommandsNeverEndFatally := by
  intro i s t hwf hi h
  rcases exec_cases h with rfl | hrejected
  · have hsound : ∀ m ∈ (expand i s).drop (s.begun i).upc, m.Sound (s.begun i).cfg := fun m hm =>
      (begun_cfg i s).symm ▸ sound_expand hwf hi m (List.mem_of_mem_drop hm)
    rw [drive_fault_of_sound i hsound, begun_fault, (accepts_of_exec h).noFault]
  · exact absurd hrejected (not_txRejected hwf hi)

/-- A command of one micro-operation that ends fatally: time has passed, and the micro-operation was the fatal one. -/
theorem drive_singleton_fatal {i : Instr} {m : Micro} {s : State} (hs : s.fault = .noFault)
    (h : (drive i [m] s).fault ≠ .noFault) : ∃ u, EndedFatally (s.takeSlot.pass u) (drive i [m] s) := by
  rcases drive_cases i m [] s with ⟨-, hd⟩ | ⟨-, -, hd⟩ | ⟨t, -, he, hf, hd⟩ | ⟨t, -, he, hf, hd⟩
  · exact absurd hs (by simpa [hd] using h)
  · exact absurd hs (by simpa [hd] using h)
  · obtain ⟨u, rfl⟩ := enabledState_eq he
    exact ⟨u, hd ▸ perform_endedFatally hs hf⟩
  · rw [hd, drive, finish_fault, trackTransmit_fault] at h
    exact absurd hf h

/-- A command whose operands are out of range is one micro-operation, or a TX of a strip that does not exist. -/
theorem expand_of_not_wellFormed {i : Instr} {s : State} (h : ¬ i.WellFormed s.cfg = true) :
    (∃ m, expand i s = [m]) ∨ ∃ strip, i = .tx strip ∧ s.cfg.strips[strip.toNat]? = none := by
  cases i with
  | arm | setl | seth | enc | setc => exact .inl ⟨_, rfl⟩
  | tx strip => exact .inr ⟨strip, rfl, List.getElem?_eq_none (Nat.not_lt.1 fun hlt => h (decide_eq_true hlt))⟩
  | wait | fill | txall => exact absurd rfl h

/-- Settles O23: the fatal micro-operation is the command's only one, so that nothing but time came before it. -/
theorem fatalErrorsArePrecise : Obligations.FatalErrorsArePrecise := by
  intro i s t hwf hs h hfault
  have hf : s.fault = .noFault := (ready_iff.1 hs).2
  rcases exec_cases h with rfl | hrejected
  · have hi : ¬ i.WellFormed s.cfg = true := fun hi => hfault (wellFormedCommandsNeverEndFatally i s _ hwf hi h)
    rcases expand_of_not_wellFormed hi with ⟨m, hm⟩ | ⟨strip, rfl, hd⟩
    · rw [hm, begun_upc_of_idle (ready_iff.1 hs).1, List.drop_zero] at hfault ⊢
      obtain ⟨u, hend⟩ := drive_singleton_fatal (by rw [begun_fault, hf]) hfault
      refine ⟨by simpa using hend.cbuf, by simpa using hend.scr, by simpa using hend.lvl, hend.busy,
        by simpa using hend.wire, ?_⟩
      rw [hend.timer, pass_timer, takeSlot_timer, begun_timer, ← advance_add]
      exact ⟨_, rfl⟩
    · simp [expand, hd, drive, hf] at hfault
  · have hend := hrejected.endedFatally
    exact ⟨hend.cbuf, hend.scr, hend.lvl, hend.busy, hend.wire, 0, hend.timer.trans (advance_zero _).symm⟩

end Sys2Proof.Machine
end

section
/-!
The invariant (10_state.md R24, R25, R27, R32, R40, 60_exceptions.md R188): the forms of the memories and latches are kept
micro-operation by micro-operation, and the position by the loop.
-/

namespace Sys2Proof.Machine

/-! ## The forms of the memories and the latches -/

/-- What every micro-operation keeps under WF: both memories canonical and inside their spaces, and a latch for every driven
line. -/
structure State.Forms (s : State) : Prop where
  wf : s.cfg.wf = true
  cbuf : Memory.wf (listedColor s.cfg) s.cbuf
  scr : Memory.wf (listedByte s.cfg) s.scr
  lvl : s.lvl.map Prod.fst = s.cfg.drivenIds

/-- Only the configuration, the memories and the latches count. -/
theorem State.Forms.congr {s t : State} (h : s.Forms) (hcfg : t.cfg = s.cfg) (hcbuf : t.cbuf = s.cbuf)
    (hscr : t.scr = s.scr) (hlvl : t.lvl = s.lvl) : t.Forms :=
  ⟨hcfg ▸ h.wf, by rw [hcfg, hcbuf]; exact h.cbuf, by rw [hcfg, hscr]; exact h.scr, by rw [hcfg, hlvl]; exact h.lvl⟩

theorem EndedFatally.forms {s t : State} (h : EndedFatally s t) (hs : s.Forms) : t.Forms :=
  hs.congr h.cfg h.cbuf h.scr h.lvl

theorem drivenIds_rising (c : Cfg) : c.drivenIds.Pairwise (· < ·) :=
  List.pairwise_lt_range.filter c.driven

/-- The write of a line that exists keeps the list of the latches. -/
theorem setLine_forms {s : State} {id : Nat} (hid : id < s.cfg.nLines) (level : Bool) (h : s.Forms) :
    (s.setLine id level).Forms := by
  rw [setLine_ran hid]
  refine ⟨h.wf, h.cbuf, h.scr, ?_⟩
  dsimp only
  split_ifs with hdriven
  · rw [insert_keys, h.lvl]
    · exact h.lvl ▸ drivenIds_rising s.cfg
    · exact h.lvl ▸ mem_drivenIds.2 hdriven
  · exact h.lvl

theorem length_encodedBytes_le (off : Nat) (d : Strip) (dir : Direction) (s : State) :
    (s.encodedBytes off d dir).length ≤ 3 * d.leds := by
  cases ho : d.channelOrder with
  | none => simp [State.encodedBytes, ho]
  | some o => rw [length_encodedBytes ho]

/-- The bytes of a strip that fits stay inside the scratch buffer. -/
theorem encodeStrip_forms {s : State} {k : Nat} {d : Strip} (hd : s.cfg.strips[k]? = some d)
    (hfits : 3 * d.leds ≤ s.cfg.scratchBytes) (dir : Direction) (h : s.Forms) : (s.encodeStrip k dir).Forms := by
  obtain ⟨i, hi⟩ := encodeStrip_of_fits hd hfits dir
  have hlen := length_encodedBytes_le (s.cfg.start k) d dir s
  rw [hi]
  exact ⟨h.wf, h.cbuf, putBytes_wf h.scr (by rw [Nat.zero_add]; exact hlen.trans hfits), h.lvl⟩

theorem perform_forms {s : State} (m : Micro) (h : s.Forms) : (m.perform s).Forms := by
  rcases perform_cases m s with ⟨hsound, -⟩ | ⟨-, hend⟩
  · cases m with
    | arm | wait => exact h.congr (perform_cfg _ s) (perform_cbuf rfl s) (perform_scr rfl s) (by simp [Micro.perform])
    | setl id => exact setLine_forms hsound false h
    | seth id => exact setLine_forms hsound true h
    | encode strip dir =>
      obtain ⟨d, hd, hfits⟩ := hsound
      exact encodeStrip_forms hd hfits dir h
    | setColor idx color =>
      rw [Micro.perform, setColor_of_lt hsound]
      exact ⟨h.wf, putColor_wf h.cbuf ((wf_cbufLen h.wf).symm ▸ hsound), h.scr, h.lvl⟩
    | fillAll color => exact ⟨h.wf, putColors_wf h.cbuf (Nat.le_refl _), h.scr, h.lvl⟩
  · exact hend.forms h

theorem drive_forms (i : Instr) (ops : List Micro) {s : State} (h : s.Forms) : (drive i ops s).Forms :=
  drive_keeps State.Forms i (fun _ h => h.congr rfl rfl rfl rfl) (fun _ _ h => h.congr rfl rfl rfl rfl)
    (fun _ _ _ h => h.congr (by simp) (by simp) (by simp) (by simp))
    (fun _ h => h.congr (by simp) (by simp) (by simp) (by simp)) ops (fun m _ _ => perform_forms m) s h

/-! ## The position -/

/-- How a command can stand when its step ends, its expansion `n` micro-operations long (10_state.md R32, 60_exceptions.md
R188). -/
inductive State.Stands (n : Nat) (t : State) : Prop where
  | completed (hb : t.busy = false) (hf : t.fault = .noFault) (hupc : t.upc = 0)
  | fatal (hb : t.busy = false) (hf : t.fault ≠ .noFault)
  | running (hb : t.busy = true) (hf : t.fault = .noFault) (hupc : t.upc < n)

/-- The loop ends with the command completed, fatally ended or at a position inside its expansion. -/
theorem drive_stands (i : Instr) {ops : List Micro} {s : State} {n : Nat} (hb : s.busy = true) (hf : s.fault = .noFault)
    (hn : s.upc + ops.length = n) : (drive i ops s).Stands n := by
  induction ops generalizing s with
  | nil => exact .completed (by simp [drive]) (by simp [drive, hf]) (by simp [drive])
  | cons m rest ih =>
    rw [List.length_cons] at hn
    rcases drive_cases i m rest s with ⟨-, hd⟩ | ⟨-, -, hd⟩ | ⟨t, -, he, hfatal, hd⟩ | ⟨t, -, he, hgo, hd⟩
    · exact hd ▸ .running hb hf (by simp; omega)
    · exact hd ▸ .running (by simp [hb]) (by simp [hf]) (by simp; omega)
    · obtain ⟨u, rfl⟩ := enabledState_eq he
      exact hd ▸ .fatal (perform_endedFatally (s := s.takeSlot.pass u) hf hfatal).busy hfatal
    · obtain ⟨u, rfl⟩ := enabledState_eq he
      rw [hd]
      exact ih (by simpa [hb] using perform_busy hgo) (by simpa using hgo) (by simp; omega)

/-- How long an expansion is says the configuration alone. -/
theorem length_expand_congr {s t : State} (hwf : s.cfg.wf = true) (hcfg : t.cfg = s.cfg) (i : Instr) :
    (expand i t).length = (expand i s).length := by
  cases i with
  | tx strip =>
    cases hd : s.cfg.strips[strip.toNat]? with
    | none => simp only [expand, hcfg, hd]
    | some d => simp only [expand, hcfg, hd, txProgram, length_txExpand, length_bitsOf, length_readBytes]
  | txall =>
    have horder : ∀ d ∈ s.cfg.strips, d.channelOrder.isSome = true := fun d hd => (wf_strip hwf hd).2.1
    rw [expand, expand, hcfg, length_txallProgram horder, length_txallProgram horder, hcfg]
  | arm | wait | setl | seth | enc | setc | fill => rfl

/-- The command in flight is the one in CMD, inside its expansion. -/
theorem commandInFlight_iff {s : State} {i : Instr} (h : s.cmd = encode i) :
    s.commandInFlight = true ↔ s.upc < (expand i s).length := by
  simp [State.commandInFlight, h, decode_encode]

/-! ## The invariant -/

theorem State.Inv.wf {s : State} (h : s.Inv) (hf : s.fault = .noFault) : s.cfg.wf = true :=
  h.cfgChecked.resolve_right (not_not.2 hf)

theorem State.Inv.forms {s : State} (h : s.Inv) (hf : s.fault = .noFault) : s.Forms :=
  ⟨h.wf hf, h.cbufForm, h.scrForm, h.lvlForm⟩

/-- Where the forms hold, the invariant is about the position alone. -/
theorem State.Forms.inv {s : State} (h : s.Forms) {i : Instr} (hcmd : s.cmd = encode i)
    (hpos : s.Stands (expand i s).length) : s.Inv where
  cfgChecked := .inl h.wf
  fatalIdle hf := by
    cases hpos with
    | completed hb _ _ => exact hb
    | fatal hb _ => exact hb
    | running _ hf' _ => exact absurd hf' hf
  idleAtZero hb hf := by
    cases hpos with
    | completed _ _ hupc => exact hupc
    | fatal _ hf' => exact absurd hf hf'
    | running hb' _ _ => rw [hb] at hb'; cases hb'
  busyInside hb := by
    cases hpos with
    | running _ _ hupc => exact (commandInFlight_iff hcmd).2 hupc
    | completed hb' _ _ => rw [hb] at hb'; cases hb'
    | fatal hb' _ => rw [hb] at hb'; cases hb'
  cbufForm := h.cbuf
  scrForm := h.scr
  lvlForm := h.lvl

/-- A fatal end keeps the invariant. -/
theorem EndedFatally.inv {s t : State} (h : EndedFatally s t) (hs : s.Forms) : t.Inv where
  cfgChecked := .inr h.fault
  fatalIdle _ := h.busy
  idleAtZero _ hf := absurd hf h.fault
  busyInside hb := by rw [h.busy] at hb; cases hb
  cbufForm := (h.forms hs).cbuf
  scrForm := (h.forms hs).scr
  lvlForm := (h.forms hs).lvl

/-- The rest of the expansion begins inside it: at 0, or where a command in flight stands. -/
theorem State.Inv.begun_upc_le {s : State} (h : s.Inv) {i : Instr} (ha : s.Accepts i) :
    (s.begun i).upc ≤ (expand i s).length := by
  cases hb : s.busy with
  | false => rw [begun_upc_of_idle hb]; exact Nat.zero_le _
  | true =>
    rw [begun_upc_of_busy hb]
    exact ((commandInFlight_iff (ha.inFlight hb)).1 (h.busyInside hb)).le

theorem exec_inv {i : Instr} {s t : State} (hs : s.Inv) (h : exec i s = .next t) : t.Inv := by
  have ha := accepts_of_exec h
  have hforms := hs.forms ha.noFault
  rcases exec_cases h with ht | hrejected
  · have hbegun : (s.begun i).Forms := hforms.congr (by simp) (by simp) (by simp) (by simp)
    have htforms : t.Forms := ht ▸ drive_forms i _ hbegun
    have hcmd : t.cmd = encode i := by rw [ht, drive_cmd, ha.begun_cmd]
    refine htforms.inv hcmd ?_
    rw [length_expand_congr hforms.wf (exec_cfg h), ht]
    refine drive_stands i (begun_busy i s) (by rw [begun_fault, ha.noFault]) ?_
    rw [List.length_drop]
    have := hs.begun_upc_le ha
    omega
  · exact hrejected.endedFatally.inv hforms

theorem runWord_inv {w : CommandWord} {s t : State} (hs : s.Inv) (h : runWord w s = .next t) : t.Inv := by
  unfold runWord at h
  split at h
  · exact exec_inv hs h
  · split_ifs at h with hf
    cases h
    have hforms : (s.accept w).Forms := (hs.forms hf).congr (by simp) (by simp) (by simp) (by simp)
    exact (endedFatally_fatal (by decide) (s.accept w)).inv hforms

/-- A move of the plan or of the timer changes nothing that the invariant speaks of. -/
theorem State.Inv.congr {s t : State} (h : s.Inv) (hcfg : t.cfg = s.cfg) (hfault : t.fault = s.fault)
    (hbusy : t.busy = s.busy) (hcmd : t.cmd = s.cmd) (hupc : t.upc = s.upc) (hcbuf : t.cbuf = s.cbuf)
    (hscr : t.scr = s.scr) (hdraws : t.draws = s.draws) (hlvl : t.lvl = s.lvl) : t.Inv := by
  have hflight : t.commandInFlight = s.commandInFlight := by
    simp only [State.commandInFlight, hcmd, hupc, expand_congr hcfg hcbuf hscr hdraws]
  constructor <;> simp only [hcfg, hfault, hbusy, hupc, hcbuf, hscr, hlvl, hflight]
  · exact h.cfgChecked
  · exact h.fatalIdle
  · exact h.idleAtZero
  · exact h.busyInside
  · exact h.cbufForm
  · exact h.scrForm
  · exact h.lvlForm

/-- The state when reset is released, for any configuration, meets the invariant (70_reset_and_hazards.md R210 to R215). -/
theorem powerUp_inv (c : Cfg) (d : Nat) : (State.powerUp c d).Inv where
  cfgChecked := by cases hwf : c.wf <;> simp [State.powerUp, hwf]
  fatalIdle _ := rfl
  idleAtZero _ _ := rfl
  busyInside hb := by cases hb
  cbufForm := by simp [State.powerUp, Memory.wf]
  scrForm := by simp [State.powerUp, Memory.wf]
  lvlForm := by simp [State.powerUp, Function.comp_def]

/-- Settles O14: reset is a release of reset. -/
theorem resetMeetsTheInvariant : Obligations.ResetMeetsTheInvariant :=
  powerUp_inv Config.board 0

/-- Settles O15: a reset begins anew, a command keeps the forms and ends at a position, and other moves touch neither. -/
theorem everyStepKeepsTheInvariant : Obligations.EveryStepKeepsTheInvariant := by
  intro s t hs h
  have hdrop : s.dropMove.Inv := hs.congr rfl rfl rfl rfl rfl rfl rfl rfl rfl
  rcases step_cases h with rfl | rfl | ⟨-, h⟩ | ⟨-, w, h⟩ | ⟨-, timer, rfl⟩ | ⟨-, n, rfl⟩
  · exact hs
  · exact (powerUp_inv s.cfg (s.draws + 1)).congr rfl rfl rfl rfl rfl rfl rfl rfl rfl
  · exact runWord_inv hs h
  · exact runWord_inv hdrop h
  · exact hdrop.congr rfl rfl rfl rfl rfl rfl rfl rfl rfl
  · exact hdrop.congr rfl rfl rfl rfl rfl rfl rfl rfl rfl

end Sys2Proof.Machine
end

section
/-!
The step (30_encoding.md R90, 10_state.md R31, R40), and the timer agent's steps with the WAIT that consumes their match
(40_timer_pin_surface.md R120, R122, 20_memory.md R80).
-/

namespace Sys2Proof.Machine

/-! ## The step -/

theorem runWord_of_decode_ok {w : CommandWord} {i : Instr} (h : decode w = .ok i) (s : State) : runWord w s = exec i s := by
  simp [runWord, h]

/-- Settles O8: an idle engine runs the word it takes off the plan, a busy one the word in CMD. -/
theorem stepRunsTheDecodedCommand : Obligations.StepRunsTheDecodedCommand :=
  ⟨fun _ _ _ _ hb ha hdec => (step_command hb ha).trans (runWord_of_decode_ok hdec _),
    fun _ _ hb hr hdec => (step_of_busy hr hb).trans (runWord_of_decode_ok hdec _)⟩

/-- An instruction that the engine does not accept has no next state and no fault (30_encoding.md R90). -/
theorem issue_of_other {i : Instr} {s : State} (hf : s.fault = .noFault) (hb : s.busy = true) (hc : s.cmd ≠ encode i)
    (body : State → Host.Outcome State Fault Refusal) : issue i s body = .refused .busyWithAnotherCommand := by
  rw [issue, if_neg (not_not.2 hf), if_pos ⟨hb, hc⟩]

/-- Settles O10: a halted engine refuses every word, a busy one every instruction but the one in CMD. -/
theorem noCommandIsAcceptedWhenHaltedOrBusy : Obligations.NoCommandIsAcceptedWhenHaltedOrBusy := by
  refine ⟨fun s w ms hb hf ha => ?_, fun s i hf hb hc => ?_⟩
  · rw [step_command hb ha]
    exact runWord_of_halted (s := { s with agenda := ms }) hf w
  · obtain ⟨body, hissue⟩ := exec_eq_issue i s
    rw [hissue, issue_of_other hf hb hc]

/-- Settles O11: without a move the step is the identity. -/
theorem idleEngineWaitsForTheHost : Obligations.IdleEngineWaitsForTheHost :=
  fun _ => step_of_no_move

/-! ## The timer -/

/-- Settles O26: the closed form takes one more step as the step does. -/
theorem timerAdvanceIsItsSteps : Obligations.TimerAdvanceIsItsSteps :=
  fun n t => advance_eq_iterate t n

/-- The timer step as its rule writes it out (40_timer_pin_surface.md R120). -/
theorem step_eq_ite (t : Timer) : t.step =
    if t.en = false then t
    else if t.cnt + 1#32 = t.period then { t with cnt := 0#32, matched := true }
    else { t with cnt := t.cnt + 1#32 } := by
  cases hen : t.en <;> simp [Timer.step, hen]

theorem pass_of_live {s : State} (h : s.unitsLeft = none) (n : Nat) :
    s.pass n = { s with timer := Timer.step^[n] s.timer } := by
  simp [State.pass, h, advance_eq_iterate]

theorem pass_of_le {s : State} {b n : Nat} (h : s.unitsLeft = some b) (hn : n ≤ b) :
    s.pass n = { s with timer := Timer.step^[n] s.timer, unitsLeft := some (b - n) } := by
  simp [State.pass, h, grantedUnits_of_le hn, advance_eq_iterate]

/-- Under TIMER_LIVE a move of `n` units is `n` timer steps and nothing else. -/
theorem step_time_live {s : State} {n : Nat} {ms : List Move} (hb : s.busy = false) (hlive : s.unitsLeft = none)
    (ha : s.agenda = .time n :: ms) :
    step s = .next { s with agenda := ms, timer := Timer.step^[n] s.timer } := by
  rw [step_time hb ha, pass_of_live (s := s.dropMove) hlive]
  simp [State.dropMove, ha]

/-- Settles O27: `n` units are `n` timer steps, and one step is written out. -/
theorem timePassingIsTimerSteps : Obligations.TimePassingIsTimerSteps := by
  refine ⟨fun s ms hb hlive ha => ?_, fun s n ms => step_time_live⟩
  rw [step_time_live hb hlive ha, Function.iterate_one, step_eq_ite]

theorem armed_cycle {p : Word32} (h : p ≠ 0#32) : (Timer.armed p).cycle = p.toNat := by
  rw [← armed_stepsToMatch h]
  simp [Timer.cycle, Timer.stepsToMatch, Timer.armed]

/-- Settles O29: after the first match the count goes round once a period and T_MATCH stays set. -/
theorem missedMatchesMergeIntoOne : Obligations.MissedMatchesMergeIntoOne := by
  intro p m hp hm
  have hle : p.toNat ≤ m * p.toNat := Nat.le_mul_of_pos_left _ hm
  have hrounds : (m * p.toNat - p.toNat) % p.toNat = 0 := by
    rw [← Nat.sub_one_mul, Nat.mul_mod_left]
  rw [← advance_eq_iterate, advance_of_le rfl (by rwa [armed_stepsToMatch hp]), armed_stepsToMatch hp, armed_cycle hp,
    hrounds]
  rfl

/-- Settles O32: the closed form matches from the step numbered `stepsToMatch` on. -/
theorem waitEndsAtTheFirstMatch : Obligations.WaitEndsAtTheFirstMatch := by
  intro t hen hmatched
  refine ⟨?_, fun n hn => ?_⟩
  · rw [← advance_eq_iterate, advance_matched hen (Nat.le_refl _)]
  · rw [← advance_eq_iterate, advance_unmatched hn, hmatched]

/-! ## WAIT -/

theorem hang_of_stopped {s : State} (h : s.timer.en = false) : s.hang = s := by
  simp [State.hang, h]

theorem hang_of_counting {s : State} (h : s.timer.en = true) {b : Nat} (hb : s.unitsLeft = some b) :
    s.hang = { s with timer := Timer.step^[b] s.timer, unitsLeft := some 0 } := by
  rw [State.hang, if_pos h, hb, Option.getD_some, pass_of_le hb (Nat.le_refl b), Nat.sub_self]

/-- WAIT completes when it gets the time it needs, and holds when it gets none. -/
theorem exec_wait_of_units {s : State} (hs : s.ready = true) (hp : s.nextSlot.isPause = false) {n : Nat}
    (h : s.takeSlot.waitUnits = some n) :
    exec .wait s = .next ((s.accepted .wait).pass n).consumeMatch.complete := by
  have hf : s.fault = .noFault := (ready_iff.1 hs).2
  have henabled : Micro.wait.enabledState (s.accepted .wait) = some ((s.accepted .wait).pass n) :=
    congrArg (Option.map fun n => (s.accepted .wait).pass n) h
  have hexec : exec .wait s = .next ((s.accepted .wait).pass n).consumeMatch.completeUnlessFatal :=
    (issue_ready hs _ _).trans (carry_one .wait .wait hp henabled)
  rw [hexec]
  exact congrArg Host.Outcome.next (completeUnlessFatal_of_noFault hf)

theorem exec_wait_of_no_units {s : State} (hs : s.ready = true) (hp : s.nextSlot.isPause = false)
    (h : s.takeSlot.waitUnits = none) : exec .wait s = .next (s.accepted .wait).hang := by
  have hnone : Micro.wait.enabledState (s.accepted .wait) = none :=
    congrArg (Option.map fun n => (s.accepted .wait).pass n) h
  have hexec : exec .wait s =
      .next (drive .wait [.wait] { s with cmd := encode .wait, busy := true, upc := 0 }) := issue_ready hs .wait _
  rcases drive_cases .wait .wait [] { s with cmd := encode .wait, busy := true, upc := 0 } with
    ⟨hpause, -⟩ | ⟨-, -, hd⟩ | ⟨t, -, he, -⟩ | ⟨t, -, he, -⟩
  · exact absurd hpause (by simpa [State.nextSlot] using hp)
  · rw [hexec, hd]
    rfl
  · cases hnone.symm.trans he
  · cases hnone.symm.trans he

theorem waitUnits_of_matched {s : State} (h : s.timer.matched = true) : s.waitUnits = some 0 :=
  if_pos h

theorem waitUnits_of_live {s : State} (hm : s.timer.matched = false) (hen : s.timer.en = true)
    (hlive : s.unitsLeft = none) : s.waitUnits = some s.timer.stepsToMatch := by
  simp [State.waitUnits, hm, hen, hlive]

theorem waitUnits_of_le {s : State} (hm : s.timer.matched = false) (hen : s.timer.en = true) {b : Nat}
    (hb : s.unitsLeft = some b) (hle : s.timer.stepsToMatch ≤ b) : s.waitUnits = some s.timer.stepsToMatch := by
  simp [State.waitUnits, hm, hen, hb, hle]

/-- Settles O31: the time a WAIT needs, in each of its five cases. -/
theorem waitConsumesTheMatch : Obligations.WaitConsumesTheMatch := by
  intro s hs hp timer
  refine ⟨fun hm => ?_, fun hm hen hlive => ?_, fun b hm hen hb hle => ?_, fun b hm hen hb hlt => ?_, fun hm hen => ?_⟩
  · rw [exec_wait_of_units hs hp (waitUnits_of_matched hm), pass_zero]
    rfl
  · have hlive' : s.takeSlot.unitsLeft = none := by simp [hlive]
    rw [exec_wait_of_units hs hp (waitUnits_of_live hm hen hlive'), pass_of_live (s := s.accepted .wait) hlive']
    rfl
  · rw [exec_wait_of_units hs hp (waitUnits_of_le hm hen hb hle), pass_of_le (s := s.accepted .wait) hb hle]
    rfl
  · have hstalled : s.takeSlot.Stalled := ⟨hm, .inr ⟨b, hb, hlt⟩⟩
    rw [exec_wait_of_no_units hs hp hstalled.waitUnits, hang_of_counting (s := s.accepted .wait) hen hb]
    rfl
  · have hstalled : s.takeSlot.Stalled := ⟨hm, .inl hen⟩
    rw [exec_wait_of_no_units hs hp hstalled.waitUnits, hang_of_stopped (s := s.accepted .wait) hen]
    rfl

end Sys2Proof.Machine
end

section
/-!
The position of a running command (10_state.md R29, R30, R33) and pauses between two micro-operations (log entry 8).
-/

namespace Sys2Proof.Machine

/-! ## The position of a transmit -/

/-- The commands that keep J and TC (10_state.md R29, R30). -/
def Instr.Transmits (i : Instr) : Prop := i.opcode = .tx ∨ i.opcode = .txall

/-- The bit whose cell holds position `pos` of a transmitting command (log entry 15). -/
def bitOf (i : Instr) (c : Cfg) (pos : Nat) : Nat :=
  match i with
  | .txall => txallBitAt c pos c.strips
  | .tx _ | .arm _ | .wait | .setl _ | .seth _ | .enc _ _ | .setc _ _ | .fill _ => bitAt c pos

theorem trackTransmit_of_transmits {i : Instr} (hi : Instr.Transmits i) (rest : List Micro) (s : State) :
    State.trackTransmit i rest s = { s with
      j := if rest.isEmpty then s.j else BitVec.ofNat 37 (bitOf i s.cfg s.upc), tc := leadingWaits rest } := by
  cases i with
  | tx | txall => rfl
  | arm | wait | setl | seth | enc | setc | fill => simp [Instr.Transmits, Instr.opcode] at hi

/-- Position `p` of the strip that comes after the strips `ds`. -/
theorem txallBitAt_append {c : Cfg} {d : Strip} {p : Nat} (h : p < 3 + c.resetTicks + 120 * d.leds) (ds es : List Strip) :
    txallBitAt c ((ds.map fun e => 3 + c.resetTicks + 120 * e.leds).sum + p) (ds ++ d :: es) = bitAt c (p - 1) := by
  induction ds with
  | nil => simp [txallBitAt, h]
  | cons e ds ih =>
    have hskip : ∀ n, (3 + c.resetTicks + 120 * e.leds + n + p) - (3 + c.resetTicks + 120 * e.leds) = n + p := by
      intro n; omega
    rw [List.cons_append, List.map_cons, List.sum_cons, txallBitAt, if_neg (by omega), hskip, ih]

/-! ## One micro-operation -/

/-- A running command that has time for one micro-operation and then pauses: it holds at a WAIT, or it is one position on, with
more to come. -/
theorem drive_one_turn {i : Instr} {m : Micro} {rest : List Micro} {s : State} {u v : Nat} {xs : List Slot}
    (hf : s.fault = .noFault) (hpace : s.pace = .run u :: .pause v :: xs) (hbusy : (drive i (m :: rest) s).busy = true) :
    (m = .wait ∧ (drive i (m :: rest) s).upc = s.upc) ∨
      (rest ≠ [] ∧ ∃ t : State, t.cfg = s.cfg ∧ t.upc = s.upc + 1 ∧
        drive i (m :: rest) s = (State.trackTransmit i rest t).takeSlot) := by
  have hrun : s.nextSlot.isPause = false := by simp [State.nextSlot, hpace, Slot.isPause]
  rcases drive_cases i m rest s with ⟨hp, -⟩ | ⟨-, he, hd⟩ | ⟨t, -, he, hfatal, hd⟩ | ⟨t, -, he, -, hd⟩
  · rw [hrun] at hp
    cases hp
  · refine .inl ⟨?_, by simp [hd]⟩
    cases m with
    | wait => rfl
    | arm | setl | seth | encode | setColor | fillAll => cases he
  · obtain ⟨n, rfl⟩ := enabledState_eq he
    rw [hd, (perform_endedFatally (s := s.takeSlot.pass n) hf hfatal).busy] at hbusy
    cases hbusy
  · obtain ⟨n, rfl⟩ := enabledState_eq he
    cases rest with
    | nil =>
      rw [hd] at hbusy
      simp [drive] at hbusy
    | cons m' rest =>
      refine .inr ⟨List.cons_ne_nil _ _, { m.perform (s.takeSlot.pass n) with upc := s.upc + 1 }, by simp, rfl, ?_⟩
      rw [hd, drive, if_pos]
      · rfl
      · simp [State.nextSlot, hpace, Slot.isPause]

/-- Settles O24: the micro-operation is the one at UPC, and J and TC are tracked where UPC has gone. -/
theorem positionAdvancesByOne : Obligations.PositionAdvancesByOne := by
  intro i s t u v xs hb hpace h hbusy
  have hf := (accepts_of_exec h).noFault
  rcases exec_cases h with ht | hrejected
  · rw [begun_upc_of_busy hb] at ht
    cases hops : (expand i s).drop s.upc with
    | nil =>
      rw [ht, hops] at hbusy
      simp [drive] at hbusy
    | cons m rest =>
      have hm : (expand i s)[s.upc]? = some m := by rw [← List.head?_drop, hops, List.head?_cons]
      have hrest : (expand i s).drop (s.upc + 1) = rest := by rw [← List.tail_drop, hops, List.tail_cons]
      rw [hops] at ht
      rcases drive_one_turn (s := s.begun i) (by simpa using hf) (by simpa using hpace) (ht ▸ hbusy) with
        ⟨rfl, hupc⟩ | ⟨hne, a, hcfg, hupc, hd⟩
      · exact .inr ⟨by rw [ht, hupc, begun_upc_of_busy hb], hm⟩
      · rw [begun_upc_of_busy hb] at hupc
        rw [begun_cfg] at hcfg
        have hne' : rest.isEmpty = false := by simpa using hne
        have htupc : t.upc = s.upc + 1 := by rw [ht, hd, takeSlot_upc, trackTransmit_upc, hupc]
        have hj (hi : Instr.Transmits i) : t.j = BitVec.ofNat 37 (bitOf i s.cfg t.upc) := by
          rw [htupc, ht, hd, takeSlot_j, trackTransmit_of_transmits hi, hne', hcfg, hupc]
          rfl
        refine .inl ⟨htupc, fun hi => ?_, fun hi => ?_, fun hi ds es d p hstrips hp hpos => ?_⟩
        · rw [ht, hd, takeSlot_tc, trackTransmit_of_transmits hi, hrest]
        · rw [hj (.inl hi)]
          cases i <;> cases hi
          rfl
        · rw [hj (.inr hi)]
          cases i <;> cases hi
          rw [bitOf, hpos, hstrips, txallBitAt_append hp, bitAt, Nat.sub_sub]
          congr 3
          omega
  · rw [hrejected.endedFatally.busy] at hbusy
    cases hbusy

/-! ## Pauses -/

theorem prepare_prepare (i : Instr) (a : State) : (a.prepare i).prepare i = a.prepare i := by
  cases i with
  | tx strip =>
    cases hd : a.cfg.strips[strip.toNat]? with
    | none => simp [State.prepare, hd]
    | some d => by_cases hupc : a.upc = 0 <;> simp [State.prepare, hd, hupc, State.selectStrip]
  | txall => by_cases hupc : a.upc = 0 <;> simp [State.prepare, hupc]
  | arm | wait | setl | seth | enc | setc | fill => rfl

theorem prepare_with_pace (i : Instr) (a : State) (xs : List Slot) :
    State.prepare i { a with pace := xs } = { a.prepare i with pace := xs } := by
  cases i with
  | tx strip =>
    cases hd : a.cfg.strips[strip.toNat]? with
    | none => simp [State.prepare, hd]
    | some d => by_cases hupc : a.upc = 0 <;> simp [State.prepare, hd, hupc, State.selectStrip]
  | txall => by_cases hupc : a.upc = 0 <;> simp [State.prepare, hupc]
  | arm | wait | setl | seth | enc | setc | fill => rfl

theorem begun_with_pace (i : Instr) (s : State) (xs : List Slot) :
    State.begun i { s with pace := xs } = { s.begun i with pace := xs } := by
  have haccept : State.accept (encode i) { s with pace := xs } = { s.accept (encode i) with pace := xs } := by
    cases hb : s.busy <;> simp [State.accept, hb]
  rw [State.begun, haccept, prepare_with_pace, State.begun]

/-- A begun command begins nothing again. -/
theorem begun_begun (i : Instr) (s : State) : (s.begun i).begun i = s.begun i := by
  rw [State.begun, accept_of_busy (begun_busy i s), State.begun, prepare_prepare]

/-- A TX with a next state that is not fatal is one of a strip that exists. -/
theorem strip_of_noFault {i : Instr} {s t : State} (h : exec i s = .next t) (hf : t.fault = .noFault) (strip : Word32)
    (hi : i = .tx strip) : (s.cfg.strips[strip.toNat]?).isSome = true := by
  subst hi
  cases hd : s.cfg.strips[strip.toNat]? with
  | some d => rfl
  | none =>
    rw [exec_tx_of_accepts_missing (accepts_of_exec h) hd] at h
    cases h
    cases hf

/-- W1. -/
theorem wf_strips_ne_nil {c : Cfg} (h : c.wf = true) : c.strips ≠ [] :=
  List.ne_nil_of_length_pos (of_decide_eq_true (wf_clauses h).1)

/-- Under WF every command that is carried out has a first micro-operation. -/
theorem length_expand_pos {i : Instr} {s : State} (hwf : s.cfg.wf = true)
    (hstrip : ∀ strip, i = .tx strip → (s.cfg.strips[strip.toNat]?).isSome = true) : 0 < (expand i s).length := by
  cases i with
  | arm | wait | setl | seth | enc | setc | fill => exact Nat.one_pos
  | tx strip =>
    obtain ⟨d, hd⟩ := Option.isSome_iff_exists.1 (hstrip strip rfl)
    simp only [expand, hd, txProgram, length_txExpand]
    omega
  | txall =>
    obtain ⟨d, ds, hds⟩ := List.exists_cons_of_ne_nil (wf_strips_ne_nil hwf)
    simp [expand, hds, txallProgram]

/-- A pausing slot of no time units leaves the command begun and the slot taken. -/
theorem drive_pause_zero {i : Instr} {ops : List Micro} {s : State} {xs : List Slot} (hops : ops ≠ [])
    (hpace : s.pace = .pause 0 :: xs) : drive i ops s = { s with pace := xs } := by
  obtain ⟨m, rest, rfl⟩ := List.exists_cons_of_ne_nil hops
  rw [drive, if_pos (by simp [State.nextSlot, hpace, Slot.isPause])]
  simp [State.takeSlot, State.nextSlot, hpace, Slot.units]

/-- Settles O25: the paused state is the begun one without the slot, from which both sides go on alike. -/
theorem pausingIsInvisible : Obligations.PausingIsInvisible := by
  intro i s t xs hinv hpace h hf
  have ha := accepts_of_exec h
  have hwf := hinv.wf ha.noFault
  have hstrip := strip_of_noFault h hf
  have hinside : (s.begun i).upc < (expand i s).length := by
    cases hb : s.busy with
    | false => rw [begun_upc_of_idle hb]; exact length_expand_pos hwf hstrip
    | true => rw [begun_upc_of_busy hb]; exact (commandInFlight_iff (ha.inFlight hb)).1 (hinv.busyInside hb)
  have ht : t = { s.begun i with pace := xs } := by
    rcases exec_cases h with ht | hrejected
    · exact ht.trans (drive_pause_zero (by simpa using hinside) (by simpa using hpace))
    · exact absurd hf hrejected.endedFatally.fault
  have hleft : exec i t = carryOut i (expand i s) t := by
    have hta : t.Accepts i := ⟨hf, fun _ => by rw [ht]; exact ha.begun_cmd⟩
    have hbegun : t.begun i = t := by rw [ht, begun_with_pace, begun_begun]
    have hexpand : expand i t = expand i s := expand_congr (by simp [ht]) (by simp [ht]) (by simp [ht]) (by simp [ht]) i
    rw [exec_of_wf hta (by simpa [ht] using hwf) (by simpa [ht] using hstrip), State.goesOn, hbegun, hexpand]
  have hright : exec i { s with pace := xs } = carryOut i (expand i s) t := by
    have hexpand : expand i { s with pace := xs } = expand i s :=
      expand_congr (s := s) (t := { s with pace := xs }) rfl rfl rfl rfl i
    rw [exec_of_wf (s := { s with pace := xs }) ⟨ha.noFault, ha.inFlight⟩ hwf hstrip, State.goesOn, hexpand,
      begun_with_pace, ht]
  rw [hleft, hright]

end Sys2Proof.Machine
end

section
/-!
The phases of a transmit (10_state.md R34, 41_physical_strip.md R147), position by position, and where a Color goes on the wire
(20_memory.md R73, R74).
-/

namespace Sys2Proof.Machine

/-! ## Phases -/

/-- The phase of position `q` of the cell of bit `J` (10_state.md R34). -/
def cellPhase (bit : Bool) (J q : Nat) : Phase :=
  if q = 0 then .bitHigh J
  else if q ≤ (if bit then 2 else 1) then .highWait J
  else if q = (if bit then 2 else 1) + 1 then .bitLow J
  else .lowWait J

theorem getElem?_cell (c : Cfg) (ln : Nat) (bit : Bool) (J : Nat) {q : Nat} (hq : q < 5) :
    (cell ln bit)[q]? = some ((cellPhase bit J q).micro c ln) := by
  cases bit <;> interval_cases q <;> rfl

/-- The positions past the reset pulse are those of the cells. -/
theorem getElem?_txExpand_of_le {c : Cfg} {pos : Nat} (h : 2 + c.resetTicks ≤ pos) (ln : Nat) (bs : List Bool) :
    (txExpand c ln bs)[pos]? = (bs.flatMap (cell ln))[pos - (2 + c.resetTicks)]? := by
  have hlen : ([Micro.arm c.tick, .setl ln] ++ List.replicate c.resetTicks Micro.wait).length = 2 + c.resetTicks := by
    simp
    omega
  rw [txExpand, List.getElem?_append_right (by omega), hlen]

theorem getElem?_txExpand_of_lt {c : Cfg} {pos : Nat} (h : pos + 2 < 2 + c.resetTicks) (ln : Nat) (bs : List Bool) :
    (txExpand c ln bs)[pos + 2]? = some .wait := by
  have hpos : pos < c.resetTicks := by omega
  simp [txExpand, List.getElem?_append_left, hpos]

theorem phaseAt_of_none {c : Cfg} {bs : List Bool} {pos : Nat} (h : 2 + c.resetTicks ≤ pos)
    (hb : bs[bitAt c pos]? = none) : phaseAt c bs pos = none := by
  rw [phaseAt, if_neg (by omega), if_neg (by omega), if_neg (by omega)]
  simp only [hb]

theorem phaseAt_of_some {c : Cfg} {bs : List Bool} {pos : Nat} {bit : Bool} (h : 2 + c.resetTicks ≤ pos)
    (hb : bs[bitAt c pos]? = some bit) :
    phaseAt c bs pos = some (cellPhase bit (bitAt c pos) ((pos - (2 + c.resetTicks)) % 5)) := by
  rw [phaseAt, if_neg (by omega), if_neg (by omega), if_neg (by omega)]
  simp only [hb, cellPhase, ← apply_ite some]

/-- Settles O41: the three positions before the cells, and position `q` of the cell of bit `J`. -/
theorem positionsFallInThePhases : Obligations.PositionsFallInThePhases := by
  intro c ln bs pos
  match pos with
  | 0 => rfl
  | 1 => rfl
  | pos + 2 =>
    rcases Nat.lt_or_ge (pos + 2) (2 + c.resetTicks) with hlt | hge
    · rw [getElem?_txExpand_of_lt hlt, phaseAt, if_neg (by omega), if_neg (by omega), if_pos hlt]
      rfl
    · have hsplit : pos + 2 - (2 + c.resetTicks) = 5 * bitAt c (pos + 2) + (pos + 2 - (2 + c.resetTicks)) % 5 :=
        (Nat.div_add_mod _ 5).symm
      have hq : (pos + 2 - (2 + c.resetTicks)) % 5 < 5 := Nat.mod_lt _ (by decide)
      rw [getElem?_txExpand_of_le hge]
      cases hb : bs[bitAt c (pos + 2)]? with
      | none =>
        have hle : bs.length ≤ bitAt c (pos + 2) := List.getElem?_eq_none_iff.1 hb
        rw [phaseAt_of_none hge hb, Option.map_none, List.getElem?_eq_none_iff,
          length_flatMap_of_length (length_cell ln)]
        omega
      | some bit =>
        rw [phaseAt_of_some hge hb, Option.map_some, ← getElem?_cell c ln bit _ hq]
        conv_lhs => rw [hsplit]
        exact getElem?_flatMap_of_length (length_cell ln) hb hq

/-! ## The position of a Color on the wire -/

/-- Settles O53: the LED at the wire position is the one whose Color is `CBUF[START[k] + l]`. -/
theorem colorsGoToTheirWirePosition : Obligations.ColorsGoToTheirWirePosition := by
  intro s g k l d o hlocate hd ho i bytes
  obtain ⟨e, he, hl, rfl⟩ := (locate_eq_some_iff s.cfg g k l).1 hlocate
  obtain rfl : e = d := Option.some.inj (he.symm.trans hd)
  have hi : i < e.leds ∧ (if e.direction = .forward then i else e.leds - 1 - i) = l := by
    cases hrev : e.reversed with
    | true =>
      have hi : i = e.leds - 1 - l := if_pos hrev
      rw [direction_of_reversed hrev, if_neg (by decide)]
      omega
    | false =>
      have hi : i = l := if_neg (by simp [hrev])
      rw [direction_of_not_reversed hrev, if_pos rfl]
      omega
  have hbytes := getElem?_encodedBytes ho (s.cfg.start k) hi.1 e.direction s
  rw [hi.2] at hbytes
  exact hbytes

end Sys2Proof.Machine
end

section
/-!
FILL as SETC of every index in turn (30_encoding.md R101), and canonical colour buffers as data (20_memory.md R71).
-/

namespace Sys2Proof.Machine

/-! ## Slots that do not pause -/

theorem not_pause_of_unpaused {s : State} (h : s.unpaused = true) : s.nextSlot.isPause = false :=
  State.Calm.not_pause (s := { s with unitsLeft := none }) ⟨rfl, h⟩

theorem unpaused_tail {s : State} (h : s.unpaused = true) : s.takeSlot.unpaused = true :=
  (State.Calm.takeSlot (s := { s with unitsLeft := none }) ⟨rfl, h⟩).steady

/-! ## Runs of commands -/

/-- A list of commands goes on with the next list where it leaves the engine ready (70_reset_and_hazards.md R225). -/
theorem runAll_append {is js : List Instr} {s t : State} (h : runAll is s = .next t) (ht : t.ready = true) :
    runAll (is ++ js) s = runAll js t := by
  induction is generalizing s with
  | nil =>
    cases h
    rfl
  | cons i is ih =>
    rw [List.cons_append, runAll]
    rw [runAll] at h
    cases hrun : runCommand i s with
    | next u =>
      simp only [hrun] at h ⊢
      split_ifs at h ⊢ with hu
      · exact ih h
      · cases h
        exact absurd ht hu
    | fault r => simp [hrun] at h
    | refused r => simp [hrun] at h

/-! ## The first `n` colours set -/

/-- The first `n` entries of the colour buffer have been set to `c`, command after command or at once. -/
structure ColorsSet (c : Color) (n : Nat) (s t : State) : Prop where
  ready : t.ready = true
  unpaused : t.unpaused = true
  cbuf : t.cbuf = putColors c n s.cbuf
  upc : s.upc = 0 → t.upc = 0
  wire : t.wire = s.wire
  scr : t.scr = s.scr
  lvl : t.lvl = s.lvl
  cfg : t.cfg = s.cfg
  timer : ∃ u, t.timer = s.timer.advance u

theorem ColorsSet.zero {c : Color} {s : State} (hs : s.ready = true) (hp : s.unpaused = true) : ColorsSet c 0 s s :=
  ⟨hs, hp, rfl, id, rfl, rfl, rfl, rfl, 0, (advance_zero _).symm⟩

/-- One SETC more. -/
theorem ColorsSet.setc {c : Color} {n : Nat} {s t : State} (h : ColorsSet c n s t) (hwf : s.cfg.wf = true)
    (hn : n < s.cfg.cbufLen) :
    ∃ u, exec (.setc (BitVec.ofNat 32 n) c) t = .next u ∧ ColorsSet c (n + 1) s u := by
  have hbound : s.cfg.cbufLen < 2 ^ 32 := by
    obtain ⟨-, -, -, -, -, -, -, h8⟩ := wf_clauses hwf
    simp only [Cfg.w8, Bool.and_eq_true, decide_eq_true_eq] at h8
    exact h8.1.1.1
  have hidx : (BitVec.ofNat 32 n).toNat = n := by
    rw [BitVec.toNat_ofNat, Nat.mod_eq_of_lt (by omega)]
  have hlt : (BitVec.ofNat 32 n).toNat < t.cfg.totalLeds := by
    rw [hidx, h.cfg, ← wf_cbufLen hwf]
    exact hn
  obtain ⟨u, hu⟩ := h.timer
  refine ⟨_, exec_setc_of_lt h.ready (not_pause_of_unpaused h.unpaused) (h.cfg ▸ hwf) hlt c, ?_⟩
  refine ⟨ready_iff.2 ⟨rfl, (ready_iff.1 h.ready).2⟩, unpaused_tail h.unpaused, ?_, fun _ => rfl, h.wire, h.scr, h.lvl, h.cfg,
    u + grantedUnits t.unitsLeft t.nextSlot.units, ?_⟩
  · rw [complete_cbuf, writeColor_cbuf, hidx, putColors, ← h.cbuf]
    rfl
  · rw [advance_add, ← hu]
    rfl

/-- SETC of the first `n` indices in turn. -/
theorem runAll_setcCommands (c : Color) {s : State} (hwf : s.cfg.wf = true) (hs : s.ready = true)
    (hp : s.unpaused = true) {n : Nat} (hn : n ≤ s.cfg.cbufLen) :
    ∃ t, runAll (setcCommands c n) s = .next t ∧ ColorsSet c n s t := by
  induction n with
  | zero => exact ⟨s, rfl, .zero hs hp⟩
  | succ n ih =>
    obtain ⟨t, hrun, ht⟩ := ih (by omega)
    obtain ⟨u, hexec, hu⟩ := ht.setc hwf (by omega)
    refine ⟨u, ?_, hu⟩
    rw [setcCommands, List.range_succ, List.map_append, List.map_singleton]
    exact (runAll_append hrun ht.ready).trans (runAll_cons hexec hu.ready)

/-- FILL at once. -/
theorem exec_fill_colorsSet (c : Color) {s : State} (hs : s.ready = true) (hp : s.unpaused = true) :
    ∃ t, exec (.fill c) s = .next t ∧ ColorsSet c s.cfg.cbufLen s t :=
  ⟨_, exec_fill_eq hs (not_pause_of_unpaused hp) c, ready_iff.2 ⟨rfl, (ready_iff.1 hs).2⟩, unpaused_tail hp, rfl,
    fun _ => rfl, rfl, rfl, rfl, rfl, _, rfl⟩

/-- Settles O47: both ways set the same entries in the same order. -/
theorem fillIsSetcOfEveryIndex : Obligations.FillIsSetcOfEveryIndex := by
  intro s c hwf hs hp
  obtain ⟨t, hfill, ht⟩ := exec_fill_colorsSet c hs hp
  obtain ⟨u, hsetc, hu⟩ := runAll_setcCommands c hwf hs hp (Nat.le_refl _)
  have hleaves {v : State} (h : ColorsSet c s.cfg.cbufLen s v) : v.fault = .noFault ∧ v.busy = false ∧
      (s.upc = 0 → v.upc = 0) ∧ v.wire = s.wire ∧ v.scr = s.scr ∧ v.lvl = s.lvl ∧ v.cfg = s.cfg ∧
      ∃ n, v.timer = s.timer.advance n :=
    ⟨(ready_iff.1 h.ready).2, (ready_iff.1 h.ready).1, h.upc, h.wire, h.scr, h.lvl, h.cfg, h.timer⟩
  refine ⟨t, u, hfill, hsetc, ht.cbuf.trans hu.cbuf.symm, fun v hv => ?_⟩
  obtain rfl | rfl : v = t ∨ v = u := by simpa using hv
  · exact hleaves ht
  · exact hleaves hu

/-! ## Canonical buffers as data -/

/-- In a rising list an entry is what its index reads as. -/
theorem mem_iff_find {α : Type} {m : List (Nat × α)} (h : (m.map Prod.fst).Pairwise (· < ·)) {p : Nat × α} :
    p ∈ m ↔ Memory.find p.1 m = some p.2 := by
  induction m with
  | nil => simp
  | cons q m ih =>
    obtain ⟨hfirst, hrest⟩ := List.pairwise_cons.1 h
    rw [List.mem_cons, ih hrest, Memory.find]
    split_ifs with heq
    · have hnone : Memory.find q.1 m = none := find_eq_none fun hmem => Nat.lt_irrefl q.1 (hfirst q.1 hmem)
      simp [Prod.ext_iff, heq, hnone, eq_comm]
    · simp [Prod.ext_iff, heq]

/-- Two rising lists in which every index finds the same are equal. -/
theorem eq_of_find_eq {α : Type} {m q : List (Nat × α)} (hm : (m.map Prod.fst).Pairwise (· < ·))
    (hq : (q.map Prod.fst).Pairwise (· < ·)) (h : ∀ a, Memory.find a m = Memory.find a q) : m = q := by
  have hperm : m.Perm q := by
    refine (List.perm_ext_iff_of_nodup ?_ ?_).2 fun p => by rw [mem_iff_find hm, mem_iff_find hq, h]
    · exact List.Nodup.of_map _ (hm.imp Nat.ne_of_lt)
    · exact List.Nodup.of_map _ (hq.imp Nat.ne_of_lt)
  exact hperm.eq_of_pairwise (le := fun p r => p.1 < r.1) (fun _ _ _ _ hlt hgt => absurd hlt (Nat.lt_asymm hgt))
    (List.pairwise_map.1 hm) (List.pairwise_map.1 hq)

/-- Black is never listed, so that an index lists what it reads as. -/
theorem find_eq_of_getD_eq {c : Cfg} {m q : List (Nat × Color)} (hm : Memory.wf (listedColor c) m)
    (hq : Memory.wf (listedColor c) q) {a : Nat}
    (h : (Memory.find a m).getD .black = (Memory.find a q).getD .black) : Memory.find a m = Memory.find a q := by
  have hlisted {n : List (Nat × Color)} (hn : Memory.wf (listedColor c) n) (v : Color)
      (hv : Memory.find a n = some v) : v ≠ .black := by
    have := hn.2 (a, v) ((mem_iff_find hn.1).2 hv)
    simp only [listedColor, Bool.and_eq_true, bne_iff_ne] at this
    exact this.2
  cases hfm : Memory.find a m with
  | none =>
    cases hfq : Memory.find a q with
    | none => rfl
    | some w => exact absurd (by simpa [hfm, hfq] using h.symm) (hlisted hq w hfq)
  | some v =>
    cases hfq : Memory.find a q with
    | none => exact absurd (by simpa [hfm, hfq] using h) (hlisted hm v hfm)
    | some w => simpa [hfm, hfq] using h

theorem cbuf_ext {c : Cfg} {m q : List (Nat × Color)} (hm : Memory.wf (listedColor c) m)
    (hq : Memory.wf (listedColor c) q)
    (h : ∀ a, (Memory.find a m).getD .black = (Memory.find a q).getD .black) : m = q :=
  eq_of_find_eq hm.1 hq.1 fun a => find_eq_of_getD_eq hm hq (h a)

/-- Setting the same entries again changes nothing. -/
theorem putColors_putColors {k : Cfg} (c : Color) {m : List (Nat × Color)} (h : Memory.wf (listedColor k) m) :
    putColors c k.cbufLen (putColors c k.cbufLen m) = putColors c k.cbufLen m := by
  have hm := putColors_wf (c := c) h (Nat.le_refl _)
  refine cbuf_ext (putColors_wf hm (Nat.le_refl _)) hm fun a => ?_
  simp only [find_putColors]
  split_ifs <;> rfl

/-- Settles O48: a canonical buffer is determined by its reads, and the second FILL writes what is there. -/
theorem fillIsIdempotent : Obligations.FillIsIdempotent := by
  refine ⟨fun c m q => cbuf_ext, fun s t u c hinv hs hp hst htu => ?_⟩
  obtain ⟨t', hst', ht⟩ := exec_fill_colorsSet c hs hp
  obtain rfl : t = t' := Host.Outcome.next.inj (hst.symm.trans hst')
  obtain ⟨u', htu', hu⟩ := exec_fill_colorsSet c ht.ready ht.unpaused
  obtain rfl : u = u' := Host.Outcome.next.inj (htu.symm.trans htu')
  rw [hu.cbuf, ht.cfg, ht.cbuf, putColors_putColors c hinv.cbufForm]

end Sys2Proof.Machine
end

section
/-!
The time of a transmit that keeps up (70_reset_and_hazards.md R226, R232): the timer counts from the last WAIT or the ARM, and
every WAIT ends one TICK after the one before.
-/

namespace Sys2Proof.Machine

/-! ## Slots and the time units before each micro-operation -/

/-- Without pauses the slots are the time units before each micro-operation, the next one first. -/
theorem unitsBeforeEach_head {s : State} (h : s.unpaused = true) :
    (unitsBeforeEach 0 s.pace).headD 0 = s.nextSlot.units := by
  have hnext := not_pause_of_unpaused h
  unfold State.nextSlot at hnext ⊢
  cases hp : s.pace with
  | nil => rfl
  | cons x xs =>
    rw [hp] at hnext
    cases x with
    | run n => simp [unitsBeforeEach, Slot.units]
    | pause n => cases hnext

/-- An empty list of slots gives no time, as a list of one slot of no time does. -/
theorem keepsUpFrom_nil (tick acc : Nat) (ops : List Micro) : keepsUpFrom tick acc ops [] = keepsUpFrom tick acc ops [0] := by
  cases ops with
  | nil => rfl
  | cons m ops => cases m <;> rfl

theorem keepsUpFrom_tail {s : State} (h : s.unpaused = true) (tick acc : Nat) (ops : List Micro) :
    keepsUpFrom tick acc ops (unitsBeforeEach 0 s.pace).tail =
      keepsUpFrom tick acc ops (unitsBeforeEach 0 s.takeSlot.pace) := by
  have hnext := not_pause_of_unpaused h
  unfold State.nextSlot at hnext
  rw [takeSlot_pace]
  cases hp : s.pace with
  | nil => exact keepsUpFrom_nil tick acc ops
  | cons x xs =>
    rw [hp] at hnext
    cases x with
    | run n => rfl
    | pause n => cases hnext

/-- A WAIT or a line write. -/
def Micro.Polls (m : Micro) : Prop := m = .wait ∨ ∃ id, m = .setl id ∨ m = .seth id

/-- Before the next WAIT less than a tick has passed at every line write as well. -/
theorem lt_tick_of_keepsUpFrom {tick acc : Nat} {m : Micro} {rest : List Micro} {us : List Nat}
    (hpolls : ∀ q ∈ m :: rest, q.Polls) (hlast : (m :: rest).getLast? = some .wait)
    (h : keepsUpFrom tick acc (m :: rest) us = true) : acc + us.headD 0 < tick := by
  induction rest generalizing m acc us with
  | nil =>
    obtain rfl : m = .wait := by simpa using hlast
    simp only [keepsUpFrom, Bool.and_eq_true, decide_eq_true_eq] at h
    exact h.1
  | cons q rest ih =>
    have hnext {n : Nat} (hk : keepsUpFrom tick n (q :: rest) us.tail = true) : n < tick :=
      Nat.lt_of_le_of_lt (Nat.le_add_right _ _)
        (ih (fun p hp => hpolls p (List.mem_cons_of_mem m hp)) (by simpa using hlast) hk)
    rcases hpolls m List.mem_cons_self with rfl | ⟨id, rfl | rfl⟩
    · rw [keepsUpFrom, Bool.and_eq_true, decide_eq_true_eq] at h
      exact h.1
    · exact hnext h
    · exact hnext h

/-! ## A timer on time -/

/-- The timer counts with period TICK, `acc` time units after the last WAIT or the ARM, and its agent has `left` units left. -/
structure OnTime (acc left : Nat) (s : State) : Prop where
  fault : s.fault = .noFault
  unpaused : s.unpaused = true
  en : s.timer.en = true
  matched : s.timer.matched = false
  period : s.timer.period = s.cfg.tick
  cnt : s.timer.cnt.toNat = acc
  lt : acc < s.cfg.tick.toNat
  unitsLeft : s.unitsLeft = some left

section OnTime

variable {acc left : Nat} {s : State}

/-- What is left of the tick. -/
theorem OnTime.stepsToMatch (h : OnTime acc left s) : s.timer.stepsToMatch = s.cfg.tick.toNat - acc := by
  have hcnt := h.cnt
  have hlt := h.lt
  have htick := s.cfg.tick.isLt
  rw [Timer.stepsToMatch, h.period]
  simp only [BitVec.toNat_sub, BitVec.toNat_ofNat, hcnt]
  omega

theorem OnTime.pass (h : OnTime acc left s) {n : Nat} (hlt : acc + n < s.cfg.tick.toNat) (hn : n ≤ left) :
    OnTime (acc + n) (left - n) (s.pass n) := by
  have hunits : grantedUnits s.unitsLeft n = n := by rw [h.unitsLeft, grantedUnits_of_le hn]
  have hsteps : n < s.timer.stepsToMatch := by
    rw [h.stepsToMatch]
    omega
  have htick := s.cfg.tick.isLt
  refine ⟨h.fault, h.unpaused, by simp [h.en], ?_, by simp [h.period], ?_, hlt, ?_⟩
  · rw [pass_timer, hunits, advance_unmatched hsteps, h.matched]
  · rw [pass_timer, hunits, advance_of_lt h.en hsteps]
    simp only [BitVec.toNat_add, BitVec.toNat_ofNat, h.cnt]
    omega
  · simp [h.unitsLeft, grantedUnits_of_le hn]

theorem OnTime.takeSlot (h : OnTime acc left s) (hlt : acc + s.nextSlot.units < s.cfg.tick.toNat)
    (hn : s.nextSlot.units ≤ left) :
    OnTime (acc + s.nextSlot.units) (left - s.nextSlot.units) s.takeSlot :=
  OnTime.pass (s := { s with pace := s.pace.tail })
    ⟨h.fault, unpaused_tail h.unpaused, h.en, h.matched, h.period, h.cnt, h.lt, h.unitsLeft⟩ hlt hn

/-- Only these fields count. -/
theorem OnTime.congr (h : OnTime acc left s) {t : State} (hcfg : t.cfg = s.cfg) (hfault : t.fault = s.fault)
    (hpace : t.pace = s.pace) (htimer : t.timer = s.timer) (hunits : t.unitsLeft = s.unitsLeft) : OnTime acc left t := by
  have hunpaused : t.unpaused = s.unpaused := by rw [State.unpaused, hpace, State.unpaused]
  exact ⟨hfault ▸ h.fault, hunpaused ▸ h.unpaused, htimer ▸ h.en, htimer ▸ h.matched, by rw [htimer, hcfg, h.period],
    htimer ▸ h.cnt, hcfg ▸ h.lt, hunits ▸ h.unitsLeft⟩

theorem OnTime.track (h : OnTime acc left s) (i : Instr) (rest : List Micro) (u : Nat) :
    OnTime acc left (State.trackTransmit i rest { s with upc := u }) :=
  h.congr (by simp) (by simp) (by simp) (by simp) (by simp)

/-- A WAIT takes what is left of the tick. -/
theorem OnTime.wait_enabled (h : OnTime acc left s) (hleft : s.cfg.tick.toNat - acc ≤ left) :
    Micro.wait.enabledState s = some (s.pass (s.cfg.tick.toNat - acc)) := by
  rw [Micro.enabledState, waitUnits_of_le h.matched h.en h.unitsLeft (h.stepsToMatch ▸ hleft), h.stepsToMatch,
    Option.map_some]

/-- After a WAIT a new tick begins. -/
theorem OnTime.consumeMatch (h : OnTime acc left s) (hleft : s.cfg.tick.toNat - acc ≤ left) :
    OnTime 0 (left - (s.cfg.tick.toNat - acc)) (s.pass (s.cfg.tick.toNat - acc)).consumeMatch := by
  have hunits : grantedUnits s.unitsLeft (s.cfg.tick.toNat - acc) = s.cfg.tick.toNat - acc := by
    rw [h.unitsLeft, grantedUnits_of_le hleft]
  refine ⟨h.fault, h.unpaused, by simp [Timer.consume, h.en], rfl, by simp [Timer.consume, h.period], ?_,
    Nat.zero_lt_of_lt h.lt, by simp [h.unitsLeft, grantedUnits_of_le hleft]⟩
  rw [consumeMatch_timer, pass_timer, hunits, advance_of_le h.en (by rw [h.stepsToMatch]), h.stepsToMatch, Nat.sub_self,
    Nat.zero_mod]
  rfl

end OnTime

/-! ## Ticks -/

/-- A turn of the loop that no pause and no WAIT stops. -/
theorem drive_cons_of_unpaused {s t : State} (h : s.unpaused = true) (i : Instr) {m : Micro} (rest : List Micro)
    (he : m.enabledState s.takeSlot = some t) (hf : (m.perform t).fault = .noFault) :
    drive i (m :: rest) s = drive i rest (State.trackTransmit i rest { m.perform t with upc := t.upc + 1 }) := by
  simp [drive, not_pause_of_unpaused h, he, hf]

/-- One turn of a run that keeps up has gone from `s` to `t`. -/
structure PollTurn (i : Instr) (m : Micro) (rest : List Micro) (s : State) (acc left : Nat) (t : State) (acc' left' : Nat) :
    Prop where
  goesOn : drive i (m :: rest) s = drive i rest t
  onTime : OnTime acc' left' t
  cfg : t.cfg = s.cfg
  keepsUp : keepsUpFrom s.cfg.tick.toNat acc' rest (unitsBeforeEach 0 t.pace) = true
  afterWait : m = .wait → acc' = 0
  units : left' + acc' + (if m = .wait then s.cfg.tick.toNat else 0) = left + acc

section PollTurn

variable {i : Instr} {rest : List Micro} {s : State} {acc left : Nat}

/-- A line write goes on in the tick. -/
theorem write_turn {m : Micro} {id : Nat} {level : Bool} (hs : OnTime acc left s)
    (hslot : OnTime (acc + s.nextSlot.units) (left - s.nextSlot.units) s.takeSlot) (hunits : s.nextSlot.units ≤ left)
    (he : m.enabledState s.takeSlot = some s.takeSlot) (hm : m.perform s.takeSlot = s.takeSlot.setLine id level)
    (hid : id < s.cfg.nLines) (hwait : m ≠ .wait)
    (hkeeps : keepsUpFrom s.cfg.tick.toNat (acc + s.nextSlot.units) rest (unitsBeforeEach 0 s.pace).tail = true) :
    ∃ t, PollTurn i m rest s acc left t (acc + s.nextSlot.units) (left - s.nextSlot.units) := by
  have hline := setLine_fault (s := s.takeSlot) hid level
  have hperform : OnTime (acc + s.nextSlot.units) (left - s.nextSlot.units) (m.perform s.takeSlot) :=
    hm ▸ hslot.congr (setLine_cfg _ _ _) hline.1 (setLine_pace _ _ _) (setLine_timer _ _ _) (setLine_unitsLeft _ _ _)
  refine ⟨_, drive_cons_of_unpaused hs.unpaused i rest he hperform.fault, hperform.track i rest _, by simp, ?_,
    fun h => absurd h hwait, ?_⟩
  · rw [keepsUpFrom_tail hs.unpaused] at hkeeps
    simpa using hkeeps
  · rw [if_neg hwait]
    omega

/-- A WAIT ends the tick, and the next one begins. -/
theorem wait_turn (hs : OnTime acc left s)
    (hslot : OnTime (acc + s.nextSlot.units) (left - s.nextSlot.units) s.takeSlot) (hleft : s.cfg.tick.toNat ≤ left + acc)
    (hkeeps : keepsUpFrom s.cfg.tick.toNat acc (.wait :: rest) (unitsBeforeEach 0 s.pace) = true) :
    ∃ t left', PollTurn i .wait rest s acc left t 0 left' := by
  have hlt := hslot.lt
  have hunits : s.takeSlot.cfg.tick.toNat - (acc + s.nextSlot.units) ≤ left - s.nextSlot.units := by
    rw [takeSlot_cfg] at hlt ⊢
    omega
  have hnext := hslot.consumeMatch hunits
  refine ⟨_, _, drive_cons_of_unpaused hs.unpaused i rest (hslot.wait_enabled hunits) hnext.fault,
    hnext.track i rest _, by simp, ?_, fun _ => rfl, ?_⟩
  · rw [keepsUpFrom, Bool.and_eq_true, keepsUpFrom_tail hs.unpaused] at hkeeps
    simpa [Micro.perform] using hkeeps.2
  · rw [takeSlot_cfg] at hlt ⊢
    rw [if_pos rfl]
    omega

theorem poll_turn {m : Micro} (hs : OnTime acc left s) (hpolls : m.Polls) (hsound : m.Sound s.cfg)
    (hlt : acc + s.nextSlot.units < s.cfg.tick.toNat) (hleft : s.cfg.tick.toNat ≤ left + acc)
    (hkeeps : keepsUpFrom s.cfg.tick.toNat acc (m :: rest) (unitsBeforeEach 0 s.pace) = true) :
    ∃ t acc' left', PollTurn i m rest s acc left t acc' left' := by
  have hunits : s.nextSlot.units ≤ left := by omega
  have hslot := hs.takeSlot hlt hunits
  rcases hpolls with rfl | ⟨id, rfl | rfl⟩
  · obtain ⟨t, left', h⟩ := wait_turn hs hslot hleft hkeeps
    exact ⟨t, 0, left', h⟩
  · rw [keepsUpFrom, unitsBeforeEach_head hs.unpaused] at hkeeps
    obtain ⟨t, h⟩ := write_turn (m := .setl id) (level := false) hs hslot hunits rfl rfl hsound (by simp) hkeeps
    exact ⟨t, _, _, h⟩
  · rw [keepsUpFrom, unitsBeforeEach_head hs.unpaused] at hkeeps
    obtain ⟨t, h⟩ := write_turn (m := .seth id) (level := true) hs hslot hunits rfl rfl hsound (by simp) hkeeps
    exact ⟨t, _, _, h⟩

end PollTurn

/-- A run of WAITs and line writes that keeps up and ends with a WAIT takes one TICK for each WAIT, counted from the WAIT or
ARM before it, and completes. -/
theorem polls_run (i : Instr) {ops : List Micro} {s : State} {acc left spare : Nat} (hs : OnTime acc left s)
    (hpolls : ∀ m ∈ ops, m.Polls) (hsound : ∀ m ∈ ops, m.Sound s.cfg)
    (hlast : ops.getLast? = some .wait ∨ (ops = [] ∧ acc = 0))
    (hkeeps : keepsUpFrom s.cfg.tick.toNat acc ops (unitsBeforeEach 0 s.pace) = true)
    (hleft : left + acc = spare + ops.count .wait * s.cfg.tick.toNat) :
    (drive i ops s).busy = false ∧ (drive i ops s).fault = .noFault ∧ (drive i ops s).unitsLeft = some spare := by
  induction ops generalizing s acc left with
  | nil =>
    obtain ⟨-, rfl⟩ : ([] : List Micro) = [] ∧ acc = 0 := hlast.resolve_left (by simp)
    obtain rfl : left = spare := by simpa using hleft
    simp [drive, hs.fault, hs.unitsLeft]
  | cons m rest ih =>
    have hlast' : (m :: rest).getLast? = some .wait := hlast.resolve_right (by simp)
    have hlt := lt_tick_of_keepsUpFrom hpolls hlast' hkeeps
    rw [unitsBeforeEach_head hs.unpaused] at hlt
    have hcount : 1 ≤ (m :: rest).count .wait := List.count_pos_iff.2 (List.mem_of_getLast? hlast')
    have htick : s.cfg.tick.toNat ≤ (m :: rest).count .wait * s.cfg.tick.toNat := Nat.le_mul_of_pos_left _ hcount
    obtain ⟨t, acc', left', hdrive, ht, hcfg, hkeeps', hwait, hunits⟩ := poll_turn (i := i) hs
      (hpolls m List.mem_cons_self) (hsound m List.mem_cons_self) hlt (by omega) hkeeps
    rw [hdrive]
    refine ih ht (fun q hq => hpolls q (List.mem_cons_of_mem m hq))
      (fun q hq => hcfg ▸ hsound q (List.mem_cons_of_mem m hq)) ?_ (hcfg ▸ hkeeps') ?_
    · cases rest with
      | nil => exact .inr ⟨rfl, hwait (by simpa using hlast')⟩
      | cons q rest => exact .inl (by simpa using hlast')
    · rw [hcfg]
      by_cases hm : m = .wait
      · subst hm
        rw [List.count_cons_self, Nat.succ_mul] at hleft
        rw [if_pos rfl] at hunits
        omega
      · rw [List.count_cons_of_ne hm] at hleft
        rw [if_neg hm] at hunits
        omega

/-! ## TX -/

/-- After the ARM a tick begins. -/
theorem armTimer_onTime {s : State} {left : Nat} (hf : s.fault = .noFault) (hp : s.unpaused = true)
    (htick : s.cfg.tick ≠ 0#32) (hunits : s.unitsLeft = some left) : OnTime 0 left (s.armTimer s.cfg.tick) := by
  have hpos : 0 < s.cfg.tick.toNat := Nat.pos_of_ne_zero fun h0 => htick (BitVec.eq_of_toNat_eq (by simpa using h0))
  rw [armTimer_of_ne_zero htick]
  exact ⟨hf, hp, rfl, rfl, rfl, rfl, hpos, hunits⟩

theorem polls_txTail {c : Cfg} {ln : Nat} {bs : List Bool} {m : Micro} (h : m ∈ txTail c ln bs) : m.Polls :=
  (mem_txTail h).imp_right fun h => ⟨ln, h⟩

theorem count_wait_txTail (c : Cfg) (ln : Nat) (bs : List Bool) :
    (txTail c ln bs).count .wait = c.resetTicks + 3 * bs.length := by
  have h := count_wait_txExpand c ln bs
  rwa [txExpand_eq, List.count_cons_of_ne (by simp)] at h

/-- A transmit that keeps up, from its ARM on. -/
theorem transmit_on_time (i : Instr) {s : State} {d : Strip} (hwf : s.cfg.wf = true) (hd : d ∈ s.cfg.strips)
    (bs : List Bool) (hf : s.fault = .noFault) (hp : s.unpaused = true) {spare : Nat}
    (hunits : s.unitsLeft =
      some (spare + (s.nextSlot.units + (s.cfg.resetTicks + 3 * bs.length) * s.cfg.tick.toNat)))
    (hkeeps : keepsUpFrom s.cfg.tick.toNat 0 (txExpand s.cfg d.lineId bs) (unitsBeforeEach 0 s.pace) = true) :
    let t := drive i (txExpand s.cfg d.lineId bs) s
    t.busy = false ∧ t.fault = .noFault ∧ t.unitsLeft = some spare := by
  have hleft : s.takeSlot.unitsLeft = some (spare + (s.cfg.resetTicks + 3 * bs.length) * s.cfg.tick.toNat) := by
    rw [takeSlot_unitsLeft, hunits, grantedUnits_of_le (by omega), Option.map_some]
    congr 1
    omega
  have harm := armTimer_onTime (s := s.takeSlot) hf (unpaused_tail hp) (wf_tick hwf) hleft
  have hline := (wf_strip hwf hd).2.2
  rw [txExpand_eq, keepsUpFrom, keepsUpFrom_tail hp] at hkeeps
  rw [txExpand_eq, drive_cons_of_unpaused (m := .arm s.cfg.tick) hp i _ rfl harm.fault]
  have hsound : ∀ m ∈ txTail s.cfg d.lineId bs, m.Sound s.cfg := fun m hm =>
    sound_txExpand hwf hd (by rw [txExpand_eq]; exact List.mem_cons_of_mem _ hm)
  exact polls_run i (harm.track i _ _) (fun m hm => polls_txTail hm) (by simpa [Micro.perform] using hsound)
    (.inl (txTail_getLast (wf_resetTicks hwf) _ _)) (by simpa [Micro.perform] using hkeeps)
    (by simp [Micro.perform, count_wait_txTail])

/-- Settles O44: after the first slot and the ARM every WAIT of the frame takes one TICK. -/
theorem transmitTakesItsTicks : Obligations.TransmitTakesItsTicks := by
  intro s strip d b hwf hs hp hkeeps hunits hd hb
  have hfits := (wf_strip hwf (List.mem_of_getElem? hd)).1
  have hlen : (bitsOf (s.readBytes (3 * d.leds))).length = 24 * d.leds := by
    rw [length_bitsOf, length_readBytes, ← Nat.mul_assoc]
  have hticks : s.cfg.resetTicks + 3 * (bitsOf (s.readBytes (3 * d.leds))).length = frameTicks s.cfg d.leds := by
    rw [hlen, ← Nat.mul_assoc, frameTicks]
  have hexpand : expand (.tx strip) s = txExpand s.cfg d.lineId (bitsOf (s.readBytes (3 * d.leds))) := by
    simp only [expand, hd, txProgram]
  rw [State.keepsUp, hexpand] at hkeeps
  refine ⟨_, exec_tx_of_fits hs hd hfits, transmit_on_time (s := s.txAccepted strip d) (.tx strip) hwf
    (List.mem_of_getElem? hd) _ (ready_iff.1 hs).2 hp ?_ hkeeps⟩
  change s.unitsLeft = some (_ + (s.nextSlot.units + (s.cfg.resetTicks + _) * s.cfg.tick.toNat))
  rw [hticks, hunits, Nat.sub_add_cancel hb]

end Sys2Proof.Machine
end

section
/-!
What a TXALL puts on WIRE (30_encoding.md R107, 42_logical_strip.md R168), and that ENC and TX of every strip do the same
(30_encoding.md R101).
-/

namespace Sys2Proof.Machine

/-! ## Counts of a frame's events -/

theorem length_stripBits {d : Strip} (h : d.channelOrder.isSome = true) (off : Nat) (s : State) :
    (s.stripBits off d).length = 24 * d.leds := by
  obtain ⟨o, ho⟩ := Option.isSome_iff_exists.1 h
  rw [State.stripBits, length_bitsOf, length_encodedBytes ho, ← Nat.mul_assoc]

/-- A frame's events are its EvArm, EvSets and EvTicks (30_encoding.md R106). -/
theorem mem_tail_frameEvents {c : Cfg} {ln : Nat} {bs : List Bool} {e : Event} (h : e ∈ (frameEvents c ln bs).tail) :
    e = .tick ∨ ∃ level, e = .set ln level := by
  have hset {level : Bool} (he : e ∈ setEvents c ln level) : e = .tick ∨ ∃ level, e = .set ln level :=
    .inr ⟨level, mem_setEvents he⟩
  have htick {n : Nat} (he : e ∈ List.replicate n Event.tick) : e = .tick ∨ ∃ level, e = .set ln level :=
    .inl (List.eq_of_mem_replicate he)
  simp only [frameEvents, List.cons_append, List.tail_cons, List.mem_append, List.mem_flatMap, cellEvents] at h
  rcases h with (h | h) | ⟨b, -, ((h | h) | h) | h⟩
  · exact hset h
  · exact htick h
  · exact hset h
  · exact htick h
  · exact hset h
  · exact htick h

theorem count_arm_frameEvents (c : Cfg) (ln : Nat) (bs : List Bool) : (frameEvents c ln bs).count (.arm c.tick) = 1 := by
  have htail : Event.arm c.tick ∉ (frameEvents c ln bs).tail := fun h => by
    rcases mem_tail_frameEvents h with h | ⟨level, h⟩ <;> cases h
  rw [frameEvents_eq_cons, List.count_cons_self, List.count_eq_zero.2 htail]

theorem fatal_notMem_frameEvents (c : Cfg) (ln : Nat) (bs : List Bool) (code : FaultCode) :
    .fatal code ∉ frameEvents c ln bs := by
  rw [frameEvents_eq_cons, List.mem_cons, not_or]
  refine ⟨by simp, fun h => ?_⟩
  rcases mem_tail_frameEvents h with h | ⟨level, h⟩ <;> cases h

theorem count_tick_txallEvents {s : State} {ds : List Strip} (h : ∀ d ∈ ds, d.channelOrder.isSome = true) (off : Nat) :
    (txallEvents s off ds).count .tick = (ds.map fun d => s.cfg.resetTicks + 72 * d.leds).sum := by
  induction ds generalizing off with
  | nil => rfl
  | cons d ds ih =>
    rw [txallEvents, List.count_append, count_tick_frameEvents, length_stripBits (h d List.mem_cons_self),
      ih fun e he => h e (List.mem_cons_of_mem d he), List.map_cons, List.sum_cons, ← Nat.mul_assoc]

theorem count_arm_txallEvents (s : State) (off : Nat) (ds : List Strip) :
    (txallEvents s off ds).count (.arm s.cfg.tick) = ds.length := by
  induction ds generalizing off with
  | nil => rfl
  | cons d ds ih => rw [txallEvents, List.count_append, count_arm_frameEvents, ih, List.length_cons, Nat.add_comm]

theorem fatal_notMem_txallEvents (s : State) (off : Nat) (ds : List Strip) (code : FaultCode) :
    .fatal code ∉ txallEvents s off ds := by
  induction ds generalizing off with
  | nil => simp [txallEvents]
  | cons d ds ih =>
    rw [txallEvents, List.mem_append, not_or]
    exact ⟨fatal_notMem_frameEvents _ _ _ code, ih _⟩

/-- W1: the strips and the last one. -/
theorem wf_strips_eq_concat {c : Cfg} (h : c.wf = true) : ∃ ds d, c.strips = ds ++ [d] := by
  obtain ⟨ds, d, hds⟩ := (List.eq_nil_or_concat c.strips).resolve_left (wf_strips_ne_nil h)
  exact ⟨ds, d, by rw [hds, List.concat_eq_append]⟩

/-! ## The service of a strip, by whatever commands -/

/-- What the service of strip `d` with number `k` leaves that the host and the lines can see. -/
structure StripShown (s t : State) (k : Nat) (d : Strip) : Prop where
  cfg : t.cfg = s.cfg
  cbuf : t.cbuf = s.cbuf
  draws : t.draws = s.draws
  scr : t.scr = putBytes 0 (s.encodedBytes (s.cfg.start k) d d.direction) s.scr
  lvl : t.lvl = txLatches s.cfg d.lineId (s.stripBits (s.cfg.start k) d) s.lvl
  wire : t.wire = s.wire ++ frameEvents s.cfg d.lineId (s.stripBits (s.cfg.start k) d)

theorem StripSent.shown {s t : State} {k : Nat} {d : Strip} (h : StripSent s t k d) : StripShown s t k d :=
  ⟨h.keeps.cfg, h.keeps.cbuf, h.keeps.draws, h.scr, h.lvl, h.wire⟩

/-- Two states that read alike for the host and the lines. -/
structure Alike (s t : State) : Prop where
  cfg : t.cfg = s.cfg
  cbuf : t.cbuf = s.cbuf
  draws : t.draws = s.draws
  scr : t.scr = s.scr
  lvl : t.lvl = s.lvl
  wire : t.wire = s.wire

/-- The service of a strip keeps states alike. -/
theorem StripShown.alike {s t u v : State} {k : Nat} {d : Strip} (h : StripShown s t k d) (g : StripShown u v k d)
    (hsu : Alike s u) : Alike t v := by
  have hbytes := encodedBytes_of_cbuf_eq hsu.cbuf (s.cfg.start k) d d.direction
  have hbits := stripBits_of_cbuf_eq hsu.cbuf (s.cfg.start k) d
  constructor
  · rw [g.cfg, h.cfg, hsu.cfg]
  · rw [g.cbuf, h.cbuf, hsu.cbuf]
  · rw [g.draws, h.draws, hsu.draws]
  · rw [g.scr, h.scr, hsu.cfg, hsu.scr, hbytes]
  · rw [g.lvl, h.lvl, hsu.cfg, hsu.lvl, hbits]
  · rw [g.wire, h.wire, hsu.cfg, hsu.wire, hbits]

/-! ## ENC and TX of a strip -/

/-- Slots that do not pause are kept. -/
theorem drive_unpaused (i : Instr) (ops : List Micro) {s : State} (h : s.unpaused = true) :
    (drive i ops s).unpaused = true := by
  refine drive_keeps (fun t => t.unpaused = true) i (fun _ => unpaused_tail) (fun _ _ ht => ht) (fun _ _ t ht => ?_)
    (fun t ht => ?_) ops (fun m _ t ht => ?_) s h
  · simpa [State.unpaused] using ht
  · simpa [State.unpaused] using ht
  · simpa [State.unpaused] using ht

theorem exec_unpaused {i : Instr} {s t : State} (h : exec i s = .next t) (hf : t.fault = .noFault)
    (hp : s.unpaused = true) : t.unpaused = true := by
  rcases exec_cases h with rfl | hrejected
  · exact drive_unpaused i _ (by simpa [State.unpaused] using hp)
  · exact absurd hf hrejected.endedFatally.fault

/-- The bytes just written are read back. -/
theorem readBytes_writeBytes (s : State) (out : List Byte) : (s.writeBytes out).readBytes out.length = out := by
  apply List.ext_getElem (length_readBytes _ _)
  intro b hb hb'
  simp [State.readBytes, readByte_writeBytes_of_getElem? (List.getElem?_eq_getElem hb')]

/-- The state after an ENC of strip `d`, `i` being what it leaves in I. -/
def State.encoded (k : Word32) (d : Strip) (i : Word32) (s : State) : State :=
  State.complete (State.writeBytes (s.encodedBytes (s.cfg.start k.toNat) d d.direction)
    { (s.accepted (.enc k d.direction)).chooseStrip k.toNat d d.direction with i := i })

section Encoded

variable (k i : Word32) (d : Strip) (s : State)

@[simp] theorem encoded_cfg : (s.encoded k d i).cfg = s.cfg := by
  simp [State.encoded, State.accepted, State.chooseStrip]
@[simp] theorem encoded_cbuf : (s.encoded k d i).cbuf = s.cbuf := by
  simp [State.encoded, State.accepted, State.chooseStrip]
@[simp] theorem encoded_draws : (s.encoded k d i).draws = s.draws := by
  simp [State.encoded, State.accepted, State.chooseStrip]
@[simp] theorem encoded_scr : (s.encoded k d i).scr =
    putBytes 0 (s.encodedBytes (s.cfg.start k.toNat) d d.direction) s.scr := by
  simp [State.encoded, State.accepted, State.chooseStrip]
@[simp] theorem encoded_lvl : (s.encoded k d i).lvl = s.lvl := by
  simp [State.encoded, State.accepted, State.chooseStrip]
@[simp] theorem encoded_wire : (s.encoded k d i).wire = s.wire := by
  simp [State.encoded, State.accepted, State.chooseStrip]

end Encoded

theorem readBytes_encoded {d : Strip} (ho : d.channelOrder.isSome = true) (k i : Word32) (s : State) :
    (s.encoded k d i).readBytes (3 * d.leds) = s.encodedBytes (s.cfg.start k.toNat) d d.direction := by
  obtain ⟨o, ho⟩ := Option.isSome_iff_exists.1 ho
  rw [← length_encodedBytes ho (s.cfg.start k.toNat) d.direction s]
  exact readBytes_writeBytes _ _

/-- ENC and TX of one strip serve it (41_physical_strip.md R143, R148). -/
theorem encTx_run {s : State} (hs : s.ready = true) (hc : s.Calm) (hwf : s.cfg.wf = true) {k : Word32} {d : Strip}
    (hd : s.cfg.strips[k.toNat]? = some d) :
    ∃ t, runAll [.enc k d.direction, .tx k] s = .next t ∧ StripShown s t k.toNat d ∧ t.ready = true ∧ t.Calm ∧
      t.upc = 0 := by
  have hf : s.fault = .noFault := (ready_iff.1 hs).2
  obtain ⟨i, henc⟩ := exec_enc_of_wf hs hc.not_pause hwf hd d.direction
  change _ = Host.Outcome.next (s.encoded k d i) at henc
  have hready : (s.encoded k d i).ready = true := ready_iff.2 ⟨rfl, hf⟩
  have hcalm : (s.encoded k d i).Calm := ⟨hc.takeSlot.live, hc.takeSlot.steady⟩
  obtain ⟨t, htx, ht⟩ := exec_tx_of_calm hready hcalm hwf hd
  rw [readBytes_encoded (wf_strip hwf (List.mem_of_getElem? hd)).2.1] at ht
  have htfault : t.fault = .noFault := by rw [ht]; exact hf
  have htready : t.ready = true := ready_iff.2 ⟨by rw [ht], htfault⟩
  have hlive : t.unitsLeft = none := by rw [ht]; exact hcalm.live
  have hshown : StripShown s t k.toNat d := by
    rw [ht]
    constructor <;> simp [State.stripBits]
  exact ⟨t, (runAll_cons henc hready).trans (runAll_cons htx htready), hshown, htready,
    ⟨hlive, exec_unpaused htx htfault hcalm.steady⟩, by rw [ht]⟩

/-! ## All strips -/

theorem encTxCommands_concat (k : Nat) (ds : List Strip) (d : Strip) :
    encTxCommands k (ds ++ [d]) = encTxCommands k ds ++
      [.enc (BitVec.ofNat 32 (k + ds.length)) d.direction, .tx (BitVec.ofNat 32 (k + ds.length))] := by
  induction ds generalizing k with
  | nil => rfl
  | cons e ds ih =>
    rw [List.cons_append, encTxCommands, encTxCommands, ih, List.length_cons, Nat.add_right_comm k, Nat.add_assoc k]
    rfl

/-- The first strips served by one TXALL and by ENC and TX of each: the states are alike. -/
theorem strips_alike {s : State} (hs : s.ready = true) (hc : s.Calm) (hwf : s.cfg.wf = true)
    (hn : s.cfg.strips.length ≤ 2 ^ 32) {ds fs : List Strip} (hstrips : s.cfg.strips = ds ++ fs) (rest : List Micro) :
    ∃ t v, drive .txall (txallProgram s.txallAccepted 0 0 ds ++ rest) s.txallAccepted = drive .txall rest t ∧
      StripsSent s.txallAccepted t ds ∧ runAll (encTxCommands 0 ds) s = .next v ∧ v.ready = true ∧ v.Calm ∧
      (ds ≠ [] → v.upc = 0) ∧ Alike t v := by
  induction ds using List.reverseRecOn generalizing fs rest with
  | nil =>
    exact ⟨s.txallAccepted, s, rfl, .nil ⟨hc.live, hc.steady⟩, rfl, hs, hc, fun h => absurd rfl h, rfl, rfl, rfl, rfl, rfl, rfl⟩
  | append_singleton ds d ih =>
    have hf : s.fault = .noFault := (ready_iff.1 hs).2
    have hsplit : s.cfg.strips = ds ++ d :: fs := by simpa using hstrips
    obtain ⟨u, v, hdrive, hu, hrun, hv, hvc, -, huv⟩ :=
      ih hsplit (s.txallAccepted.stripProgram ds.length (ledsOf ds) d ++ rest)
    obtain ⟨t, hstrip, hsent, ht⟩ := hu.serve_next hf hwf hsplit rest
    have hk : (BitVec.ofNat 32 ds.length).toNat = ds.length := by
      have hlen := congrArg List.length hsplit
      simp only [List.length_append, List.length_cons] at hlen
      rw [BitVec.toNat_ofNat, Nat.mod_eq_of_lt (by omega)]
    have hvcfg : v.cfg = s.cfg := huv.cfg.trans hu.keeps.cfg
    obtain ⟨w, hpair, hshown, hw, hwc, hupc⟩ := encTx_run (k := BitVec.ofNat 32 ds.length) (d := d) hv hvc (hvcfg ▸ hwf)
      (by rw [hk, hvcfg, hsplit]; simp)
    rw [hk] at hshown
    refine ⟨t, w, ?_, ht, ?_, hw, hwc, fun _ => hupc, hsent.shown.alike hshown huv⟩
    · rw [txallProgram_concat, Nat.zero_add, Nat.zero_add, List.append_assoc]
      exact hdrive.trans hstrip
    · rw [encTxCommands_concat, Nat.zero_add]
      exact (runAll_append hrun hv).trans hpair

/-- Settles O51: strip by strip both ways write the same bytes, latches and events. -/
theorem txallIsEncAndTxOfEveryStrip : Obligations.TxallIsEncAndTxOfEveryStrip := by
  intro s hwf hs hlive hp hn
  obtain ⟨t, v, hdrive, ht, hrun, hv, -, hupc, halike⟩ := strips_alike hs ⟨Option.isNone_iff_eq_none.1 hlive, hp⟩ hwf hn
    (fs := []) (List.append_nil _).symm []
  obtain ⟨ds, d, hstrips⟩ := wf_strips_eq_concat hwf
  have hexec : exec .txall s = .next (t.finish .txall) := by
    rw [exec_txall_eq hs hwf]
    rw [List.append_nil] at hdrive
    exact congrArg Host.Outcome.next hdrive
  have hfault : t.fault = v.fault :=
    (ht.keeps.fault.trans (ready_iff.1 hs).2).trans (ready_iff.1 hv).2.symm
  exact ⟨t.finish .txall, v, hexec, hrun, halike.wire.symm, halike.cbuf.symm, halike.scr.symm, halike.lvl.symm,
    (ready_iff.1 hv).1.symm, hfault, (hupc (by simp [hstrips])).symm⟩

end Sys2Proof.Machine

namespace Sys2Proof

/-- Settles O49: WIRE gains the frames of all strips, each with its ticks and its EvArm. -/
theorem txallTicks : Obligations.TxallTicks := by
  intro s hwf hs hlive hp
  obtain ⟨ds, d, hstrips⟩ := Machine.wf_strips_eq_concat hwf
  obtain ⟨-, t, hexec, -, -, -, -, -, -, hwire, -⟩ :=
    Machine.txallSendsEveryFrameInOrder s ds d hwf hs hlive hp hstrips
  exact ⟨t, Machine.txallEvents s 0 s.cfg.strips, hexec, hwire,
    Machine.count_tick_txallEvents (fun e he => (Machine.wf_strip hwf he).2.1) 0,
    Machine.count_arm_txallEvents s 0 s.cfg.strips, Machine.fatal_notMem_txallEvents s 0 s.cfg.strips⟩

end Sys2Proof
end

section
/-!
The working registers I, J and TC when a command has completed (10_state.md R28 to R30, log entry 15).
-/

namespace Sys2Proof.Machine

/-! ## A loop that completes has done everything -/

/-- Where the loop ends with the command completed, its next micro-operation was done and the loop went on. -/
theorem drive_cons_of_completed {i : Instr} {m : Micro} {rest : List Micro} {s : State} (hb : s.busy = true)
    (h : (drive i (m :: rest) s).ready = true) :
    ∃ u, (m.perform (s.takeSlot.pass u)).fault = .noFault ∧ drive i (m :: rest) s =
      drive i rest (State.trackTransmit i rest { m.perform (s.takeSlot.pass u) with upc := s.upc + 1 }) := by
  obtain ⟨hidle, hf⟩ := ready_iff.1 h
  rcases drive_cases i m rest s with ⟨-, hd⟩ | ⟨-, -, hd⟩ | ⟨t, -, he, hfatal, hd⟩ | ⟨t, -, he, hgo, hd⟩
  · rw [hd, takeSlot_busy, hb] at hidle
    cases hidle
  · rw [hd, hang_busy, takeSlot_busy, hb] at hidle
    cases hidle
  · rw [hd] at hf
    exact absurd hf hfatal
  · obtain ⟨u, rfl⟩ := enabledState_eq he
    exact ⟨u, hgo, hd⟩

/-! ## J and TC -/

@[simp] theorem encodeStrip_j (s : State) (k : Nat) (dir : Direction) : (s.encodeStrip k dir).j = s.j := by
  unfold State.encodeStrip; split <;> [rfl; (dsimp only; split <;> rfl)]

@[simp] theorem perform_j (m : Micro) (s : State) : (m.perform s).j = s.j := by
  cases m <;> simp [Micro.perform]

/-- When a TX or TXALL has completed TC is 0, and J is the bit of its last position: it stays where only the last
micro-operation was still to come. -/
theorem drive_tracked {i : Instr} (hi : Instr.Transmits i) {m : Micro} {rest : List Micro} {s : State} (hb : s.busy = true)
    (h : (drive i (m :: rest) s).ready = true) :
    (drive i (m :: rest) s).tc = 0 ∧ (drive i (m :: rest) s).j =
      if rest.isEmpty then s.j else BitVec.ofNat 37 (bitOf i s.cfg (s.upc + rest.length)) := by
  induction rest generalizing m s with
  | nil =>
    obtain ⟨u, -, hd⟩ := drive_cons_of_completed hb h
    rw [hd, drive, finish_tc, finish_j, trackTransmit_of_transmits hi]
    simp [leadingWaits]
  | cons q rest ih =>
    obtain ⟨u, hgo, hd⟩ := drive_cons_of_completed hb h
    have hb' : (State.trackTransmit i (q :: rest) { m.perform (s.takeSlot.pass u) with upc := s.upc + 1 }).busy = true := by
      simpa [hb] using perform_busy hgo
    rw [hd] at h ⊢
    obtain ⟨htc, hj⟩ := ih hb' h
    refine ⟨htc, hj.trans ?_⟩
    rw [trackTransmit_of_transmits hi]
    cases rest with
    | nil => simp
    | cons r rest =>
      simp only [List.isEmpty_cons, Bool.false_eq_true, if_false, perform_cfg, pass_cfg, takeSlot_cfg, List.length_cons]
      congr 2
      omega

/-! ## I -/

/-- I after the ENCODE of a strip: the last LED position, or as before where there is no LED (log entry 15). -/
def lastPosition (d : Strip) (p : Word32) : Word32 := if d.leds = 0 then p else BitVec.ofNat 32 (d.leds - 1)

/-- I after a micro-operation that is not fatal. -/
def Micro.positionAfter (c : Cfg) (p : Word32) : Micro → Word32
  | .encode k _ => (c.strips[k]?).elim p fun d => lastPosition d p
  | .arm _ | .wait | .setl _ | .seth _ | .setColor _ _ | .fillAll _ => p

theorem perform_i {m : Micro} {s : State} (h : (m.perform s).fault = .noFault) :
    (m.perform s).i = m.positionAfter s.cfg s.i := by
  cases m with
  | arm | wait | setl | seth | setColor | fillAll => simp [Micro.perform, Micro.positionAfter]
  | encode k dir =>
    rcases perform_cases (.encode k dir) s with ⟨⟨d, hd, hfits⟩, -⟩ | ⟨-, hend⟩
    · simp only [Micro.perform, State.encodeStrip, hd, if_neg (Nat.not_lt.2 hfits), writeBytes_i, Micro.positionAfter,
        Option.elim_some, lastPosition]
    · exact absurd h hend.fault

/-- I when a command has completed: micro-operation after micro-operation. -/
theorem drive_i {i : Instr} {ops : List Micro} {s : State} (hb : s.busy = true) (h : (drive i ops s).ready = true) :
    (drive i ops s).i = ops.foldl (Micro.positionAfter s.cfg) s.i := by
  induction ops generalizing s with
  | nil => exact finish_i s i
  | cons m rest ih =>
    obtain ⟨u, hgo, hd⟩ := drive_cons_of_completed hb h
    have hb' : (State.trackTransmit i rest { m.perform (s.takeSlot.pass u) with upc := s.upc + 1 }).busy = true := by
      simpa [hb] using perform_busy hgo
    rw [hd] at h ⊢
    rw [ih hb' h, List.foldl_cons]
    simp [perform_i hgo]

/-- A transmit leaves I. -/
theorem foldl_positionAfter_txExpand (c : Cfg) (ln : Nat) (bs : List Bool) (p : Word32) :
    (txExpand c ln bs).foldl (Micro.positionAfter c) p = p := by
  have hkeep : ∀ q, ∀ m ∈ txExpand c ln bs, Micro.positionAfter c q m = q := fun q m hm => by
    rcases mem_txExpand hm with rfl | rfl | rfl | rfl <;> rfl
  rw [List.foldl_ext _ (fun q _ => q) p hkeep, List.foldl_fixed]

/-- TXALL's I, strip after strip. -/
theorem foldl_positionAfter_txallProgram {s : State} {k : Nat} {ds : List Strip}
    (h : ∀ j, s.cfg.strips[k + j]? = ds[j]?) (off : Nat) (p : Word32) :
    (txallProgram s k off ds).foldl (Micro.positionAfter s.cfg) p = ds.foldl (fun p d => lastPosition d p) p := by
  induction ds generalizing k off p with
  | nil => rfl
  | cons d ds ih =>
    have hd : s.cfg.strips[k]? = some d := h 0
    have hrest : ∀ j, s.cfg.strips[k + 1 + j]? = ds[j]? := fun j => by
      rw [Nat.add_assoc, Nat.add_comm 1 j, h (j + 1), List.getElem?_cons_succ]
    rw [txallProgram_cons, List.foldl_append, ih hrest, State.stripProgram, List.foldl_cons, foldl_positionAfter_txExpand,
      List.foldl_cons, Micro.positionAfter, hd, Option.elim_some]

theorem foldl_lastPosition_of_no_leds {ds : List Strip} (h : ∀ d ∈ ds, d.leds = 0) (p : Word32) :
    ds.foldl (fun p d => lastPosition d p) p = p := by
  have hkeep : ∀ q, ∀ d ∈ ds, lastPosition d q = q := fun q d hd => if_pos (h d hd)
  rw [List.foldl_ext _ (fun q _ => q) p hkeep, List.foldl_fixed]

/-- The last strip that has LEDs decides. -/
theorem foldl_lastPosition_of_last {es fs : List Strip} {e : Strip} (he : e.leds ≠ 0) (hfs : ∀ f ∈ fs, f.leds = 0)
    (p : Word32) :
    (es ++ e :: fs).foldl (fun p d => lastPosition d p) p = BitVec.ofNat 32 (e.leds - 1) := by
  rw [List.foldl_append, List.foldl_cons, foldl_lastPosition_of_no_leds hfs, lastPosition, if_neg he]

/-! ## The commands -/

@[simp] theorem begun_i (i : Instr) (s : State) : (s.begun i).i = s.i := by
  rw [State.begun, prepare_eq, accept_i]

/-- A command that a ready engine completes at once is its whole expansion. -/
theorem drive_of_completed {i : Instr} {s t : State} (h : exec i s = .next t) (hs : s.ready = true)
    (ht : t.ready = true) : t = drive i (expand i s) (s.begun i) := by
  rcases exec_cases h with rfl | hrejected
  · rw [begun_upc_of_idle (ready_iff.1 hs).1, List.drop_zero]
  · exact absurd (ready_iff.1 ht).2 hrejected.endedFatally.fault

theorem exec_i_of_completed {i : Instr} {s t : State} (h : exec i s = .next t) (hs : s.ready = true)
    (ht : t.ready = true) : t.i = (expand i s).foldl (Micro.positionAfter s.cfg) s.i := by
  have hdrive := drive_of_completed h hs ht
  rw [hdrive] at ht ⊢
  rw [drive_i (begun_busy i s) ht, begun_cfg, begun_i]

theorem exec_tracked_of_completed {i : Instr} (hi : Instr.Transmits i) {s t : State} (h : exec i s = .next t)
    (hs : s.ready = true) (ht : t.ready = true) {n : Nat} (hn : (expand i s).length = n + 2) :
    t.tc = 0 ∧ t.j = BitVec.ofNat 37 (bitOf i s.cfg (n + 1)) := by
  have hdrive := drive_of_completed h hs ht
  match hops : expand i s with
  | [] | [_] => simp [hops] at hn
  | m :: q :: rest =>
    rw [hdrive, hops] at ht
    obtain ⟨htc, hj⟩ := drive_tracked hi (begun_busy i s) ht
    have hlen : (q :: rest).length = n + 1 := by simpa [hops] using hn
    rw [begun_upc_of_idle (ready_iff.1 hs).1, Nat.zero_add, hlen, begun_cfg] at hj
    rw [hdrive, hops]
    exact ⟨htc, hj⟩

/-- The last bit of a transmit of `n` LEDs. -/
theorem bitAt_last (c : Cfg) (n : Nat) : bitAt c (1 + c.resetTicks + 120 * n) = 24 * n - 1 := by
  rw [bitAt]
  omega

/-- ENC of a strip of a well-formed configuration. -/
theorem exec_enc_registers {s : State} (hwf : s.cfg.wf = true) (hs : s.ready = true) (hp : s.nextSlot.isPause = false)
    {strip : Word32} {d : Strip} (hd : s.cfg.strips[strip.toNat]? = some d) (dir : Direction) :
    ∃ t, exec (.enc strip dir) s = .next t ∧ t.i = lastPosition d s.i ∧ t.j = s.j ∧ t.tc = s.tc := by
  obtain ⟨p, hexec⟩ := exec_enc_of_wf hs hp hwf hd dir
  refine ⟨_, hexec, ?_, rfl, rfl⟩
  rw [exec_i_of_completed hexec hs (ready_iff.2 ⟨rfl, (ready_iff.1 hs).2⟩)]
  simp [expand, Micro.positionAfter, hd]

/-- TX of a strip of a well-formed configuration. -/
theorem exec_tx_registers {s : State} (hwf : s.cfg.wf = true) (hs : s.ready = true) (hc : s.Calm) {strip : Word32}
    {d : Strip} (hd : s.cfg.strips[strip.toNat]? = some d) :
    ∃ t, exec (.tx strip) s = .next t ∧ t.j = BitVec.ofNat 37 (24 * d.leds - 1) ∧ t.tc = 0 ∧ t.i = s.i ∧
      t.off = s.off := by
  obtain ⟨t, hexec, ht⟩ := exec_tx_of_calm hs hc hwf hd
  have htready : t.ready = true := ready_iff.2 ⟨by rw [ht], by rw [ht]; exact (ready_iff.1 hs).2⟩
  have hlen : (expand (.tx strip) s).length = s.cfg.resetTicks + 120 * d.leds + 2 := by
    simp only [expand, hd, txProgram, length_txExpand, length_bitsOf, length_readBytes]
    omega
  obtain ⟨htc, hj⟩ := exec_tracked_of_completed (.inl rfl) hexec hs htready hlen
  refine ⟨t, hexec, ?_, htc, by rw [ht], by rw [ht]⟩
  rw [hj, bitOf, Nat.add_comm _ 1, ← Nat.add_assoc, bitAt_last]

/-- TXALL of a well-formed configuration. -/
theorem exec_txall_registers {s : State} (hwf : s.cfg.wf = true) (hs : s.ready = true) (hlive : s.timerLive = true)
    (hp : s.unpaused = true) {ds : List Strip} {d : Strip} (hstrips : s.cfg.strips = ds ++ [d]) :
    ∃ t, exec .txall s = .next t ∧ t.j = BitVec.ofNat 37 (24 * d.leds - 1) ∧ t.tc = 0 ∧
      t.off = BitVec.ofNat 32 s.cfg.totalLeds ∧ t.i = s.cfg.strips.foldl (fun p d => lastPosition d p) s.i := by
  obtain ⟨hlen, t, hexec, -, -, hb, -, hf, -, -, -, -, -, -, -, -, -, -, -, -, -, hoff, -⟩ :=
    txallSendsEveryFrameInOrder s ds d hwf hs hlive hp hstrips
  have ht : t.ready = true := ready_iff.2 ⟨hb, hf⟩
  have hlen' : (expand .txall s).length =
      (ds.map fun e => 3 + s.cfg.resetTicks + 120 * e.leds).sum + (1 + s.cfg.resetTicks + 120 * d.leds) + 2 := by
    rw [hlen, hstrips, List.map_append, List.sum_append, List.map_singleton, List.sum_singleton]
    omega
  obtain ⟨htc, hj⟩ := exec_tracked_of_completed (.inr rfl) hexec hs ht hlen'
  refine ⟨t, hexec, ?_, htc, hoff, ?_⟩
  · rw [hj, bitOf, Nat.add_assoc, hstrips, txallBitAt_append (by omega), Nat.add_sub_cancel, bitAt_last]
  · rw [exec_i_of_completed hexec hs ht]
    exact foldl_positionAfter_txallProgram (fun j => by rw [Nat.zero_add]) 0 s.i

/-- Settles O54: I, J and TC as the loop has left them when it had done the whole expansion. -/
theorem workingRegistersAfterACommand : Obligations.WorkingRegistersAfterACommand := by
  intro s hwf hs hlive hp
  refine ⟨fun strip dir d hd => exec_enc_registers hwf hs (not_pause_of_unpaused hp) hd dir, fun strip d hd =>
    exec_tx_registers hwf hs ⟨Option.isNone_iff_eq_none.1 hlive, hp⟩ hd, fun ds d hstrips => ?_⟩
  obtain ⟨t, hexec, hj, htc, hoff, hi⟩ := exec_txall_registers hwf hs hlive hp hstrips
  refine ⟨t, hexec, hj, htc, hoff, fun es fs e hsplit he hfs => ?_, fun hnone => ?_⟩
  · rw [hi, hsplit, foldl_lastPosition_of_last he hfs]
  · rw [hi, foldl_lastPosition_of_no_leds hnone]

end Sys2Proof.Machine
end
